-- ==== Sys2Proof/Word.lean ====
section
/-! DEFINITION. The word types of the AFE's register space (R13, R14, R70, R75): a byte, a 32-bit word, a
16-bit register-space address, a binary32 bit pattern, and an array of a fixed number of elements. -/

namespace Sys2Proof

/-- One byte of the register space (R75). -/
abbrev Byte := BitVec 8

/-- One 32-bit register or bus word (R13, R14 `u32`). -/
abbrev Word := BitVec 32

/-- A byte address of the 64 KiB register space (R70). -/
abbrev Addr := BitVec 16

/-- An `f32` value, as the IEEE 754 binary32 bit pattern its register holds (R14, R75).  It is a type of its
own, not a synonym of `Word`, so that no integer operation can be applied to it by accident; its arithmetic
stands in `Sys2Proof.Machine.Float`. -/
structure F32 where
  /-- The bit pattern: sign in bit 31, exponent in bits 30:23, fraction in bits 22:0. -/
  bits : Word
deriving DecidableEq, Repr, Inhabited

/-- An array of exactly `n` elements (R54 to R57). -/
structure Arr (α : Type) (n : Nat) where
  /-- The elements, element 0 first. -/
  elems : List α
  /-- There are exactly `n` of them. -/
  size : elems.length = n
deriving DecidableEq, Repr

end Sys2Proof
end

