-- ==== Sys2Proof/Syntax.lean ====
section
/-! DEFINITION. The commands of the AFE: one constructor per row of `spec/opcode_table.json` (R102, R103). -/

namespace Sys2Proof

/-- The legal command words (R102).  `dt` is the `IMM` operand of `AGC_TICK` and `LIMIT`, a time in
milliseconds (R101); `BINNER` has one constructor per channel count, as the opcode table has one row per
channel count (R103).  No other command has an operand. -/
inductive Instr where
  /-- `NOP` (R130). -/
  | nop
  /-- `CYCLE_BEGIN` (R131). -/
  | cycleBegin
  /-- `RESET` (R132). -/
  | reset
  /-- `COND_REPAIR` (R150). -/
  | condRepair
  /-- `COND_NORM` (R155). -/
  | condNorm
  /-- `COND_BPF` (R160). -/
  | condBpf
  /-- `COND_MAX` (R165). -/
  | condMax
  /-- `ENV_SAMPLE` (R180). -/
  | envSample
  /-- `AGC_TICK dt` (R190). -/
  | agcTick (dt : Nat)
  /-- `LIMIT dt` (R205). -/
  | limit (dt : Nat)
  /-- `FFT_RUN` (R220). -/
  | fftRun
  /-- `AGG16` (R240). -/
  | agg16
  /-- `SCALE16` (R255). -/
  | scale16
  /-- `BINNER 8` (R270). -/
  | binner8
  /-- `BINNER 16` (R270). -/
  | binner16
  /-- `BINNER 32` (R270). -/
  | binner32
  /-- `BINNER 64` (R270). -/
  | binner64
  /-- `BINNER 128` (R270). -/
  | binner128
  /-- `PEAK_DETECT` (R280). -/
  | peakDetect
  /-- `PEAK_RESET` (R282). -/
  | peakReset
  /-- `BEAT_TRACK` (R285). -/
  | beatTrack
deriving DecidableEq, Repr

end Sys2Proof
end

