-- ==== Sys2Proof/WellFormed.lean ====
section
/-! DEFINITION. Which commands have an encoding: the operand `dt` of `AGC_TICK` and `LIMIT` is a 16-bit
unsigned immediate (R100, R101, R106: "one decimal operand `dt` (0..65535)"). -/

namespace Sys2Proof

/-- The one check of R101 and R106: a time operand fits the 16-bit `IMM` field. -/
def fitsImm (dt : Nat) : Bool := decide (dt < 65536)

/-- A command that the encoding of R102 can express. -/
def WellFormed (i : Instr) : Bool :=
  match i with
  | .nop => true
  | .cycleBegin => true
  | .reset => true
  | .condRepair => true
  | .condNorm => true
  | .condBpf => true
  | .condMax => true
  | .envSample => true
  | .agcTick dt => fitsImm dt
  | .limit dt => fitsImm dt
  | .fftRun => true
  | .agg16 => true
  | .scale16 => true
  | .binner8 => true
  | .binner16 => true
  | .binner32 => true
  | .binner64 => true
  | .binner128 => true
  | .peakDetect => true
  | .peakReset => true
  | .beatTrack => true

end Sys2Proof
end

