-- ==== Sys2Proof/Decode.lean ====
section
/-! DEFINITION. The command word (R100 to R105): a total decoder that rejects by name, and after it the
encoder, both written from the opcode map of R102. -/

namespace Sys2Proof

/-- `OP`, bits 31:24 (R100). -/
def opField (w : Word) : BitVec 8 := w.extractLsb' 24 8

/-- `ARG`, bits 23:16 (R100). -/
def argField (w : Word) : BitVec 8 := w.extractLsb' 16 8

/-- `IMM`, bits 15:0 (R100). -/
def immField (w : Word) : BitVec 16 := w.extractLsb' 0 16

/-- Why a word is illegal (R104).  R301: the cause is not recorded anywhere; it only names the rejection. -/
inductive Illegal where
  /-- `w[31:24]` is an opcode that R102 does not assign. -/
  | unassignedOpcode (op : BitVec 8)
  /-- `ARG` must be zero and is not. -/
  | nonzeroArg (arg : BitVec 8)
  /-- `IMM` must be zero and is not. -/
  | nonzeroImm (imm : BitVec 16)
  /-- `BINNER`'s `ARG` is outside 3..7. -/
  | binnerArg (arg : BitVec 8)
  /-- A command is one 32-bit word; the bytes given are not four. -/
  | notOneWord (bytes : Nat)
deriving DecidableEq, Repr

/-- A row whose `ARG` and `IMM` are both 0 (R102, R104). -/
def decodePlain (w : Word) (i : Instr) : Except Illegal Instr :=
  if argField w ≠ 0#8 then .error (.nonzeroArg (argField w))
  else if immField w ≠ 0#16 then .error (.nonzeroImm (immField w))
  else .ok i

/-- A row whose `ARG` is 0 and whose `IMM` is the operand `dt` (R101, R102). -/
def decodeTimed (w : Word) (i : Nat → Instr) : Except Illegal Instr :=
  if argField w ≠ 0#8 then .error (.nonzeroArg (argField w))
  else .ok (i (immField w).toNat)

/-- `BINNER`: `ARG` = e in 3..7 selects K = 2^e, `IMM` is 0 (R101, R102). -/
def decodeBinner (w : Word) : Except Illegal Instr :=
  if immField w ≠ 0#16 then .error (.nonzeroImm (immField w))
  else match (argField w).toNat with
    | 3 => .ok .binner8
    | 4 => .ok .binner16
    | 5 => .ok .binner32
    | 6 => .ok .binner64
    | 7 => .ok .binner128
    | _ => .error (.binnerArg (argField w))

/-- The command a word selects, or the name of what makes it illegal (R102, R104). -/
def decode (w : Word) : Except Illegal Instr :=
  match (opField w).toNat with
  | 0x00 => decodePlain w .nop
  | 0x01 => decodePlain w .cycleBegin
  | 0x0F => decodePlain w .reset
  | 0x10 => decodePlain w .condRepair
  | 0x11 => decodePlain w .condNorm
  | 0x12 => decodePlain w .condBpf
  | 0x13 => decodePlain w .condMax
  | 0x20 => decodePlain w .envSample
  | 0x21 => decodeTimed w .agcTick
  | 0x22 => decodeTimed w .limit
  | 0x30 => decodePlain w .fftRun
  | 0x40 => decodePlain w .agg16
  | 0x41 => decodePlain w .scale16
  | 0x42 => decodeBinner w
  | 0x50 => decodePlain w .peakDetect
  | 0x51 => decodePlain w .peakReset
  | 0x52 => decodePlain w .beatTrack
  | _ => .error (.unassignedOpcode (opField w))

/-- The opcode of a command (R102). -/
def opcodeOf (i : Instr) : BitVec 8 :=
  match i with
  | .nop => 0x00#8
  | .cycleBegin => 0x01#8
  | .reset => 0x0F#8
  | .condRepair => 0x10#8
  | .condNorm => 0x11#8
  | .condBpf => 0x12#8
  | .condMax => 0x13#8
  | .envSample => 0x20#8
  | .agcTick _ => 0x21#8
  | .limit _ => 0x22#8
  | .fftRun => 0x30#8
  | .agg16 => 0x40#8
  | .scale16 => 0x41#8
  | .binner8 => 0x42#8
  | .binner16 => 0x42#8
  | .binner32 => 0x42#8
  | .binner64 => 0x42#8
  | .binner128 => 0x42#8
  | .peakDetect => 0x50#8
  | .peakReset => 0x51#8
  | .beatTrack => 0x52#8

/-- The `ARG` field of a command (R102, R103): `log2 K` for `BINNER K`, else 0. -/
def argOf (i : Instr) : BitVec 8 :=
  match i with
  | .nop => 0#8
  | .cycleBegin => 0#8
  | .reset => 0#8
  | .condRepair => 0#8
  | .condNorm => 0#8
  | .condBpf => 0#8
  | .condMax => 0#8
  | .envSample => 0#8
  | .agcTick _ => 0#8
  | .limit _ => 0#8
  | .fftRun => 0#8
  | .agg16 => 0#8
  | .scale16 => 0#8
  | .binner8 => 3#8
  | .binner16 => 4#8
  | .binner32 => 5#8
  | .binner64 => 6#8
  | .binner128 => 7#8
  | .peakDetect => 0#8
  | .peakReset => 0#8
  | .beatTrack => 0#8

/-- The `IMM` field of a command (R101, R102): `dt` for `AGC_TICK` and `LIMIT`, else 0. -/
def immOf (i : Instr) : BitVec 16 :=
  match i with
  | .nop => 0#16
  | .cycleBegin => 0#16
  | .reset => 0#16
  | .condRepair => 0#16
  | .condNorm => 0#16
  | .condBpf => 0#16
  | .condMax => 0#16
  | .envSample => 0#16
  | .agcTick dt => BitVec.ofNat 16 dt
  | .limit dt => BitVec.ofNat 16 dt
  | .fftRun => 0#16
  | .agg16 => 0#16
  | .scale16 => 0#16
  | .binner8 => 0#16
  | .binner16 => 0#16
  | .binner32 => 0#16
  | .binner64 => 0#16
  | .binner128 => 0#16
  | .peakDetect => 0#16
  | .peakReset => 0#16
  | .beatTrack => 0#16

/-- The command word `OP, ARG, IMM` from the most significant field down (R100). -/
def encode (i : Instr) : Word := (opcodeOf i ++ argOf i) ++ immOf i

/-- A word as four bytes, lowest address first: byte k holds bits 8k+7 : 8k (R75). -/
def wordBytes (w : Word) : List Byte :=
  [w.extractLsb' 0 8, w.extractLsb' 8 8, w.extractLsb' 16 8, w.extractLsb' 24 8]

/-- The decoder over bytes as the register space stores them (R75): exactly one 32-bit word, little-endian;
any other number of bytes is rejected by name (R100: "There is no other length"). -/
def decodeBytes (bs : List Byte) : Except Illegal Instr :=
  match bs with
  | [b0, b1, b2, b3] => decode ((b3 ++ b2) ++ (b1 ++ b0))
  | _ => .error (.notOneWord bs.length)

/-- The command that the decoder reads from an instruction whose low `nbits` bits are `w`, the bits above
them 0, numbered as `spec/opcode_table.json` numbers them; `none` where the decoder rejects it. -/
def decodeTableWord (nbits w : Nat) : Option Instr :=
  match decodeBytes (wordBytes (BitVec.ofNat 32 (w % 2 ^ nbits))) with
  | .ok i => some i
  | .error _ => none

end Sys2Proof
end

