-- ==== Sys2Proof/Config.lean ====
section
/-! DEFINITION. What is fixed for the life of one AFE and is not state (R58): the parameters of R9, R10 and
R12 that no source gives a value for, and the configuration functions of R20.  `Config.params` is opaque: it
has no body, so nothing can be proved of a parameter but what a statement assumes.  The constants that R8 and
R9 do give stand in `Sys2Proof.Machine.Consts`. -/

namespace Sys2Proof

/-- One AGC preset: the 12 roles of R12 (conflict C3 keeps 12 against the source's count of 11). -/
structure Preset where
  /-- Peak-tracker decay factor. -/
  decay : F32
  zoneLow : F32
  zoneHigh : F32
  zoneStop : F32
  /-- Low set-point. -/
  target0 : F32
  /-- High set-point. -/
  target1 : F32
  /-- The switching threshold between the two set-points. -/
  targetSwitch : F32
  followFast : F32
  followSlow : F32
  kp : F32
  ki : F32
  /-- Exponential smoothing factor of the smoothed AGC sample. -/
  smooth : F32
deriving DecidableEq, Repr, Inhabited

/-- One band of `EDGES_BPF` or `EDGES_NOBPF`: an inclusive range of bins (R10, R241). -/
structure Band where
  lo : Nat
  hi : Nat
deriving DecidableEq, Repr, Inhabited

/-- The parameters of one AFE (R9, R10, R12) and its configuration functions (R20).  A table indexed by a
natural number is read only at the indices its docstring names. -/
structure Params where
  /-- Raw sample layout (R9, R148): the lowest bit of the channel tag. -/
  tagLo : Nat
  /-- Width of the channel tag (R148). -/
  tagBits : Nat
  /-- Lowest bit of the data field (R148). -/
  dataLo : Nat
  /-- Width of the data field (R148). -/
  dataBits : Nat
  /-- `FS`, the sample rate in Hz (R9). -/
  fs : F32
  /-- `REPAIR_SCALE` (R10). -/
  repairScale : F32
  /-- `BPF_B0` (R10). -/
  bpfB0 : F32
  /-- `BPF_B1` (R10). -/
  bpfB1 : F32
  /-- `BPF_B2` (R10). -/
  bpfB2 : F32
  /-- `OUTLIER_LIMIT` (R10). -/
  outlierLimit : F32
  /-- `DC_FAST_DIV` (R10). -/
  dcFastDiv : F32
  /-- `AGC_SIL_ENV` (R10). -/
  agcSilEnv : F32
  /-- `AGC_SIL_PEAK` (R10). -/
  agcSilPeak : F32
  /-- `PRESET[normal]` (R10, R12). -/
  presetNormal : Preset
  /-- `PRESET[vivid]` (R10, R12). -/
  presetVivid : Preset
  /-- `PRESET[lazy]` (R10, R12). -/
  presetLazy : Preset
  /-- `LIM_BIG_CHANGE` (R10). -/
  limBigChange : F32
  /-- `FFT_GATE` (R10). -/
  fftGate : F32
  /-- `WINDOW[n]`, n in 0..511 (R10, R226). -/
  window : Nat → F32
  /-- `FFT_FN` (R20, R223): the real and imaginary part of X[k], k in 0..511, of a block of 512 samples. -/
  fftFn : Arr F32 512 → Nat → F32 × F32
  /-- `FFT_DOWNSCALE` (R10). -/
  fftDownscale : F32
  /-- `SKIP_MAG` (R10). -/
  skipMag : F32
  /-- `AGG_GATE` (R10). -/
  aggGate : F32
  /-- `CH_SNAP` (R10). -/
  chSnap : F32
  /-- `EDGES_BPF[c]`, c in 0..15 (R10, R11, R241). -/
  edgesBpf : Nat → Band
  /-- `EDGES_NOBPF[c]`, c in 0..15 (R10, R11, R241). -/
  edgesNobpf : Nat → Band
  /-- `BAND15_DAMP` (R10). -/
  band15Damp : F32
  /-- `PINK[c]`, c in 0..15 (R10). -/
  pink : Nat → F32
  /-- `WINDOW_COMP` (R10). -/
  windowComp : F32
  /-- `MODE0_OFFSET` (R10). -/
  mode0Offset : F32
  /-- `POSTGAIN(L)`, L in 0..255 (R10, R20, R252). -/
  postGain : Nat → F32
  /-- `BEAT_RATIO` (R10). -/
  beatRatio : F32
  /-- `BEAT_EST_FRAC` (R10). -/
  beatEstFrac : F32
  /-- `CYCLE_PERIOD_MS` (R10, R318): read by the host only. -/
  cyclePeriodMs : Nat
  /-- `LN_FN` (R18, R20), applied only to values above 1. -/
  lnFn : F32 → F32
  /-- FREE VALUE of the model, no parameter of the spec: which of the bins 1..255 (as an offset from bin 1)
  `FFT_RUN` takes as dominant when every one of their magnitudes is a NaN, so that no bin equals their
  maximum (R220, R222; log entry 8).  It is read at the counter `State.io.freeCount`. -/
  freeBin : Nat → Fin 255
deriving Inhabited

/-- The parameters of THIS AFE.  Opaque, without a body: R10, "a claim may assume only what is stated here of
it" (log entry 1). -/
opaque Config.params : Params

/-- FREE VALUE of the model: the finite value, as a sign and magnitude bits below those of an infinity, that a command
leaves in the f32 register at a bus address where R17's operations on finite inputs compute a non-finite one.  R24 and
R305 make it finite and no rule says which (log entry 22).  It is read at the inputs of the computation. -/
opaque Config.finiteValue : List F32 → Nat → Bool × Fin 0x7F800000

end Sys2Proof
end

