-- ==== Sys2Proof/Machine/Block.lean ====
section
/-! DEFINITION. Operations over fixed-size arrays, element by element in index order (R15, R121): reading an
element, building an array from its indices, mapping, and running a loop that carries state from one element
to the next. -/

namespace Sys2Proof

/-- Element `i`; the default value where there is no such element (no rule reads one). -/
def Arr.nth {α : Type} [Inhabited α] {n : Nat} (v : Arr α n) (i : Nat) : α := v.elems.getD i default

/-- The array whose element `i` is `f i`. -/
def Arr.tab {α : Type} (n : Nat) (f : Nat → α) : Arr α n := ⟨(List.range n).map f, by simp⟩

/-- Every element through `f`. -/
def Arr.map {α β : Type} {n : Nat} (f : α → β) (v : Arr α n) : Arr β n :=
  ⟨v.elems.map f, by simp [v.size]⟩

/-- Elements `lo` to `hi` inclusive, in index order. -/
def Arr.slice {α : Type} {n : Nat} (v : Arr α n) (lo hi : Nat) : List α :=
  (v.elems.drop lo).take (hi + 1 - lo)

/-- A loop over a list: `f` turns the carried state and one element into that element's output and the state
for the next.  Answers the outputs in order and the last state. -/
def scan {σ α β : Type} (f : σ → α → β × σ) : σ → List α → List β × σ
  | s, [] => ([], s)
  | s, a :: as => ((f s a).1 :: (scan f (f s a).2 as).1, (scan f (f s a).2 as).2)

/-- A loop has one output per element. -/
theorem scan_length {σ α β : Type} (f : σ → α → β × σ) (s : σ) (as : List α) :
    (scan f s as).1.length = as.length := by
  induction as generalizing s with
  | nil => rfl
  | cons a as ih => simp [scan, ih]

/-- The same loop over an array, in index order: the array of outputs. -/
def Arr.scanOut {σ α β : Type} {n : Nat} (f : σ → α → β × σ) (s : σ) (v : Arr α n) : Arr β n :=
  ⟨(scan f s v.elems).1, by rw [scan_length, v.size]⟩

/-- The same loop over an array: the state after the last element. -/
def Arr.scanEnd {σ α β : Type} {n : Nat} (f : σ → α → β × σ) (s : σ) (v : Arr α n) : σ :=
  (scan f s v.elems).2

/-- Every element through `f`, which also gets the element's index. -/
def Arr.mapIdx {α β : Type} {n : Nat} (f : Nat → α → β) (v : Arr α n) : Arr β n :=
  v.scanOut (fun i a => (f i a, i + 1)) 0

end Sys2Proof
end

