-- ==== Sys2Proof/Machine/Float.lean ====
section
/-! DEFINITION. IEEE 754 binary32 arithmetic (R17, R18, R24): round to nearest, ties to even, every operation
rounded separately, subnormals kept, no flags.

A finite value is an integer number of units of 2^-149, the least subnormal.  Every operation is done exactly
on these integers and narrowed once, by `roundMag`.  A result beyond the greatest finite value is an infinity, inside
every command; what a command may leave in a register is `settle`'s matter, not that of an operation. -/

namespace Sys2Proof

/-- The greatest `n` below `2 ^ bits` that `ok` accepts, for an `ok` that accepts every number up to some
bound: one candidate bit after another, the most significant first.  `acc` holds the bits found so far. -/
def bitSearch (ok : Nat → Bool) : Nat → Nat → Nat
  | 0, acc => acc
  | b + 1, acc => bitSearch ok b (if ok (acc + 2 ^ b) then acc + 2 ^ b else acc)

/-- The one NaN that an operation produces (R24). -/
def F32.qNaN : F32 := ⟨0x7FC00000#32⟩

/-- +0.0. -/
def F32.zero : F32 := ⟨0x00000000#32⟩

/-- 1.0. -/
def F32.one : F32 := ⟨0x3F800000#32⟩

/-- The bits below the sign, as a number: they order the magnitudes. -/
def F32.magBits (x : F32) : Nat := x.bits.toNat % 2 ^ 31

/-- The sign bit. -/
def F32.sign (x : F32) : Bool := x.bits.msb

def F32.isNaN (x : F32) : Bool := decide (0x7F800000 < x.magBits)

def F32.isInf (x : F32) : Bool := x.magBits == 0x7F800000

def F32.isZero (x : F32) : Bool := x.magBits == 0

def F32.isFinite (x : F32) : Bool := decide (x.magBits < 0x7F800000)

/-- The magnitude of a finite value in units of 2^-149. -/
def F32.scaled (x : F32) : Nat :=
  let e := x.magBits / 2 ^ 23
  let f := x.magBits % 2 ^ 23
  if e = 0 then f else (2 ^ 23 + f) * 2 ^ (e - 1)

/-- A finite value, exactly, in units of 2^-149. -/
def F32.value (x : F32) : Int := if x.sign then -(x.scaled : Int) else (x.scaled : Int)

/-- The value of that sign whose magnitude bits are `m`. -/
def F32.ofMag (neg : Bool) (m : Nat) : F32 := ⟨BitVec.ofNat 32 (if neg then m + 2 ^ 31 else m)⟩

/-- `n / u` rounded to an integer, to nearest, ties to even. -/
def roundHalfEven (n u : Nat) : Nat :=
  if u < 2 * (n % u) || (2 * (n % u) == u && (n / u) % 2 == 1) then n / u + 1 else n / u

/-- The magnitude bits of the binary32 value nearest to `n / d` units of 2^-149, ties to even; those of an infinity
where the magnitude rounds beyond the greatest finite value, as IEEE 754 has it (R17).  With a significand of 24 bits
the spacing is `2 ^ k` units, and `k * 2^23` plus the rounded significand are the magnitude bits, whether the
value is subnormal (`k = 0`) or not, and also when rounding carries into the next binade. -/
def roundMag (n d : Nat) : Nat :=
  let k := (n / d).log2 - 23
  min (k * 2 ^ 23 + roundHalfEven n (d * 2 ^ k)) 0x7F800000

/-- The binary32 value nearest to the natural number `n` (R17: exact below 2^24). -/
def F32.ofNat (n : Nat) : F32 := F32.ofMag false (roundMag (n * 2 ^ 149) 1)

/-- The binary32 value nearest to the integer `z` (R148, exact for the 24-bit fields of a sample). -/
def F32.ofInt (z : Int) : F32 := F32.ofMag (decide (z < 0)) (roundMag (z.natAbs * 2 ^ 149) 1)

/-- The binary32 value nearest to `n / d`: a decimal literal of a rule (R17). -/
def F32.ofRatio (n d : Nat) : F32 := F32.ofMag false (roundMag (n * 2 ^ 149) d)

/-- `-x`: the sign bit flipped. -/
def F32.neg (x : F32) : F32 := ⟨x.bits ^^^ 0x80000000#32⟩

/-- `fabs(v)` "clears the sign" (R18); of a NaN it is a NaN (R24). -/
def F32.fabs (x : F32) : F32 := ⟨x.bits &&& 0x7FFFFFFF#32⟩

/-- The sign of a product or quotient. -/
def F32.signXor (a b : F32) : Bool := a.sign != b.sign

/-- `a + b` (R17).  An exact sum of zero is +0.0 unless both operands are negative (then both are -0.0). -/
def F32.add (a b : F32) : F32 :=
  if a.isNaN || b.isNaN then F32.qNaN
  else if a.isInf then (if b.isInf && F32.signXor a b then F32.qNaN else a)
  else if b.isInf then b
  else if a.value + b.value = 0 then F32.ofMag (a.sign && b.sign) 0
  else F32.ofMag (decide (a.value + b.value < 0)) (roundMag (a.value + b.value).natAbs 1)

/-- `a - b` (R17). -/
def F32.sub (a b : F32) : F32 := F32.add a b.neg

/-- `a × b` (R17). -/
def F32.mul (a b : F32) : F32 :=
  if a.isNaN || b.isNaN then F32.qNaN
  else if a.isInf || b.isInf then
    (if a.isZero || b.isZero then F32.qNaN else F32.ofMag (F32.signXor a b) 0x7F800000)
  else F32.ofMag (F32.signXor a b) (roundMag (a.scaled * b.scaled) (2 ^ 149))

/-- `a / b` (R17). -/
def F32.div (a b : F32) : F32 :=
  if a.isNaN || b.isNaN then F32.qNaN
  else if a.isInf then (if b.isInf then F32.qNaN else F32.ofMag (F32.signXor a b) 0x7F800000)
  else if b.isInf then F32.ofMag (F32.signXor a b) 0
  else if b.isZero then
    (if a.isZero then F32.qNaN else F32.ofMag (F32.signXor a b) 0x7F800000)
  else F32.ofMag (F32.signXor a b) (roundMag (a.scaled * 2 ^ 149) b.scaled)

/-- The magnitude bits of the correctly rounded square root of a positive finite value of `n` units of 2^-149
(R18).  The root, in the same units, is the root of `n * 2^149`; its spacing is `2 ^ k` units. -/
def sqrtMag (n : Nat) : Nat :=
  let r := n * 2 ^ 149
  let k := r.log2 / 2 - 23
  let q := bitSearch (fun c => decide ((c * 2 ^ k) ^ 2 ≤ r)) 24 0
  let half := ((2 * q + 1) * 2 ^ k) ^ 2
  k * 2 ^ 23 + (if half < 4 * r || (half == 4 * r && q % 2 == 1) then q + 1 else q)

/-- `sqrt(v)`, correctly rounded (R18). -/
def F32.sqrt (x : F32) : F32 :=
  if x.isNaN then F32.qNaN
  else if x.isZero then x
  else if x.sign then F32.qNaN
  else if x.isInf then x
  else F32.ofMag false (sqrtMag x.scaled)

/-- The position of a value that is no NaN in the order of binary32 values; both zeros are at 0. -/
def F32.ord (x : F32) : Int := if x.sign then -(x.magBits : Int) else (x.magBits : Int)

/-- `a < b`; false with a NaN operand (R24). -/
def F32.lt (a b : F32) : Bool := !a.isNaN && !b.isNaN && decide (a.ord < b.ord)

/-- `a ≤ b`; false with a NaN operand (R24). -/
def F32.le (a b : F32) : Bool := !a.isNaN && !b.isNaN && decide (a.ord ≤ b.ord)

/-- `a = b` as values (both zeros are equal); false with a NaN operand (R24). -/
def F32.feq (a b : F32) : Bool := !a.isNaN && !b.isNaN && decide (a.ord = b.ord)

/-- `fmax` (R18, R24): the other operand when exactly one is a NaN; of two zeros +0.0 if either is +0.0. -/
def F32.fmax (a b : F32) : F32 :=
  if a.isNaN then (if b.isNaN then F32.qNaN else b)
  else if b.isNaN then a
  else if a.ord < b.ord then b
  else if b.ord < a.ord then a
  else if a.sign then b else a

/-- `fmin` (R18, R24): the other operand when exactly one is a NaN; of two zeros -0.0 if either is -0.0. -/
def F32.fmin (a b : F32) : F32 :=
  if a.isNaN then (if b.isNaN then F32.qNaN else b)
  else if b.isNaN then a
  else if a.ord < b.ord then a
  else if b.ord < a.ord then b
  else if a.sign then a else b

/-- `clamp(v, lo, hi) = fmin(fmax(v, lo), hi)` (R18). -/
def F32.clamp (v lo hi : F32) : F32 := F32.fmin (F32.fmax v lo) hi

/-- `trunc(v)` (R18): toward zero for a value in [0, 2^31); 0 for a NaN and for any other value (R24). -/
def F32.trunc (x : F32) : Nat :=
  if x.isFinite && !x.sign && decide (x.scaled < 2 ^ 31 * 2 ^ 149) then x.scaled / 2 ^ 149 else 0

/-- `mapf(v, a, b, c, d) = (v − a) × (d − c) / (b − a) + c`, in that order, with no clamping (R18). -/
def F32.mapf (v a b c d : F32) : F32 :=
  ((((v.sub a).mul (d.sub c)).div (b.sub a)).add c)

end Sys2Proof
end

