-- ==== Sys2Proof/Machine/Consts.lean ====
section
/-! DEFINITION. The fixed sizes and numeric constants of R8 and R9, and the decimal literals of the rules, each
the binary32 value nearest to what the rule writes (R17). -/

namespace Sys2Proof.Const

/-- `N`, samples per block and FFT length (R8). -/
def blockLen : Nat := 512

/-- `NBINS`, usable magnitude bins (R8). -/
def numBins : Nat := 256

/-- `BAD_RUN_LIMIT` (R8, R152). -/
def badRunLimit : Word := 256#32

/-- `AGC_MIN_PERIOD_MS` (R8, R192). -/
def agcMinPeriodMs : Nat := 2

/-- `LIM_DT_MIN` (R8, R206). -/
def limDtMin : Nat := 1

/-- `LIM_DT_MAX` (R8, R206). -/
def limDtMax : Nat := 1000

/-- `PEAK_MIN_GAP_MS` (R8, R280). -/
def peakMinGapMs : Nat := 100

/-- `PEAK_SHOW_MIN_MS` (R8, R282). -/
def peakShowMinMs : Nat := 50

/-- `BEAT_WIN_LO_MS` (R8, R288; conflict C5). -/
def beatWinLoMs : Nat := 426

/-- `BEAT_WIN_HI_MS` (R8, R288). -/
def beatWinHiMs : Nat := 600

/-- `CATCHUP_STEP_MS` (R8, R108). -/
def catchupStepMs : Nat := 2

/-- `CATCHUP_CAP_MS` (R8, R108). -/
def catchupCapMs : Nat := 200

def f0 : F32 := F32.zero
def f1 : F32 := F32.one
def f3 : F32 := F32.ofNat 3
def f4 : F32 := F32.ofNat 4
def f6 : F32 := F32.ofNat 6
def f8 : F32 := F32.ofNat 8
def f15 : F32 := F32.ofNat 15
def f16 : F32 := F32.ofNat 16
def f18 : F32 := F32.ofNat 18
def f40 : F32 := F32.ofNat 40
def f128 : F32 := F32.ofNat 128
def f255 : F32 := F32.ofNat 255
def f512 : F32 := F32.ofNat 512
def f1023 : F32 := F32.ofNat 1023
def f60000 : F32 := F32.ofNat 60000

/-- `BPF_ALPHA` = 0.0225 (R8, R160). -/
def bpfAlpha : F32 := F32.ofRatio 225 10000

/-- `DC_TAU` = 12288 (R8, R181). -/
def dcTau : F32 := F32.ofNat 12288

/-- `ENV_WEIGHT` = 0.2 (R8, R180). -/
def envWeight : F32 := F32.ofRatio 2 10

/-- The weight 0.8 of the old envelope (R180). -/
def envKeep : F32 := F32.ofRatio 8 10

/-- `SQUELCH_EPS` = 0.25 (R8, R182). -/
def squelchEps : F32 := F32.ofRatio 25 100

/-- The gain floor 1/16 = 0.0625 (R9, R180, R239). -/
def gainFloor : F32 := F32.ofRatio 625 10000

/-- `PEAK_RISE` and its rise floor, both 0.5 (R8, R183). -/
def half : F32 := F32.ofRatio 5 10

/-- `AGC_BLEED` = 0.91 (R8, R193). -/
def agcBleed : F32 := F32.ofRatio 91 100

/-- `AGC_SNAP` = 0.01 (R8, R193). -/
def agcSnap : F32 := F32.ofRatio 1 100

/-- The factor 0.002 of `AGC_INT_GAIN` (R8, R194). -/
def agcInt1 : F32 := F32.ofRatio 2 1000

/-- The factor 0.25 of `AGC_INT_GAIN` (R8, R194). -/
def agcInt2 : F32 := F32.ofRatio 25 100

/-- `AGC_ANTIWINDUP` = 0.9 (R8, R194). -/
def agcAntiWindup : F32 := F32.ofRatio 9 10

/-- `MULT_MIN` = 1/64 = 0.015625 (R8). -/
def multMin : F32 := F32.ofRatio 1 64

/-- `MULT_MAX` = 32 (R8). -/
def multMax : F32 := F32.ofNat 32

/-- `CH_DECAY` = 0.85 (R8, R243); also the base 0.85 of the scaling curves (R250). -/
def chDecay : F32 := F32.ofRatio 85 100

/-- `RISE_W` = 0.75 (R8, R247). -/
def riseW : F32 := F32.ofRatio 75 100

/-- The fall weight below 1000 ms (R8, R247). -/
def fall1 : F32 := F32.ofRatio 22 100

/-- The fall weight below 2000 ms (R8, R247). -/
def fall2 : F32 := F32.ofRatio 17 100

/-- The fall weight below 3000 ms (R8, R247). -/
def fall3 : F32 := F32.ofRatio 14 100

/-- The fall weight from 3000 ms on (R8, R247). -/
def fall4 : F32 := F32.ofRatio 1 10

/-- Mode 1 slope 0.42 (R8, R250). -/
def mode1Slope : F32 := F32.ofRatio 42 100

/-- Mode 2 slope 0.30 (R8, R250). -/
def mode2Slope : F32 := F32.ofRatio 30 100

/-- Mode 3 slope 0.38 (R8, R250). -/
def mode3Slope : F32 := F32.ofRatio 38 100

/-- Mode 2 curve divisor 1.8 (R8, R250). -/
def mode2Div : F32 := F32.ofRatio 18 10

/-- Mode 3 curve divisor 4.5 (R8, R250). -/
def mode3Div : F32 := F32.ofRatio 45 10

/-- `LOG_HI`, the binary32 value of ln 255 that R250 states, 0x40B15208 (R9, R250, D27). -/
def logHi : F32 := ⟨0x40B15208#32⟩

/-- `BEAT_AVG_W` = 0.01 (R8, R286). -/
def beatAvgW : F32 := F32.ofRatio 1 100

/-- `BEAT_MEAN_W` = 0.1 (R8, R288). -/
def beatMeanW : F32 := F32.ofRatio 1 10

end Sys2Proof.Const
end

