-- ==== Sys2Proof/Machine/State.lean ====
section
/-! DEFINITION. The machine's state as plain data: every register and array of `spec/10_state.md` (R40 to R57),
grouped as the spec groups them, and three fields of the MODEL's own (`Io`).  The reset values of R330, R331. -/

namespace Sys2Proof.Machine

/-- One bus access of the host (R16, R70), or power-on.  `bytes` is the width of the access. -/
inductive HostOp where
  /-- `MemRead(addr, bytes)`. -/
  | read (addr : Addr) (bytes : Nat)
  /-- `MemWrite(addr, bytes, value)`. -/
  | write (addr : Addr) (bytes : Nat) (value : Word)
  /-- Power-on reset (R330). -/
  | powerOn
deriving DecidableEq, Repr

/-- How the machine stops: a bus error of the HOST (R77, R308), which the AFE does not perform and does not
record.  No command faults (R121). -/
inductive Fault where
  /-- Raised by a host access at an address that is not a multiple of 4 (R77).  Safe: the spec says that a
  model treats such an access as a host fault. -/
  | misaligned (addr : Addr)
  /-- Raised by a host access of a width other than 32 bits (R77).  Safe, as `misaligned`. -/
  | badWidth (bytes : Nat)
deriving DecidableEq, Repr

/-- How the machine refuses. -/
inductive Refusal where
  /-- Raised by an arm of `exec` for an instruction that has no meaning yet.  Safe.  No arm raises it: every
  command of the opcode table has its meaning. -/
  | notModelled (mnemonic : String)
deriving DecidableEq, Repr

/-- `STATUS`, `PHASE`, `NOW_MS`, `BLOCK_COUNT`, `CHAN_SEL` (R41 to R45).  `CMD` has no storage (R40). -/
structure Control where
  /-- `STATUS` bits 7:0; bits 31:8 have no storage, read 0 and ignore writes (R41). -/
  status : BitVec 8
  /-- `PHASE` bits 3:0; bits 31:4 read 0 (R42). -/
  phase : BitVec 4
  /-- `NOW_MS` (R43). -/
  nowMs : Word
  /-- `BLOCK_COUNT` (R44). -/
  blockCount : Word
  /-- `CHAN_SEL.ID`, bits 7:0 (R45). -/
  chanId : BitVec 8
  /-- `CHAN_SEL.KNOWN`, bit 8 (R45). -/
  chanKnown : Bool
deriving DecidableEq, Repr

/-- The configuration registers of R46, each at the width of its field. -/
structure ConfigRegs where
  squelch : BitVec 8
  inputLevel : BitVec 8
  sampleGain : BitVec 8
  agcMode : BitVec 2
  limiterEn : BitVec 1
  attackMs : BitVec 16
  decayMs : BitVec 16
  scaleMode : BitVec 2
  bpfEn : BitVec 1
  syncEn : BitVec 1
  peakThresh : BitVec 16
  peakBin : BitVec 16
  peakShowMs : BitVec 16
  mrbStart : BitVec 8
  mrbEnd : BitVec 8
deriving DecidableEq, Repr

/-- VolumeOutputs (R48). -/
structure VolumeOutputs where
  volumeSmoothed : F32
  /-- Bits 7:0 of a u32 register. -/
  volumeRaw : BitVec 8
  magnitudeScaled : F32
  peakFrequency : F32
  fftMagnitude : F32
deriving DecidableEq, Repr

/-- EnvelopeState (R49). -/
structure EnvelopeState where
  envRaw : F32
  dcLevel : F32
  envSmooth : F32
  sampleMax : F32
  sampleRaw : F32
  sampleAvg : F32
  maxSample : F32
deriving DecidableEq, Repr

/-- AGCState and the AGC outputs (R50). -/
structure AgcState where
  mult : F32
  intErr : F32
  /-- Bits 1:0 of a u32 register. -/
  lastPreset : BitVec 2
  agcSample : F32
  agcSmooth : F32
  agcElapsed : Word
  volTarget : F32
deriving DecidableEq, Repr

/-- PeakState (R51): `PEAK_FLAGS` bits 0 and 1, and `LAST_PEAK_MS`. -/
structure PeakState where
  peakActive : Bool
  extPeak : Bool
  lastPeakMs : Word
deriving DecidableEq, Repr

/-- BeatState (R52). -/
structure BeatState where
  beatAvg : F32
  lastBeatMs : Word
  intervalEst : F32
  meanInterval : F32
  bpm : F32
  thresholdAvg : F32
  animDurationMs : Word
  /-- Bit 0 of a u32 register. -/
  beatValid : Bool
deriving DecidableEq, Repr

/-- Conditioner and filter state (R53). -/
structure ConditionerState where
  lastGood : F32
  badRun : Word
  lpfPrev : F32
  firH1 : F32
  firH2 : F32
  iirLp : F32
deriving DecidableEq, Repr

/-- ChannelArray(16) (R54). -/
structure ChannelArray where
  fftCalc : Arr F32 16
  fftAvg : Arr F32 16
  fftResult : Arr Byte 16
deriving DecidableEq, Repr

/-- MultiResolutionBins (R55). -/
structure MultiResBins where
  mrb8 : Arr Byte 8
  mrb16 : Arr Byte 16
  mrb32 : Arr Byte 32
  mrb64 : Arr Byte 64
  mrb128 : Arr Byte 128
deriving DecidableEq, Repr

/-- SpectrumBuffers (R57). -/
structure SpectrumBuffers where
  vreal : Arr F32 512
  vimag : Arr F32 512
deriving DecidableEq, Repr

/-- The addressable storage that the host writes freely, `RAW_IN` at 0x1000 to 0x17FF (R56), as (address,
byte) pairs in one canonical form (`Memory.wf`): addresses strictly rising, no entry 0.  An unlisted byte
reads 0, which is `RAW_IN`'s reset value (R56). -/
abbrev Memory := List Host.Cell

/-- The MODEL's own fields; the spec names none of them.  `bus` is what the host does: the accesses it has
yet to make, the next one first (R31, R40: commands arrive from outside; log entry 2).  `readData` is what
the host's last read returned (log entry 3).  `freeCount` counts the free values used (log entry 8). -/
structure Io where
  bus : List HostOp
  readData : Option Word
  freeCount : Nat
deriving DecidableEq, Repr

/-- The state of the AFE (R30), and beside it the model's own `io`. -/
structure State where
  ctl : Control
  cfg : ConfigRegs
  vol : VolumeOutputs
  env : EnvelopeState
  agc : AgcState
  peak : PeakState
  beat : BeatState
  cond : ConditionerState
  chan : ChannelArray
  mrb : MultiResBins
  mem : Memory
  spec : SpectrumBuffers
  io : Io
deriving DecidableEq, Repr

/-- An array with every element `a`. -/
def fill {α : Type} (n : Nat) (a : α) : Arr α n := ⟨List.replicate n a, List.length_replicate⟩

/-- 0.0. -/
def resetF0 : F32 := ⟨0x00000000#32⟩

/-- 1.0. -/
def resetF1 : F32 := ⟨0x3F800000#32⟩

/-- R41 to R45. -/
def Control.reset : Control :=
  { status := 0#8, phase := 0#4, nowMs := 0#32, blockCount := 0#32, chanId := 0#8, chanKnown := false }

/-- R46: every field 0, except `BPF_EN` = 1. -/
def ConfigRegs.reset : ConfigRegs :=
  { squelch := 0#8, inputLevel := 0#8, sampleGain := 0#8, agcMode := 0#2, limiterEn := 0#1,
    attackMs := 0#16, decayMs := 0#16, scaleMode := 0#2, bpfEn := 1#1, syncEn := 0#1,
    peakThresh := 0#16, peakBin := 0#16, peakShowMs := 0#16, mrbStart := 0#8, mrbEnd := 0#8 }

/-- R48: `PEAK_FREQUENCY` is 1.0, the rest 0. -/
def VolumeOutputs.reset : VolumeOutputs :=
  { volumeSmoothed := resetF0, volumeRaw := 0#8, magnitudeScaled := resetF0, peakFrequency := resetF1,
    fftMagnitude := resetF0 }

/-- R49. -/
def EnvelopeState.reset : EnvelopeState :=
  { envRaw := resetF0, dcLevel := resetF0, envSmooth := resetF0, sampleMax := resetF0,
    sampleRaw := resetF0, sampleAvg := resetF0, maxSample := resetF0 }

/-- R50: `MULT` is 1.0, the rest 0. -/
def AgcState.reset : AgcState :=
  { mult := resetF1, intErr := resetF0, lastPreset := 0#2, agcSample := resetF0, agcSmooth := resetF0,
    agcElapsed := 0#32, volTarget := resetF0 }

/-- R51. -/
def PeakState.reset : PeakState := { peakActive := false, extPeak := false, lastPeakMs := 0#32 }

/-- R52. -/
def BeatState.reset : BeatState :=
  { beatAvg := resetF0, lastBeatMs := 0#32, intervalEst := resetF0, meanInterval := resetF0,
    bpm := resetF0, thresholdAvg := resetF0, animDurationMs := 0#32, beatValid := false }

/-- R53. -/
def ConditionerState.reset : ConditionerState :=
  { lastGood := resetF0, badRun := 0#32, lpfPrev := resetF0, firH1 := resetF0, firH2 := resetF0,
    iirLp := resetF0 }

/-- R54. -/
def ChannelArray.reset : ChannelArray :=
  { fftCalc := fill 16 resetF0, fftAvg := fill 16 resetF0, fftResult := fill 16 0#8 }

/-- R55. -/
def MultiResBins.reset : MultiResBins :=
  { mrb8 := fill 8 0#8, mrb16 := fill 16 0#8, mrb32 := fill 32 0#8, mrb64 := fill 64 0#8,
    mrb128 := fill 128 0#8 }

/-- R57. -/
def SpectrumBuffers.reset : SpectrumBuffers := { vreal := fill 512 resetF0, vimag := fill 512 resetF0 }

/-- The model's own fields at reset: no access pending, nothing read, no free value used (log entries 2, 3
and 8). -/
def Io.reset : Io := { bus := [], readData := none, freeCount := 0 }

/-- The machine right after power-on reset (R330, R331). -/
def State.reset : State :=
  { ctl := Control.reset
    cfg := ConfigRegs.reset
    vol := VolumeOutputs.reset
    env := EnvelopeState.reset
    agc := AgcState.reset
    peak := PeakState.reset
    beat := BeatState.reset
    cond := ConditionerState.reset
    chan := ChannelArray.reset
    mrb := MultiResBins.reset
    mem := []
    spec := SpectrumBuffers.reset
    io := Io.reset }

end Sys2Proof.Machine
end

