-- ==== Sys2Proof/Machine/Flags.lean ====
section
/-! DEFINITION. The AFE's flags (R59): the bits of `STATUS` (R41, R307) and of `PEAK_FLAGS` (R51), how a command
sets and clears them, and how a host write clears the write-1-to-clear ones. -/

namespace Sys2Proof.Machine

/-- The bits of `STATUS` that exist (R41, R307). -/
inductive StatusBit where
  | abort
  | illegal
  | seqErr
  | shortRead
  | repairOff
  | gateFft
  | gateAgg
  | beatAccept
deriving DecidableEq, Repr

/-- The position of a bit in `STATUS` (R41). -/
def StatusBit.index (b : StatusBit) : Nat :=
  match b with
  | .abort => 0
  | .illegal => 1
  | .seqErr => 2
  | .shortRead => 3
  | .repairOff => 4
  | .gateFft => 5
  | .gateAgg => 6
  | .beatAccept => 7

/-- The word with only that bit set. -/
def StatusBit.mask (b : StatusBit) : BitVec 8 := BitVec.ofNat 8 (2 ^ b.index)

/-- The write-1-to-clear bits of `STATUS`: `ILLEGAL`, `SEQ_ERR`, `SHORT_READ`, `REPAIR_OFF` (R41). -/
def w1cMask : BitVec 8 := 0x1E#8

/-- Whether a `STATUS` bit is 1. -/
def State.flag (s : State) (b : StatusBit) : Bool := s.ctl.status.getLsbD b.index

/-- `STATUS` replaced. -/
def State.setStatus (s : State) (v : BitVec 8) : State := { s with ctl := { s.ctl with status := v } }

/-- `STATUS.<b> <- v`, the other bits unchanged. -/
def State.putFlag (s : State) (b : StatusBit) (v : Bool) : State :=
  s.setStatus (if v then s.ctl.status ||| b.mask else s.ctl.status &&& ~~~b.mask)

/-- `STATUS` after a host write of `v`: each write-1-to-clear bit whose written bit is 1 is cleared, nothing
else changes (R41). -/
def clearWritten (status : BitVec 8) (v : Word) : BitVec 8 :=
  status &&& ~~~(v.setWidth 8 &&& w1cMask)

/-- `STATUS` as the host reads it: bits 31:8 read 0 (R41). -/
def State.statusWord (s : State) : Word := s.ctl.status.setWidth 32

/-- `PEAK_FLAGS` as the host reads it: bit 0 `PEAK_ACTIVE`, bit 1 `EXT_PEAK`, the rest 0 (R51). -/
def State.peakFlagsWord (s : State) : Word :=
  BitVec.ofNat 32 ((if s.peak.peakActive then 1 else 0) + (if s.peak.extPeak then 2 else 0))

/-- `PEAK_FLAGS` after a host write of `v`: `EXT_PEAK` is cleared when bit 1 of `v` is 1; `PEAK_ACTIVE` is
read-only (R51, R73). -/
def PeakState.clearWritten (p : PeakState) (v : Word) : PeakState :=
  { p with extPeak := p.extPeak && !v.getLsbD 1 }

/-- `CHAN_SEL` as the host reads it: bits 7:0 `ID`, bit 8 `KNOWN`, bits 31:9 read 0 (R45). -/
def State.chanSelWord (s : State) : Word :=
  BitVec.ofNat 32 (s.ctl.chanId.toNat + (if s.ctl.chanKnown then 256 else 0))

end Sys2Proof.Machine
end

