-- ==== Sys2Proof/Machine/Ops.lean ====
section
/-! DEFINITION. The named operations over the addressable storage and the control registers: memory in its
canonical form; taking a condition (R300, the AFE's whole exception mechanism) and acknowledging it (R313); the
phase table (R134); and the execution of a legal command (R120). -/

namespace Sys2Proof.Machine

/-! ### Storage -/

/-- The first address of `RAW_IN` (R56). -/
def rawBase : Nat := 0x1000

/-- The byte at `a`; an unlisted byte reads 0 (`RAW_IN`'s reset value, R56). -/
def Memory.read (m : Memory) (a : Nat) : Byte :=
  match m with
  | [] => 0#8
  | (b, v) :: rest => if b = a then v else Memory.read rest a

/-- The byte at `a` replaced.  The list stays sorted, and a byte that becomes 0 is no longer listed. -/
def Memory.write (m : Memory) (a : Nat) (v : Byte) : Memory :=
  match m with
  | [] => if v = 0#8 then [] else [(a, v)]
  | (b, x) :: rest =>
    if a < b then (if v = 0#8 then (b, x) :: rest else (a, v) :: (b, x) :: rest)
    else if a = b then (if v = 0#8 then rest else (a, v) :: rest)
    else (b, x) :: Memory.write rest a v

/-- The 32-bit word at `a`, little-endian (R75). -/
def Memory.readWord (m : Memory) (a : Nat) : Word :=
  (Memory.read m (a + 3) ++ Memory.read m (a + 2)) ++ (Memory.read m (a + 1) ++ Memory.read m a)

/-- The 32-bit word at `a` replaced, little-endian (R75). -/
def Memory.writeWord (m : Memory) (a : Nat) (v : Word) : Memory :=
  Memory.write (Memory.write (Memory.write (Memory.write m a (v.extractLsb' 0 8))
    (a + 1) (v.extractLsb' 8 8)) (a + 2) (v.extractLsb' 16 8)) (a + 3) (v.extractLsb' 24 8)

/-- Every listed address is above `lo`, they rise strictly, and no listed byte is 0. -/
def Memory.sortedFrom (lo : Nat) (m : Memory) : Bool :=
  match m with
  | [] => true
  | (b, v) :: rest => decide (lo ≤ b) && v != 0#8 && Memory.sortedFrom (b + 1) rest

/-- The canonical form: addresses strictly rising, no entry equal to what an unlisted address reads as. -/
def Memory.wf (m : Memory) : Bool := Memory.sortedFrom 0 m

/-- Every listed address is one of `RAW_IN`'s (R56). -/
def Memory.inRawIn (m : Memory) : Bool := m.all fun c => decide (rawBase ≤ c.1 ∧ c.1 < rawBase + 2048)

/-- `RAW_IN[i]`, i in 0..511 (R56). -/
def State.rawIn (s : State) (i : Nat) : Word := Memory.readWord s.mem (rawBase + 4 * i)

/-- `RAW_IN[i] <- v`, i in 0..511. -/
def State.setRawIn (s : State) (i : Nat) (v : Word) : State :=
  { s with mem := Memory.writeWord s.mem (rawBase + 4 * i) v }

/-! ### Conditions -/

/-- The conditions that set a bit of `STATUS` (R301 to R304).  `DegenerateMath` and `ConfigurationMisuse`
raise nothing (R305, R306). -/
inductive Condition where
  /-- R301. -/
  | illegalCommand
  /-- R302. -/
  | sequenceError
  /-- R303. -/
  | transportShortRead
  /-- Persistent corruption, the second level of R304. -/
  | channelCorruption
deriving DecidableEq, Repr

/-- The `STATUS` bits of a condition (R301 to R304, R307). -/
def Condition.bits (c : Condition) : BitVec 8 :=
  match c with
  | .illegalCommand => StatusBit.illegal.mask
  | .sequenceError => StatusBit.seqErr.mask
  | .transportShortRead => StatusBit.shortRead.mask ||| StatusBit.abort.mask
  | .channelCorruption => StatusBit.repairOff.mask

/-- Taking a condition (R300, R312): its `STATUS` bits are set.  No state is saved, no vector is taken, no
mode changes, nothing else changes. -/
def State.raise (s : State) (c : Condition) : State := s.setStatus (s.ctl.status ||| c.bits)

/-- Ending a condition (R313): the host writes 1 to the `STATUS` bits it has seen. -/
def State.acknowledge (s : State) (v : Word) : State := s.setStatus (clearWritten s.ctl.status v)

/-! ### Phases -/

/-- `PHASE <- p`. -/
def State.setPhase (s : State) (p : BitVec 4) : State := { s with ctl := { s.ctl with phase := p } }

/-- `COND_REPAIR`'s short-read test `BLOCK_COUNT < N` (R150, R151). -/
def State.shortBlock (s : State) : Bool := decide (s.ctl.blockCount.toNat < 512)

/-- `phase_ok` of R134. -/
def phaseOk (i : Instr) (p : BitVec 4) : Bool :=
  match i with
  | .nop => true
  | .cycleBegin => true
  | .reset => true
  | .condRepair => p.toNat == 1
  | .condNorm => p.toNat == 2
  | .condBpf => p.toNat == 3
  | .condMax => p.toNat == 4
  | .envSample => decide (5 ≤ p.toNat)
  | .agcTick _ => decide (5 ≤ p.toNat)
  | .limit _ => decide (5 ≤ p.toNat)
  | .fftRun => p.toNat == 5
  | .agg16 => p.toNat == 6
  | .scale16 => p.toNat == 7
  | .binner8 => decide (6 ≤ p.toNat)
  | .binner16 => decide (6 ≤ p.toNat)
  | .binner32 => decide (6 ≤ p.toNat)
  | .binner64 => decide (6 ≤ p.toNat)
  | .binner128 => decide (6 ≤ p.toNat)
  | .peakDetect => decide (6 ≤ p.toNat)
  | .peakReset => decide (1 ≤ p.toNat)
  | .beatTrack => p.toNat == 8

/-- `phase_next` of R134, in the state before the command. -/
def phaseNext (i : Instr) (s : State) : BitVec 4 :=
  match i with
  | .nop => s.ctl.phase
  | .cycleBegin => 1#4
  | .reset => 0#4
  | .condRepair => if s.shortBlock then 0#4 else 2#4
  | .condNorm => 3#4
  | .condBpf => 4#4
  | .condMax => 5#4
  | .envSample => s.ctl.phase
  | .agcTick _ => s.ctl.phase
  | .limit _ => s.ctl.phase
  | .fftRun => 6#4
  | .agg16 => 7#4
  | .scale16 => 8#4
  | .binner8 => s.ctl.phase
  | .binner16 => s.ctl.phase
  | .binner32 => s.ctl.phase
  | .binner64 => s.ctl.phase
  | .binner128 => s.ctl.phase
  | .peakDetect => s.ctl.phase
  | .peakReset => s.ctl.phase
  | .beatTrack => s.ctl.phase

/-- The commands that the abort gate lets through (R120, R122). -/
def runsWhileAborted (i : Instr) : Bool :=
  match i with
  | .nop => true
  | .cycleBegin => true
  | .reset => true
  | .condRepair => false
  | .condNorm => false
  | .condBpf => false
  | .condMax => false
  | .envSample => false
  | .agcTick _ => false
  | .limit _ => false
  | .fftRun => false
  | .agg16 => false
  | .scale16 => false
  | .binner8 => false
  | .binner16 => false
  | .binner32 => false
  | .binner64 => false
  | .binner128 => false
  | .peakDetect => false
  | .peakReset => false
  | .beatTrack => false

/-! ### Execution of a legal command -/

/-- R120 for a legal command, whose `perform` step is the last argument but one: the abort gate (R122), then
the phase check (R135, R302), then `perform`, then `PHASE <- phase_next`. -/
def command (i : Instr) (perform : State → State) (s : State) : Host.Outcome State Fault Refusal :=
  if s.flag .abort && !runsWhileAborted i then .next s
  else if phaseOk i s.ctl.phase then .next ((perform s).setPhase (phaseNext i s))
  else .next (s.raise .sequenceError)

end Sys2Proof.Machine
end

