-- ==== Sys2Proof/Machine/Operands.lean ====
section
/-! DEFINITION. The operand forms of the commands: integer registers as f32 operands (R17), elapsed times (R19),
the AGC preset (R47), the fields of a raw sample (R148), the gains (R180, R239), the band mean (R238) and the
edges of the multi-resolution bands (R271); and what a command may leave in an f32 register (R24, R305). -/

namespace Sys2Proof.Machine

/-- A register that holds an unsigned integer, as an f32 operand (R17). -/
def ofReg {n : Nat} (r : BitVec n) : F32 := F32.ofNat r.toNat

/-- `a −32 b`, as a number of milliseconds (R19). -/
def elapsed (a b : Word) : Nat := (a - b).toNat

/-- `PRESET[PRESET_OF(m)]` (R47): 1 normal, 2 vivid, 3 lazy, and 0 (off) normal. -/
def presetOf (p : Params) (m : BitVec 2) : Preset :=
  match m.toNat with
  | 2 => p.presetVivid
  | 3 => p.presetLazy
  | _ => p.presetNormal

/-- The 12 fields of a preset (R12). -/
def Preset.floats (q : Preset) : List F32 :=
  [q.decay, q.zoneLow, q.zoneHigh, q.zoneStop, q.target0, q.target1, q.targetSwitch, q.followFast, q.followSlow, q.kp,
    q.ki, q.smooth]

/-- What a command leaves in the f32 register at bus address `a`, given the value `x` that R17's operations compute and
the registers and parameters it is computed from.  It is `x`, but for a non-finite `x` from finite inputs: R24 and
R305 let no command produce that, and no rule says which finite value stands there, so it is a free one (DESIGN CHOICE,
log entry 22), with the sign of `x` where `x` is an infinity. -/
def settle (inputs : List F32) (a : Nat) (x : F32) : F32 :=
  if x.isFinite || !inputs.all F32.isFinite then x
  else F32.ofMag (if x.isInf then x.sign else (Config.finiteValue inputs a).1) (Config.finiteValue inputs a).2.val

/-- `settle` of a whole block that goes to `VREAL`, element `i` at 0x2000 + 4i (R57, R71). -/
def settleVreal (inputs : List F32) (v : Arr F32 512) : Arr F32 512 :=
  v.mapIdx fun i x => settle inputs (0x2000 + 4 * i) x

/-- Bits `lo+width-1 : lo` of a word, as a number (R13). -/
def bitField (w : Word) (lo width : Nat) : Nat := (w.toNat / 2 ^ lo) % 2 ^ width

/-- `tag(r)` (R148). -/
def sampleTag (p : Params) (r : Word) : Nat := bitField r p.tagLo p.tagBits

/-- `data(r)` (R148). -/
def sampleData (p : Params) (r : Word) : Nat := bitField r p.dataLo p.dataBits

/-- `signed(r) = data(r) − 2^(DATA_BITS−1)`, converted exactly to f32 (R148). -/
def sampleSigned (p : Params) (r : Word) : F32 :=
  F32.ofInt ((sampleData p r : Int) - (2 ^ (p.dataBits - 1) : Nat))

/-- A sample is bad when `KNOWN` = 1 and its tag is not `ID[TAG_BITS−1:0]` (R149). -/
def sampleBad (p : Params) (known : Bool) (id : BitVec 8) (r : Word) : Bool :=
  known && sampleTag p r != id.toNat % 2 ^ p.tagBits

/-- The manual linear gain `((SAMPLE_GAIN / 40.0) × INPUT_LEVEL) / 128.0 + 0.0625` (R9, R180, R239). -/
def manualGain (c : ConfigRegs) : F32 :=
  ((((ofReg c.sampleGain).div Const.f40).mul (ofReg c.inputLevel)).div Const.f128).add
    Const.gainFloor

/-- `gain()`: `MULT` when `AGC_MODE` ≠ 0, else the manual gain (R239). -/
def State.channelGain (s : State) : F32 :=
  if s.cfg.agcMode ≠ 0#2 then s.agc.mult else manualGain s.cfg

/-- The f32 sum of a list in index order, starting from 0.0 (R220, R238). -/
def sumF32 (l : List F32) : F32 := l.foldl F32.add Const.f0

/-- `mean(lo, hi)` over `VREAL` (R238). -/
def bandMean (v : Arr F32 512) (lo hi : Nat) : F32 :=
  (sumF32 (v.slice lo hi)).div (F32.ofNat (hi + 1 - lo))

/-- `LOGEDGE(K, S, T, j) = floor(S × (T / S)^(j / K))` in exact real arithmetic (R271): the greatest `n` below
256 with `n^K ≤ S^(K−j) × T^j`.  The rule's arguments have 1 ≤ S ≤ T ≤ 255 and j ≤ K. -/
def logEdge (k lo hi j : Nat) : Nat :=
  bitSearch (fun n => decide (n ^ k ≤ lo ^ (k - j) * hi ^ j)) 8 0

/-- The five multi-resolution arrays (R8, R55). -/
inductive MrbSize where
  | k8
  | k16
  | k32
  | k64
  | k128
deriving DecidableEq, Repr

/-- K, the number of outputs (R101). -/
def MrbSize.count (k : MrbSize) : Nat :=
  match k with
  | .k8 => 8
  | .k16 => 16
  | .k32 => 32
  | .k64 => 64
  | .k128 => 128

end Sys2Proof.Machine
end

