-- ==== Sys2Proof/Machine/Bus.lean ====
section
/-! DEFINITION. The register map (R71) as the host sees it: which register or array word an address names, what a
read of it returns (R72, R75, R76) and what a write to it stores (R73).  A write to `CMD` executes a command
and stands in `Sys2Proof.Machine.Access`. -/

namespace Sys2Proof.Machine

/-- The configuration registers (R46). -/
inductive CfgReg where
  | squelch
  | inputLevel
  | sampleGain
  | agcMode
  | limiterEn
  | attackMs
  | decayMs
  | scaleMode
  | bpfEn
  | syncEn
  | peakThresh
  | peakBin
  | peakShowMs
  | mrbStart
  | mrbEnd
deriving DecidableEq, Repr

/-- The single-word registers that the host can only read (R48 to R53). -/
inductive RoReg where
  | volumeSmoothed
  | volumeRaw
  | magnitudeScaled
  | peakFrequency
  | fftMagnitude
  | envRaw
  | dcLevel
  | envSmooth
  | sampleMax
  | sampleRaw
  | sampleAvg
  | maxSample
  | mult
  | intErr
  | lastPreset
  | agcSample
  | agcSmooth
  | agcElapsed
  | volTarget
  | lastPeakMs
  | beatAvg
  | lastBeatMs
  | intervalEst
  | meanInterval
  | bpm
  | thresholdAvg
  | animDurationMs
  | beatValid
  | lastGood
  | badRun
  | lpfPrev
  | firH1
  | firH2
  | iirLp
deriving DecidableEq, Repr

/-- What the word at an address is (R71).  An array of 32-bit elements is named by its element's index, an
array of bytes by the index of its first byte in the word. -/
inductive Loc where
  | cmd
  | status
  | phase
  | nowMs
  | blockCount
  | chanSel
  | cfg (r : CfgReg)
  | ro (r : RoReg)
  | peakFlags
  | fftCalc (c : Nat)
  | fftAvg (c : Nat)
  | fftResult (c : Nat)
  | mrb (k : MrbSize) (j : Nat)
  | rawIn (i : Nat)
  | vreal (i : Nat)
  | vimag (i : Nat)
  /-- Unmapped, or a hole inside the map (R72). -/
  | hole
deriving DecidableEq, Repr

/-- The arrays of the map (R54 to R57). -/
def locOfArray (a : Nat) : Loc :=
  if 0x200 ≤ a ∧ a < 0x240 then .fftCalc ((a - 0x200) / 4)
  else if 0x240 ≤ a ∧ a < 0x280 then .fftAvg ((a - 0x240) / 4)
  else if 0x280 ≤ a ∧ a < 0x290 then .fftResult (a - 0x280)
  else if 0x300 ≤ a ∧ a < 0x308 then .mrb .k8 (a - 0x300)
  else if 0x308 ≤ a ∧ a < 0x318 then .mrb .k16 (a - 0x308)
  else if 0x318 ≤ a ∧ a < 0x338 then .mrb .k32 (a - 0x318)
  else if 0x338 ≤ a ∧ a < 0x378 then .mrb .k64 (a - 0x338)
  else if 0x378 ≤ a ∧ a < 0x3F8 then .mrb .k128 (a - 0x378)
  else if 0x1000 ≤ a ∧ a < 0x1800 then .rawIn ((a - 0x1000) / 4)
  else if 0x2000 ≤ a ∧ a < 0x2800 then .vreal ((a - 0x2000) / 4)
  else if 0x2800 ≤ a ∧ a < 0x3000 then .vimag ((a - 0x2800) / 4)
  else .hole

/-- What the word at an address that is a multiple of 4 is (R40 to R57, R71). -/
def locOf (a : Nat) : Loc :=
  match a with
  | 0x000 => .cmd
  | 0x004 => .status
  | 0x008 => .phase
  | 0x00C => .nowMs
  | 0x010 => .blockCount
  | 0x014 => .chanSel
  | 0x040 => .cfg .squelch
  | 0x044 => .cfg .inputLevel
  | 0x048 => .cfg .sampleGain
  | 0x04C => .cfg .agcMode
  | 0x050 => .cfg .limiterEn
  | 0x054 => .cfg .attackMs
  | 0x058 => .cfg .decayMs
  | 0x05C => .cfg .scaleMode
  | 0x060 => .cfg .bpfEn
  | 0x064 => .cfg .syncEn
  | 0x068 => .cfg .peakThresh
  | 0x06C => .cfg .peakBin
  | 0x070 => .cfg .peakShowMs
  | 0x074 => .cfg .mrbStart
  | 0x078 => .cfg .mrbEnd
  | 0x100 => .ro .volumeSmoothed
  | 0x104 => .ro .volumeRaw
  | 0x108 => .ro .magnitudeScaled
  | 0x10C => .ro .peakFrequency
  | 0x110 => .ro .fftMagnitude
  | 0x120 => .ro .envRaw
  | 0x124 => .ro .dcLevel
  | 0x128 => .ro .envSmooth
  | 0x12C => .ro .sampleMax
  | 0x130 => .ro .sampleRaw
  | 0x134 => .ro .sampleAvg
  | 0x138 => .ro .maxSample
  | 0x140 => .ro .mult
  | 0x144 => .ro .intErr
  | 0x148 => .ro .lastPreset
  | 0x14C => .ro .agcSample
  | 0x150 => .ro .agcSmooth
  | 0x154 => .ro .agcElapsed
  | 0x158 => .ro .volTarget
  | 0x160 => .peakFlags
  | 0x164 => .ro .lastPeakMs
  | 0x170 => .ro .beatAvg
  | 0x174 => .ro .lastBeatMs
  | 0x178 => .ro .intervalEst
  | 0x17C => .ro .meanInterval
  | 0x180 => .ro .bpm
  | 0x184 => .ro .thresholdAvg
  | 0x188 => .ro .animDurationMs
  | 0x18C => .ro .beatValid
  | 0x190 => .ro .lastGood
  | 0x194 => .ro .badRun
  | 0x198 => .ro .lpfPrev
  | 0x19C => .ro .firH1
  | 0x1A0 => .ro .firH2
  | 0x1A4 => .ro .iirLp
  | _ => locOfArray a

/-- A configuration register as the host reads it: the bits above the field read 0 (R46). -/
def ConfigRegs.read (c : ConfigRegs) (r : CfgReg) : Word :=
  match r with
  | .squelch => c.squelch.setWidth 32
  | .inputLevel => c.inputLevel.setWidth 32
  | .sampleGain => c.sampleGain.setWidth 32
  | .agcMode => c.agcMode.setWidth 32
  | .limiterEn => c.limiterEn.setWidth 32
  | .attackMs => c.attackMs.setWidth 32
  | .decayMs => c.decayMs.setWidth 32
  | .scaleMode => c.scaleMode.setWidth 32
  | .bpfEn => c.bpfEn.setWidth 32
  | .syncEn => c.syncEn.setWidth 32
  | .peakThresh => c.peakThresh.setWidth 32
  | .peakBin => c.peakBin.setWidth 32
  | .peakShowMs => c.peakShowMs.setWidth 32
  | .mrbStart => c.mrbStart.setWidth 32
  | .mrbEnd => c.mrbEnd.setWidth 32

/-- A configuration register written by the host: truncated to the field (R46, R73). -/
def ConfigRegs.write (c : ConfigRegs) (r : CfgReg) (v : Word) : ConfigRegs :=
  match r with
  | .squelch => { c with squelch := v.setWidth 8 }
  | .inputLevel => { c with inputLevel := v.setWidth 8 }
  | .sampleGain => { c with sampleGain := v.setWidth 8 }
  | .agcMode => { c with agcMode := v.setWidth 2 }
  | .limiterEn => { c with limiterEn := v.setWidth 1 }
  | .attackMs => { c with attackMs := v.setWidth 16 }
  | .decayMs => { c with decayMs := v.setWidth 16 }
  | .scaleMode => { c with scaleMode := v.setWidth 2 }
  | .bpfEn => { c with bpfEn := v.setWidth 1 }
  | .syncEn => { c with syncEn := v.setWidth 1 }
  | .peakThresh => { c with peakThresh := v.setWidth 16 }
  | .peakBin => { c with peakBin := v.setWidth 16 }
  | .peakShowMs => { c with peakShowMs := v.setWidth 16 }
  | .mrbStart => { c with mrbStart := v.setWidth 8 }
  | .mrbEnd => { c with mrbEnd := v.setWidth 8 }

/-- A read-only register as the host reads it (R48 to R53, R75). -/
def State.readRo (s : State) (r : RoReg) : Word :=
  match r with
  | .volumeSmoothed => s.vol.volumeSmoothed.bits
  | .volumeRaw => s.vol.volumeRaw.setWidth 32
  | .magnitudeScaled => s.vol.magnitudeScaled.bits
  | .peakFrequency => s.vol.peakFrequency.bits
  | .fftMagnitude => s.vol.fftMagnitude.bits
  | .envRaw => s.env.envRaw.bits
  | .dcLevel => s.env.dcLevel.bits
  | .envSmooth => s.env.envSmooth.bits
  | .sampleMax => s.env.sampleMax.bits
  | .sampleRaw => s.env.sampleRaw.bits
  | .sampleAvg => s.env.sampleAvg.bits
  | .maxSample => s.env.maxSample.bits
  | .mult => s.agc.mult.bits
  | .intErr => s.agc.intErr.bits
  | .lastPreset => s.agc.lastPreset.setWidth 32
  | .agcSample => s.agc.agcSample.bits
  | .agcSmooth => s.agc.agcSmooth.bits
  | .agcElapsed => s.agc.agcElapsed
  | .volTarget => s.agc.volTarget.bits
  | .lastPeakMs => s.peak.lastPeakMs
  | .beatAvg => s.beat.beatAvg.bits
  | .lastBeatMs => s.beat.lastBeatMs
  | .intervalEst => s.beat.intervalEst.bits
  | .meanInterval => s.beat.meanInterval.bits
  | .bpm => s.beat.bpm.bits
  | .thresholdAvg => s.beat.thresholdAvg.bits
  | .animDurationMs => s.beat.animDurationMs
  | .beatValid => if s.beat.beatValid then 1#32 else 0#32
  | .lastGood => s.cond.lastGood.bits
  | .badRun => s.cond.badRun
  | .lpfPrev => s.cond.lpfPrev.bits
  | .firH1 => s.cond.firH1.bits
  | .firH2 => s.cond.firH2.bits
  | .iirLp => s.cond.iirLp.bits

/-- Four bytes of a byte array as a word, the first in bits 7:0 (R76). -/
def packBytes {n : Nat} (v : Arr Byte n) (j : Nat) : Word :=
  (v.nth (j + 3) ++ v.nth (j + 2)) ++ (v.nth (j + 1) ++ v.nth j)

/-- Four outputs of a multi-resolution array as a word (R55, R76). -/
def MultiResBins.packed (m : MultiResBins) (k : MrbSize) (j : Nat) : Word :=
  match k with
  | .k8 => packBytes m.mrb8 j
  | .k16 => packBytes m.mrb16 j
  | .k32 => packBytes m.mrb32 j
  | .k64 => packBytes m.mrb64 j
  | .k128 => packBytes m.mrb128 j

/-- The word a location holds, as the host reads it (R71, R72). -/
def State.readLoc (s : State) (l : Loc) : Word :=
  match l with
  | .cmd => 0#32
  | .status => s.statusWord
  | .phase => s.ctl.phase.setWidth 32
  | .nowMs => s.ctl.nowMs
  | .blockCount => s.ctl.blockCount
  | .chanSel => s.chanSelWord
  | .cfg r => s.cfg.read r
  | .ro r => s.readRo r
  | .peakFlags => s.peakFlagsWord
  | .fftCalc c => (s.chan.fftCalc.nth c).bits
  | .fftAvg c => (s.chan.fftAvg.nth c).bits
  | .fftResult c => packBytes s.chan.fftResult c
  | .mrb k j => s.mrb.packed k j
  | .rawIn i => s.rawIn i
  | .vreal i => (s.spec.vreal.nth i).bits
  | .vimag i => (s.spec.vimag.nth i).bits
  | .hole => 0#32

/-- The word at an address that is a multiple of 4 (R71, R72). -/
def State.readWord (s : State) (a : Nat) : Word := s.readLoc (locOf a)

/-- One byte of the register space (R75): byte `k` of a word is its bits 8k+7 : 8k. -/
def State.readByte (s : State) (a : Nat) : Byte :=
  (s.readWord (a - a % 4)).extractLsb' (8 * (a % 4)) 8

/-- A host write to a location that is not `CMD` (R41, R45, R46, R51, R71 to R73): read-only and unmapped
locations ignore it. -/
def State.writeLoc (s : State) (l : Loc) (v : Word) : State :=
  match l with
  | .cmd => s
  | .status => s.acknowledge v
  | .phase => s
  | .nowMs => { s with ctl := { s.ctl with nowMs := v } }
  | .blockCount => { s with ctl := { s.ctl with blockCount := v } }
  | .chanSel => { s with ctl := { s.ctl with chanId := v.setWidth 8, chanKnown := v.getLsbD 8 } }
  | .cfg r => { s with cfg := s.cfg.write r v }
  | .ro _ => s
  | .peakFlags => { s with peak := s.peak.clearWritten v }
  | .fftCalc _ => s
  | .fftAvg _ => s
  | .fftResult _ => s
  | .mrb _ _ => s
  | .rawIn i => s.setRawIn i v
  | .vreal _ => s
  | .vimag _ => s
  | .hole => s

end Sys2Proof.Machine
end

