-- ==== Sys2Proof/Machine/Aggregator.lean ====
section
/-! DEFINITION. The spectral aggregator, its smoothing, the scaling curves and the multi-resolution binner:
`AGG16`, `SCALE16`, `BINNER K` (R238 to R272). -/

namespace Sys2Proof.Machine

/-! ### The 16-channel path -/

/-- The band of channel `c`: `EDGES_BPF` when `BPF_EN` = 1, else `EDGES_NOBPF` (R241). -/
def channelBand (p : Params) (c : ConfigRegs) (ch : Nat) : Band :=
  if c.bpfEn = 1#1 then p.edgesBpf ch else p.edgesNobpf ch

/-- The mean of channel `ch`'s band, band 15 damped (R240, R242). -/
def channelMean (p : Params) (s : State) (ch : Nat) : F32 :=
  let b := channelBand p s.cfg ch
  let v := bandMean s.spec.vreal b.lo b.hi
  if ch = 15 then v.mul p.band15Damp else v

/-- `FFT_CALC[ch]` with the noise gate open: pink-noise table, window compensation, gain, floor at 0, clamp to
1023 (R240, R244). -/
def channelOpen (p : Params) (s : State) (ch : Nat) : F32 :=
  ((((channelMean p s ch).mul (p.pink ch)).mul p.windowComp).mul s.channelGain).fmax Const.f0
    |>.fmin Const.f1023

/-- `FFT_CALC[ch]` with the noise gate closed: decay by 0.85, snapped to 0 below `CH_SNAP` (R243). -/
def channelDecay (p : Params) (old : F32) : F32 :=
  if (old.mul Const.chDecay).lt p.chSnap then Const.f0 else old.mul Const.chDecay

/-- The fall weight of `DECAY_MS` (R247). -/
def fallWeight (decayMs : BitVec 16) : F32 :=
  if decayMs.toNat < 1000 then Const.fall1
  else if decayMs.toNat < 2000 then Const.fall2
  else if decayMs.toNat < 3000 then Const.fall3
  else Const.fall4

/-- The asymmetric smoothing of one channel (R247). -/
def smoothChannel (decayMs : BitVec 16) (x avg : F32) : F32 :=
  let w := if avg.lt x then Const.riseW else fallWeight decayMs
  (avg.add (w.mul (x.sub avg))).clamp Const.f0 Const.f1023

/-- The new `FFT_CALC` (R240). -/
def channelsNext (p : Params) (s : State) : Arr F32 16 :=
  if p.aggGate.lt s.env.sampleAvg then Arr.tab 16 (channelOpen p s)
  else s.chan.fftCalc.map (channelDecay p)

/-- `AGG16` (R240). -/
def performAgg16 (p : Params) (s : State) : State :=
  let raw := channelsNext p s
  { s with chan := { s.chan with
      fftCalc := raw
      fftAvg := Arr.tab 16 fun c => smoothChannel s.cfg.decayMs (raw.nth c) (s.chan.fftAvg.nth c) } }.putFlag
    .gateAgg (p.aggGate.lt s.env.sampleAvg)

/-! ### The scaling curves -/

/-- The factor `0.85 + i / d` of a scaling curve (R250). -/
def curveFactor (i : Nat) (d : F32) : F32 := Const.chDecay.add ((F32.ofNat i).div d)

/-- Mode 0 (R250). -/
def scaleMode0 (p : Params) (v : F32) : F32 := v.sub p.mode0Offset

/-- Mode 1: the guarded logarithm (R250, R251). -/
def scaleMode1 (p : Params) (v : F32) (i : Nat) : F32 :=
  let r := (v.mul Const.mode1Slope).sub Const.f8
  let r := if Const.f1.lt r then p.lnFn r else Const.f0
  (r.mul (curveFactor i Const.f18)).mapf Const.f0 Const.logHi Const.f0 Const.f255

/-- Mode 2 (R250). -/
def scaleMode2 (v : F32) (i : Nat) : F32 :=
  let r := (v.mul Const.mode2Slope).sub Const.f4
  let r := if r.lt Const.f1 then Const.f0 else r
  r.mul (curveFactor i Const.mode2Div)

/-- Mode 3: the guarded square root (R250, R251). -/
def scaleMode3 (v : F32) (i : Nat) : F32 :=
  let r := (v.mul Const.mode3Slope).sub Const.f6
  let r := if Const.f1.lt r then r.sqrt else Const.f0
  (r.mul (curveFactor i Const.mode3Div)).mapf Const.f0 Const.f16 Const.f0 Const.f255

/-- The curve that `SCALE_MODE` selects (R250). -/
def scaleCurve (p : Params) (c : ConfigRegs) (v : F32) (i : Nat) : F32 :=
  match c.scaleMode.toNat with
  | 0 => scaleMode0 p v
  | 1 => scaleMode1 p v i
  | 2 => scaleMode2 v i
  | _ => scaleMode3 v i

/-- The byte map `min(trunc((r × 255) / 1023), 255)` of the clamped value (R250, R253). -/
def byteMap (r : F32) : Byte :=
  BitVec.ofNat 8 (min (((r.clamp Const.f0 Const.f1023).mul Const.f255).div Const.f1023).trunc 255)

/-- `scale(v, i)` (R250): the curve, the post-gain when AGC is on (R252), the byte map. -/
def scale (p : Params) (c : ConfigRegs) (v : F32) (i : Nat) : Byte :=
  let r := scaleCurve p c v i
  byteMap (if c.agcMode ≠ 0#2 then r.mul (p.postGain c.inputLevel.toNat) else r)

/-- What `SCALE16` reads of channel `c`: the smoothed value when `LIMITER_EN` = 1, else the raw one (R262). -/
def scaleInput (s : State) (c : Nat) : F32 :=
  if s.cfg.limiterEn = 1#1 then s.chan.fftAvg.nth c else s.chan.fftCalc.nth c

/-- `SCALE16` (R255). -/
def performScale16 (p : Params) (s : State) : State :=
  { s with chan := { s.chan with fftResult := Arr.tab 16 fun c => scale p s.cfg (scaleInput s c) c } }

/-! ### The multi-resolution binner -/

/-- `S = max(MRB_START, 1)` (R270, R271). -/
def binStart (c : ConfigRegs) : Nat := max c.mrbStart.toNat 1

/-- `T = min(max(MRB_END, S), 255)` (R270). -/
def binEnd (c : ConfigRegs) : Nat := min (max c.mrbEnd.toNat (binStart c)) 255

/-- The bins of band `j` of `k` (R270). -/
def binBand (c : ConfigRegs) (k j : Nat) : Band :=
  let lo := logEdge k (binStart c) (binEnd c) j
  { lo := lo
    hi := if j = k - 1 then binEnd c
          else max lo (logEdge k (binStart c) (binEnd c) (j + 1) - 1) }

/-- The clamped value of band `j` of `k` (R270). -/
def binValue (p : Params) (s : State) (k j : Nat) : F32 :=
  let b := binBand s.cfg k j
  (((bandMean s.spec.vreal b.lo b.hi).mul p.windowComp).mul s.channelGain).clamp Const.f0 Const.f1023

/-- Output `j` of `BINNER k`, by the curve of channel `floor(j × 16 / k)` (R270, R272). -/
def binByte (p : Params) (s : State) (k j : Nat) : Byte :=
  scale p s.cfg (binValue p s k j) (j * 16 / k)

/-- `BINNER K` (R270): the one array of K outputs. -/
def performBinner (p : Params) (k : MrbSize) (s : State) : State :=
  match k with
  | .k8 => { s with mrb := { s.mrb with mrb8 := Arr.tab 8 (binByte p s 8) } }
  | .k16 => { s with mrb := { s.mrb with mrb16 := Arr.tab 16 (binByte p s 16) } }
  | .k32 => { s with mrb := { s.mrb with mrb32 := Arr.tab 32 (binByte p s 32) } }
  | .k64 => { s with mrb := { s.mrb with mrb64 := Arr.tab 64 (binByte p s 64) } }
  | .k128 => { s with mrb := { s.mrb with mrb128 := Arr.tab 128 (binByte p s 128) } }

def execAgg16 (s : State) : Host.Outcome State Fault Refusal :=
  command .agg16 (performAgg16 Config.params) s

def execScale16 (s : State) : Host.Outcome State Fault Refusal :=
  command .scale16 (performScale16 Config.params) s

def execBinner8 (s : State) : Host.Outcome State Fault Refusal :=
  command .binner8 (performBinner Config.params .k8) s

def execBinner16 (s : State) : Host.Outcome State Fault Refusal :=
  command .binner16 (performBinner Config.params .k16) s

def execBinner32 (s : State) : Host.Outcome State Fault Refusal :=
  command .binner32 (performBinner Config.params .k32) s

def execBinner64 (s : State) : Host.Outcome State Fault Refusal :=
  command .binner64 (performBinner Config.params .k64) s

def execBinner128 (s : State) : Host.Outcome State Fault Refusal :=
  command .binner128 (performBinner Config.params .k128) s

end Sys2Proof.Machine
end

