-- ==== Sys2Proof/Machine/Conditioner.lean ====
section
/-! DEFINITION. The sample conditioner and the FIR/IIR band-pass filter: `COND_REPAIR`, `COND_NORM`, `COND_BPF`,
`COND_MAX` (R148 to R165). -/

namespace Sys2Proof.Machine

/-- What `COND_REPAIR`'s loop carries from one sample to the next (R150). -/
structure RepairAcc where
  lastGood : F32
  badRun : Word
  known : Bool
  /-- Whether this block has reached the run limit (R152). -/
  repairOff : Bool
deriving DecidableEq, Repr

/-- One sample of `COND_REPAIR` (R150, R152), settled where it is repaired (R305). -/
def repairSample (p : Params) (id : BitVec 8) (a : RepairAcc) (r : Word) : F32 × RepairAcc :=
  if sampleBad p a.known id r then
    (settle [p.repairScale, a.lastGood] 0x2000 (p.repairScale.mul a.lastGood),
      if a.badRun + 1#32 = Const.badRunLimit then
        { a with badRun := 0#32, known := false, repairOff := true }
      else { a with badRun := a.badRun + 1#32 })
  else (sampleSigned p r, { a with lastGood := sampleSigned p r, badRun := 0#32 })

/-- The block as the transport delivered it: `RAW_IN[0..511]` (R56, R150). -/
def State.rawBlock (s : State) : Arr Word 512 := Arr.tab 512 s.rawIn

/-- The loop's state before the first sample. -/
def State.repairStart (s : State) : RepairAcc :=
  { lastGood := s.cond.lastGood, badRun := s.cond.badRun, known := s.ctl.chanKnown, repairOff := false }

/-- `COND_REPAIR` on a block that is not short (R150). -/
def repairBlock (p : Params) (s : State) : State :=
  let f := repairSample p s.ctl.chanId
  let e := s.rawBlock.scanEnd f s.repairStart
  let t : State :=
    { s with
      ctl := { s.ctl with chanKnown := e.known }
      cond := { s.cond with lastGood := e.lastGood, badRun := e.badRun }
      spec := { s.spec with vreal := s.rawBlock.scanOut f s.repairStart } }
  if e.repairOff then t.raise .channelCorruption else t

/-- `COND_REPAIR` (R150, R151): on a short read only `ABORT` and `SHORT_READ` are set (and `PHASE` becomes 0,
by `phaseNext`). -/
def performCondRepair (p : Params) (s : State) : State :=
  if s.shortBlock then s.raise .transportShortRead else repairBlock p s

/-- `k = 2^(10 − DATA_BITS)` (R155). -/
def normScale (p : Params) : F32 := F32.ofRatio (2 ^ 10) (2 ^ p.dataBits)

/-- One sample of `COND_NORM`; the loop carries `LPF_PREV` (R155). -/
def normSample (p : Params) (prev v : F32) : F32 × F32 :=
  ((((Const.f3.mul (v.mul (normScale p))).add prev).div Const.f4), v.mul (normScale p))

/-- The f32 values that `COND_NORM` computes from (R155). -/
def State.normInputs (s : State) : List F32 := s.cond.lpfPrev :: s.spec.vreal.elems

/-- `COND_NORM` (R155); what it leaves is settled (R305). -/
def performCondNorm (p : Params) (s : State) : State :=
  { s with
    cond := { s.cond with
      lpfPrev := settle s.normInputs 0x198 (s.spec.vreal.scanEnd (normSample p) s.cond.lpfPrev) }
    spec := { s.spec with
      vreal := settleVreal s.normInputs (s.spec.vreal.scanOut (normSample p) s.cond.lpfPrev) } }

/-- What `COND_BPF`'s loop carries: the FIR inputs one and two samples back and the IIR state (R160). -/
structure BpfAcc where
  h1 : F32
  h2 : F32
  lp : F32
deriving DecidableEq, Repr

/-- The 3-tap FIR, its products summed left to right (R160). -/
def firTap (p : Params) (u h1 h2 : F32) : F32 :=
  ((p.bpfB0.mul u).add (p.bpfB1.mul h1)).add (p.bpfB2.mul h2)

/-- The IIR update `lp + BPF_ALPHA × (f − lp)` (R160). -/
def iirStep (lp f : F32) : F32 := lp.add (Const.bpfAlpha.mul (f.sub lp))

/-- One sample of `COND_BPF` (R160). -/
def bpfSample (p : Params) (a : BpfAcc) (u : F32) : F32 × BpfAcc :=
  let f := firTap p u a.h1 a.h2
  (f.sub (iirStep a.lp f), { h1 := u, h2 := a.h1, lp := iirStep a.lp f })

/-- The filter's state before the first sample of a block. -/
def State.bpfStart (s : State) : BpfAcc := { h1 := s.cond.firH1, h2 := s.cond.firH2, lp := s.cond.iirLp }

/-- The f32 values that `COND_BPF` computes from (R160). -/
def State.bpfInputs (p : Params) (s : State) : List F32 :=
  [p.bpfB0, p.bpfB1, p.bpfB2, s.cond.firH1, s.cond.firH2, s.cond.iirLp] ++ s.spec.vreal.elems

/-- `COND_BPF` (R160): nothing when `BPF_EN` = 0; what it leaves is settled (R305). -/
def performCondBpf (p : Params) (s : State) : State :=
  if s.cfg.bpfEn = 0#1 then s
  else
    let e := s.spec.vreal.scanEnd (bpfSample p) s.bpfStart
    { s with
      cond := { s.cond with firH1 := e.h1, firH2 := e.h2, iirLp := settle (s.bpfInputs p) 0x1A4 e.lp }
      spec := { s.spec with
        vreal := settleVreal (s.bpfInputs p) (s.spec.vreal.scanOut (bpfSample p) s.bpfStart) } }

/-- One sample of `COND_MAX`: the greater magnitude, outliers ignored (R165). -/
def maxSample (p : Params) (m v : F32) : F32 :=
  if v.fabs.lt p.outlierLimit && m.lt v.fabs then v.fabs else m

/-- `COND_MAX` (R165). -/
def performCondMax (p : Params) (s : State) : State :=
  { s with env := { s.env with maxSample := s.spec.vreal.elems.foldl (maxSample p) Const.f0 } }

def execCondRepair (s : State) : Host.Outcome State Fault Refusal :=
  command .condRepair (performCondRepair Config.params) s

def execCondNorm (s : State) : Host.Outcome State Fault Refusal :=
  command .condNorm (performCondNorm Config.params) s

def execCondBpf (s : State) : Host.Outcome State Fault Refusal :=
  command .condBpf (performCondBpf Config.params) s

def execCondMax (s : State) : Host.Outcome State Fault Refusal :=
  command .condMax (performCondMax Config.params) s

end Sys2Proof.Machine
end

