-- ==== Sys2Proof/Machine/Control.lean ====
section
/-! DEFINITION. The control commands `NOP`, `CYCLE_BEGIN`, `RESET` (R130 to R132). -/

namespace Sys2Proof.Machine

/-- `NOP` does nothing (R130). -/
def performNop (s : State) : State := s

/-- `CYCLE_BEGIN` clears `STATUS.ABORT` (R131). -/
def performCycleBegin (s : State) : State := s.putFlag .abort false

/-- `RESET` (R132, R332): every register and array to its reset value, except the host-written ones:
`CHAN_SEL`, `NOW_MS`, `BLOCK_COUNT`, `RAW_IN` and the configuration registers. -/
def performReset (s : State) : State :=
  { State.reset with
    ctl := { Control.reset with
      nowMs := s.ctl.nowMs, blockCount := s.ctl.blockCount, chanId := s.ctl.chanId,
      chanKnown := s.ctl.chanKnown }
    cfg := s.cfg
    mem := s.mem
    io := s.io }

def execNop (s : State) : Host.Outcome State Fault Refusal := command .nop performNop s

def execCycleBegin (s : State) : Host.Outcome State Fault Refusal :=
  command .cycleBegin performCycleBegin s

def execReset (s : State) : Host.Outcome State Fault Refusal := command .reset performReset s

end Sys2Proof.Machine
end

