-- ==== Sys2Proof/Machine/Detectors.lean ====
section
/-! DEFINITION. The onset (peak) detector `PEAK_DETECT` and `PEAK_RESET` (R280 to R282) and the low-frequency
envelope (beat) tracker `BEAT_TRACK` (R285 to R288). -/

namespace Sys2Proof.Machine

/-! ### Peak detector -/

/-- Whether `PEAK_DETECT` fires (R280, R281). -/
def peakFires (s : State) : Bool :=
  Const.f1.lt s.env.sampleAvg
    && s.cfg.peakThresh != 0#16
    && decide (s.cfg.peakBin.toNat < Const.numBins)
    && (ofReg s.cfg.peakThresh).lt (s.spec.vreal.nth s.cfg.peakBin.toNat)
    && decide (Const.peakMinGapMs ≤ elapsed s.ctl.nowMs s.peak.lastPeakMs)

/-- `PEAK_DETECT` (R280). -/
def performPeakDetect (s : State) : State :=
  if peakFires s then
    { s with peak := { peakActive := true, extPeak := true, lastPeakMs := s.ctl.nowMs } }
  else s

/-- The show delay `max(PEAK_SHOW_MS, 50)` (R282). -/
def showDelay (c : ConfigRegs) : Nat := max c.peakShowMs.toNat Const.peakShowMinMs

/-- `PEAK_RESET` (R282): `EXT_PEAK` is cleared too, unless `SYNC_EN` = 1. -/
def performPeakReset (s : State) : State :=
  if s.peak.peakActive && decide (showDelay s.cfg ≤ elapsed s.ctl.nowMs s.peak.lastPeakMs) then
    { s with peak := { s.peak with
        peakActive := false
        extPeak := if s.cfg.syncEn = 0#1 then false else s.peak.extPeak } }
  else s

/-! ### Beat tracker -/

/-- The running average after this cycle's `FFT_RESULT[0]` (R286). -/
def beatAvgNext (avg x : F32) : F32 := avg.add (Const.beatAvgW.mul (x.sub avg))

/-- Whether an interval is a beat candidate (R287); `avg` is the updated running average. -/
def beatCandidate (p : Params) (el : Nat) (est avg x : F32) : Bool :=
  est.lt (F32.ofNat el) && Const.f0.lt avg && (avg.mul p.beatRatio).lt x

/-- The plausibility window [426, 600] ms, inclusive (R288, conflict C5). -/
def beatPlausible (el : Nat) : Bool := decide (Const.beatWinLoMs ≤ el ∧ el ≤ Const.beatWinHiMs)

/-- The mean interval after an accepted interval; the first one initialises it (R288). -/
def beatMeanNext (b : BeatState) (el : Nat) : F32 :=
  if b.beatValid then
    b.meanInterval.add (Const.beatMeanW.mul ((F32.ofNat el).sub b.meanInterval))
  else F32.ofNat el

/-- The f32 values that `BEAT_TRACK` computes from (R285 to R288). -/
def beatInputs (p : Params) (b : BeatState) : List F32 :=
  [b.beatAvg, b.intervalEst, b.meanInterval, p.beatRatio, p.beatEstFrac]

/-- BeatState after an accepted interval (R288); the values left are settled (R305). -/
def beatAccepted (p : Params) (inputs : List F32) (b : BeatState) (el : Nat) : BeatState :=
  let mean := beatMeanNext b el
  { b with
    meanInterval := settle inputs 0x17C mean
    beatValid := true
    bpm := settle inputs 0x180 (Const.f60000.div mean)
    intervalEst := settle inputs 0x178 (mean.mul p.beatEstFrac)
    animDurationMs := BitVec.ofNat 32 mean.trunc }

/-- `BEAT_TRACK` (R285); the averages left are settled (R305). -/
def performBeatTrack (p : Params) (s : State) : State :=
  let x := ofReg (s.chan.fftResult.nth 0)
  let avg := beatAvgNext s.beat.beatAvg x
  let el := elapsed s.ctl.nowMs s.beat.lastBeatMs
  let cand := beatCandidate p el s.beat.intervalEst avg x
  let b : BeatState := { s.beat with
    beatAvg := settle (beatInputs p s.beat) 0x170 avg
    thresholdAvg := settle (beatInputs p s.beat) 0x184 (avg.mul p.beatRatio) }
  let b : BeatState := if cand then { b with lastBeatMs := s.ctl.nowMs } else b
  { s with beat := if cand && beatPlausible el then beatAccepted p (beatInputs p s.beat) b el else b }.putFlag
    .beatAccept (cand && beatPlausible el)

def execPeakDetect (s : State) : Host.Outcome State Fault Refusal :=
  command .peakDetect performPeakDetect s

def execPeakReset (s : State) : Host.Outcome State Fault Refusal :=
  command .peakReset performPeakReset s

def execBeatTrack (s : State) : Host.Outcome State Fault Refusal :=
  command .beatTrack (performBeatTrack Config.params) s

end Sys2Proof.Machine
end

