-- ==== Sys2Proof/Machine/Envelope.lean ====
section
/-! DEFINITION. The envelope front-end `ENV_SAMPLE` (R180 to R184), the PI automatic-gain controller `AGC_TICK`
(R190 to R197) and the slew-rate limiter `LIMIT` (R205, R206). -/

namespace Sys2Proof.Machine

/-! ### Envelope front-end -/

/-- The DC tracker: the slow step, then the fast step when the estimate is above the input (R181). -/
def dcTrack (p : Params) (dc x : F32) : F32 :=
  let slow := dc.add ((x.sub dc).div Const.dcTau)
  if x.lt slow then slow.add ((x.sub slow).div p.dcFastDiv) else slow

/-- The smoothed envelope before the squelch, `fabs(0.2 × ENV_RAW + 0.8 × ENV_SMOOTH)` (R180). -/
def envBlend (raw smooth : F32) : F32 :=
  ((Const.envWeight.mul raw).add (Const.envKeep.mul smooth)).fabs

/-- The squelch gate: at or below `SQUELCH`, and below 0.25 when `SQUELCH` is 0 (R182). -/
def squelched (c : ConfigRegs) (e : F32) : Bool :=
  e.le (ofReg c.squelch) || (c.squelch == 0#8 && e.lt Const.squelchEps)

/-- The 50% step of the peak tracker (R183). -/
def peakStep (m e : F32) : F32 := m.add (Const.half.mul (e.sub m))

/-- The peak tracker `SAMPLE_MAX` (R183). -/
def peakTrack (p : Params) (c : ConfigRegs) (mult m e : F32) : F32 :=
  if m.lt e && Const.half.lt e then peakStep m e
  else if c.agcMode != 0#2 && (presetOf p c.agcMode).zoneStop.lt (mult.mul m) then peakStep m e
  else m.mul (presetOf p c.agcMode).decay

/-- The average volume (R184). -/
def avgTrack (avg raw : F32) : F32 := (((avg.mul Const.f15).add raw).div Const.f16).fabs

/-- The f32 values that `ENV_SAMPLE` computes from (R180 to R184). -/
def envInputs (p : Params) (c : ConfigRegs) (mult : F32) (v : EnvelopeState) : List F32 :=
  [v.maxSample, v.dcLevel, v.envSmooth, v.sampleMax, v.sampleAvg, mult, p.dcFastDiv,
    (presetOf p c.agcMode).zoneStop, (presetOf p c.agcMode).decay]

/-- The new EnvelopeState of `ENV_SAMPLE` (R180).  The steps use what R17's operations compute; what is left in a
register is settled (R305), and has no sign where R180 and R184 take it through `fabs`. -/
def envelopeNext (p : Params) (c : ConfigRegs) (mult : F32) (v : EnvelopeState) : EnvelopeState :=
  let dc := dcTrack p v.dcLevel v.maxSample
  let raw := (v.maxSample.sub dc).fabs
  let gated := squelched c (envBlend raw v.envSmooth)
  let e := if gated then Const.f0 else envBlend raw v.envSmooth
  let leave := settle (envInputs p c mult v)
  let sampleRaw := (e.mul (manualGain c)).clamp Const.f0 Const.f255
  { v with
    dcLevel := leave 0x124 dc
    envRaw := (leave 0x120 (if gated then Const.f0 else raw)).fabs
    envSmooth := (leave 0x128 e).fabs
    sampleRaw := sampleRaw
    sampleMax := leave 0x12C (peakTrack p c mult v.sampleMax e)
    sampleAvg := (leave 0x134 (avgTrack v.sampleAvg sampleRaw)).fabs }

/-- `ENV_SAMPLE` (R180). -/
def performEnvSample (p : Params) (s : State) : State :=
  { s with env := envelopeNext p s.cfg s.agc.mult s.env }

/-! ### PI automatic-gain controller -/

/-- The first lines of `AGC_TICK`: a changed `AGC_MODE` resets the integrator and is remembered (R191). -/
def presetChange (m : BitVec 2) (g : AgcState) : AgcState :=
  if m ≠ g.lastPreset then { g with intErr := Const.f0, lastPreset := m } else g

/-- Silence: the envelope or its peak tracker is below its threshold (R193). -/
def agcSilent (p : Params) (env pk : F32) : Bool := env.lt p.agcSilEnv || pk.lt p.agcSilPeak

/-- The clamp to [1/64, 32] (R190). -/
def clampMult (v : F32) : F32 := v.clamp Const.multMin Const.multMax

/-- The candidate multiplier: 0 in silence, else the set-point over the peak; clamped (R190, R193). -/
def agcCandidate (p : Params) (q : Preset) (env pk prev : F32) : F32 :=
  clampMult (if agcSilent p env pk then Const.f0
    else if (env.mul prev).le q.targetSwitch then q.target0.div pk
    else q.target1.div pk)

/-- The integrator in silence: bled by 0.91, snapped to 0 below 0.01 (R193). -/
def agcBleed (i : F32) : F32 :=
  if (i.mul Const.agcBleed).fabs.lt Const.agcSnap then Const.f0 else i.mul Const.agcBleed

/-- The integrator of an effective tick: bled in silence (R193), else damped above the stop zone, else
integrated (R194). -/
def agcIntegrate (p : Params) (q : Preset) (env pk prev err i : F32) : F32 :=
  if agcSilent p env pk then agcBleed i
  else if q.zoneStop.lt (prev.mul pk) then i.mul Const.agcAntiWindup
  else i.add ((err.mul Const.agcInt1).mul Const.agcInt2)

/-- The follow rate of the zone that the projected loudness `ENV_SMOOTH × MULT` is in (R195). -/
def agcFollow (c : ConfigRegs) (q : Preset) (env prev : F32) : F32 :=
  if q.zoneHigh.lt (env.mul prev) || (env.mul prev).lt ((ofReg c.squelch).add q.zoneLow) then
    q.followFast
  else q.followSlow

/-- The new multiplier: proportional and integral correction, clamped (R190, R195). -/
def agcCorrect (q : Preset) (fr prev err i : F32) : F32 :=
  clampMult ((prev.add ((fr.mul q.kp).mul err)).add ((fr.mul q.ki).mul i))

/-- The f32 values that `AGC_TICK` computes from, `g` being the controller after R191's reset (R190 to R197). -/
def agcInputs (p : Params) (c : ConfigRegs) (v : EnvelopeState) (g : AgcState) : List F32 :=
  [v.envSmooth, v.sampleMax, g.mult, g.intErr, g.agcSmooth, p.agcSilEnv, p.agcSilPeak] ++
    Preset.floats (presetOf p c.agcMode)

/-- The effective part of a tick, run when `AGC_ELAPSED` has reached 2 ms (R192 to R195); the integrator left is
settled (R305). -/
def agcEffective (p : Params) (c : ConfigRegs) (v : EnvelopeState) (g : AgcState) : AgcState :=
  let q := presetOf p c.agcMode
  let err := (agcCandidate p q v.envSmooth v.sampleMax g.mult).sub g.mult
  let i := agcIntegrate p q v.envSmooth v.sampleMax g.mult err g.intErr
  { g with
    agcElapsed := 0#32
    intErr := settle (agcInputs p c v g) 0x144 i
    mult := agcCorrect q (agcFollow c q v.envSmooth g.mult) g.mult err i }

/-- `AGC_ELAPSED + dt`, saturating at 2^32 − 1 (R190). -/
def agcAccumulate (e : Word) (dt : Nat) : Nat := min (e.toNat + dt) (2 ^ 32 - 1)

/-- The controller of one tick: effective when the elapsed time reaches 2 ms, else only the time is kept
(R192). -/
def agcControl (p : Params) (c : ConfigRegs) (v : EnvelopeState) (dt : Nat) (g : AgcState) : AgcState :=
  if Const.agcMinPeriodMs ≤ agcAccumulate g.agcElapsed dt then agcEffective p c v g
  else { g with agcElapsed := BitVec.ofNat 32 (agcAccumulate g.agcElapsed dt) }

/-- The candidate AGC sample: squelched below `AGC_SIL_ENV`, clamped to [0, 255] (R197). -/
def agcSampleOf (p : Params) (env mult : F32) : F32 :=
  (if env.lt p.agcSilEnv then Const.f0 else env.mul mult).clamp Const.f0 Const.f255

/-- The smoothed AGC sample: 50/50 near zero, else the preset's smoothing; never negative (R197). -/
def agcSmoothOf (q : Preset) (a smooth : F32) : F32 :=
  (if a.fabs.lt Const.f1 then (Const.half.mul a).add (Const.half.mul smooth)
   else smooth.add (q.smooth.mul (a.sub smooth))).fabs

/-- The AGC outputs, written on every tick (R197); the smoothed sample is settled (R305) and has no sign. -/
def agcOutputs (p : Params) (c : ConfigRegs) (v : EnvelopeState) (inputs : List F32) (g : AgcState) : AgcState :=
  let a := agcSampleOf p v.envSmooth g.mult
  let sm := (settle inputs 0x150 (agcSmoothOf (presetOf p c.agcMode) a g.agcSmooth)).fabs
  { g with agcSample := a, agcSmooth := sm, volTarget := sm }

/-- `AGC_TICK dt` (R190): with AGC off the controller does not run and the unweighted path is published
(R196). -/
def performAgcTick (p : Params) (dt : Nat) (s : State) : State :=
  let g := presetChange s.cfg.agcMode s.agc
  if s.cfg.agcMode = 0#2 then
    { s with
      agc := { g with volTarget := s.env.sampleAvg }
      vol := { s.vol with volumeRaw := BitVec.ofNat 8 s.env.sampleRaw.trunc } }
  else
    let g' := agcOutputs p s.cfg s.env (agcInputs p s.cfg s.env g) (agcControl p s.cfg s.env dt g)
    { s with
      agc := g'
      vol := { s.vol with volumeRaw := BitVec.ofNat 8 g'.agcSample.trunc } }

/-! ### Slew-rate limiter -/

/-- `t = min(max(dt, 1), 1000)` (R205, R206). -/
def limitDt (dt : Nat) : Nat := min (max dt Const.limDtMin) Const.limDtMax

/-- The greatest change in `t` ms for a time constant of `tau` ms: `(LIM_BIG_CHANGE × t) / tau` (R205). -/
def limitStep (p : Params) (dt : Nat) (tau : BitVec 16) : F32 :=
  (p.limBigChange.mul (F32.ofNat (limitDt dt))).div (ofReg tau)

/-- The new `VOLUME_SMOOTHED` (R205).  With R10's positive `LIM_BIG_CHANGE` it lies between the present value and the
target, so that it is finite where they are (R305). -/
def limited (p : Params) (c : ConfigRegs) (dt : Nat) (tgt cur : F32) : F32 :=
  if c.limiterEn = 0#1 then tgt
  else
    let d := tgt.sub cur
    if Const.f0.lt d && c.attackMs != 0#16 then
      (if (limitStep p dt c.attackMs).lt d then cur.add (limitStep p dt c.attackMs) else tgt)
    else if d.lt Const.f0 && c.decayMs != 0#16 then
      (if d.lt (limitStep p dt c.decayMs).neg then cur.sub (limitStep p dt c.decayMs) else tgt)
    else tgt

/-- `LIMIT dt` (R205). -/
def performLimit (p : Params) (dt : Nat) (s : State) : State :=
  { s with vol := { s.vol with
      volumeSmoothed := limited p s.cfg dt s.agc.volTarget s.vol.volumeSmoothed } }

def execEnvSample (s : State) : Host.Outcome State Fault Refusal :=
  command .envSample (performEnvSample Config.params) s

def execAgcTick (dt : Nat) (s : State) : Host.Outcome State Fault Refusal :=
  command (.agcTick dt) (performAgcTick Config.params dt) s

def execLimit (dt : Nat) (s : State) : Host.Outcome State Fault Refusal :=
  command (.limit dt) (performLimit Config.params dt) s

end Sys2Proof.Machine
end

