-- ==== Sys2Proof/Machine/Fft.lean ====
section
/-! DEFINITION. The FFT engine `FFT_RUN` (R220 to R227). -/

namespace Sys2Proof.Machine

/-- The block mean: the sum in index order over 512.0 (R220). -/
def blockMean (v : Arr F32 512) : F32 := (sumF32 v.elems).div Const.f512

/-- DC removal, then the window (R220, R226). -/
def windowed (p : Params) (v : Arr F32 512) : Arr F32 512 :=
  v.mapIdx fun i x => (x.sub (blockMean v)).mul (p.window i)

/-- `sqrt(re × re + im × im)` (R220). -/
def magnitude (z : F32 × F32) : F32 := ((z.1.mul z.1).add (z.2.mul z.2)).sqrt

/-- The magnitude spectrum: bins 0..255 of the transform, 0.0 above (R220, R223). -/
def spectrum (p : Params) (x : Arr F32 512) : Arr F32 512 :=
  let t := p.fftFn x
  Arr.tab 512 fun k => if k < Const.numBins then magnitude (t k) else Const.f0

/-- The greatest of a list, NaNs passed over as `fmax` does (R24); a NaN when there is nothing else. -/
def maxOf (l : List F32) : F32 := l.foldl F32.fmax F32.qNaN

/-- The least k in 1..255 whose magnitude equals the maximum over 1..255 (R222); none exists when all of them
are NaNs, because no comparison with a NaN holds (R24). -/
def dominantBin (v : Arr F32 512) : Option Nat :=
  ((v.slice 1 255).findIdx? fun x => x.feq (maxOf (v.slice 1 255))).map (· + 1)

/-- `kstar` and the counter of free values after it.  Where R222 names no bin, a FREE VALUE in 1..255 is
taken (log entry 8). -/
def chosenBin (p : Params) (v : Arr F32 512) (count : Nat) : Nat × Nat :=
  match dominantBin v with
  | some k => (k, count)
  | none => (1 + (p.freeBin count).val, count + 1)

/-- The bin-centre frequency `k × FS / 512`, clamped to [1 Hz, FS / 2] (R222). -/
def binFrequency (p : Params) (k : Nat) : F32 :=
  (((F32.ofNat k).mul p.fs).div Const.f512).clamp Const.f1 (p.fs.div (F32.ofNat 2))

/-- The rescale of R225: every element of `VREAL`, and `MAGNITUDE_SCALED`. -/
def rescaled (p : Params) (v : Arr F32 512) : Arr F32 512 := v.map fun x => x.mul p.fftDownscale

/-- The f32 values that the transform path computes from.  A non-finite result of `FFT_FN` is one of them only where
it answers a finite block, being then not of this command's making (R24, R305). -/
def fftInputs (p : Params) (v : Arr F32 512) : List F32 :=
  let x := windowed p v
  p.fftDownscale :: v.elems ++ (List.range 512).map p.window ++
    if x.elems.all F32.isFinite then (List.range Const.numBins).flatMap fun k => [(p.fftFn x k).1, (p.fftFn x k).2]
    else []

/-- The part of `FFT_RUN` that both paths share, given the values it is computed from, the unscaled spectrum, the
unscaled peak magnitude, the peak frequency and the gate (R220, R225); what it leaves is settled (R305). -/
def publishSpectrum (p : Params) (inputs : List F32) (v : Arr F32 512) (mag freq : F32) (gate : Bool) (s : State) :
    State :=
  { s with
    spec := { vreal := settleVreal inputs (rescaled p v), vimag := fill 512 Const.f0 }
    vol := { s.vol with
      fftMagnitude := settle inputs 0x110 mag
      peakFrequency := freq
      magnitudeScaled := settle inputs 0x108 ((settle inputs 0x110 mag).mul p.fftDownscale) } }.putFlag
    .gateFft gate

/-- The transform path of `FFT_RUN` (R220 to R223). -/
def fftTransform (p : Params) (s : State) : State :=
  let m := spectrum p (windowed p s.spec.vreal)
  let k := chosenBin p m s.io.freeCount
  publishSpectrum p (fftInputs p s.spec.vreal) m (m.nth k.1) (binFrequency p k.1) true
    { s with io := { s.io with freeCount := k.2 } }

/-- The skip path of `FFT_RUN` (R224). -/
def fftSkip (p : Params) (s : State) : State :=
  publishSpectrum p [p.skipMag, p.fftDownscale] (fill 512 Const.f0) p.skipMag Const.f1 false s

/-- `FFT_RUN` (R220): the transform runs when `SAMPLE_AVG > FFT_GATE`, strictly (R221). -/
def performFftRun (p : Params) (s : State) : State :=
  if p.fftGate.lt s.env.sampleAvg then fftTransform p s else fftSkip p s

def execFftRun (s : State) : Host.Outcome State Fault Refusal :=
  command .fftRun (performFftRun Config.params) s

end Sys2Proof.Machine
end

