-- ==== Sys2Proof/Machine/Dispatch.lean ====
section
/-! DEFINITION. `exec`: the meaning of each command, one arm per row of the opcode table. -/

namespace Sys2Proof.Machine

-- R120 for a legal command: every meaning is the shared `command` with its own `perform` step.
def exec (i : Instr) (s : State) : Host.Outcome State Fault Refusal :=
  match i with
  | .nop => Sys2Proof.Machine.execNop s
  | .cycleBegin => Sys2Proof.Machine.execCycleBegin s
  | .reset => Sys2Proof.Machine.execReset s
  | .condRepair => Sys2Proof.Machine.execCondRepair s
  | .condNorm => Sys2Proof.Machine.execCondNorm s
  | .condBpf => Sys2Proof.Machine.execCondBpf s
  | .condMax => Sys2Proof.Machine.execCondMax s
  | .envSample => Sys2Proof.Machine.execEnvSample s
  | .agcTick dt => Sys2Proof.Machine.execAgcTick dt s
  | .limit dt => Sys2Proof.Machine.execLimit dt s
  | .fftRun => Sys2Proof.Machine.execFftRun s
  | .agg16 => Sys2Proof.Machine.execAgg16 s
  | .scale16 => Sys2Proof.Machine.execScale16 s
  | .binner8 => Sys2Proof.Machine.execBinner8 s
  | .binner16 => Sys2Proof.Machine.execBinner16 s
  | .binner32 => Sys2Proof.Machine.execBinner32 s
  | .binner64 => Sys2Proof.Machine.execBinner64 s
  | .binner128 => Sys2Proof.Machine.execBinner128 s
  | .peakDetect => Sys2Proof.Machine.execPeakDetect s
  | .peakReset => Sys2Proof.Machine.execPeakReset s
  | .beatTrack => Sys2Proof.Machine.execBeatTrack s

end Sys2Proof.Machine
end

