-- ==== Sys2Proof/Machine/Access.lean ====
section
/-! DEFINITION. One bus access of the host (R16, R40, R70 to R77): the width and alignment check, a read, a write,
a command issued through `CMD`; and power-on reset (R330). -/

namespace Sys2Proof.Machine

/-- The address of `CMD` (R40). -/
def cmdAddr : Addr := 0x0000#16

/-- A word written to `CMD` (R120): an illegal word raises `IllegalCommand` first, whatever the phase or abort
state (R105, R301, R309); a legal one is executed. -/
def issue (w : Word) (s : State) : Host.Outcome State Fault Refusal :=
  match decode w with
  | .ok i => exec i s
  | .error _ => .next (s.raise .illegalCommand)

/-- A read of the aligned word at `a`: the AFE is unchanged (R72), the host gets the word. -/
def busRead (a : Addr) (s : State) : State :=
  { s with io := { s.io with readData := some (s.readWord a.toNat) } }

/-- A write of the aligned word at `a` (R40, R73). -/
def busWrite (a : Addr) (v : Word) (s : State) : Host.Outcome State Fault Refusal :=
  if a = cmdAddr then issue v s else .next (s.writeLoc (locOf a.toNat) v)

/-- Power-on reset (R330); of the model's own fields, what the host has yet to do and the counter of free values
stay. -/
def powerOn (s : State) : State :=
  { State.reset with io := { Io.reset with bus := s.io.bus, freeCount := s.io.freeCount } }

/-- One access of the host.  An access that is not 32 bits wide, or not at a multiple of 4, is not performed
and is a fault of the host (R77, R308). -/
def access (op : HostOp) (s : State) : Host.Outcome State Fault Refusal :=
  match op with
  | .read a bytes =>
    if bytes ≠ 4 then .fault (.badWidth bytes)
    else if a.toNat % 4 ≠ 0 then .fault (.misaligned a)
    else .next (busRead a s)
  | .write a bytes v =>
    if bytes ≠ 4 then .fault (.badWidth bytes)
    else if a.toNat % 4 ≠ 0 then .fault (.misaligned a)
    else busWrite a v s
  | .powerOn => .next (powerOn s)

/-- The next access of the host is taken off `io.bus` and performed; with none pending the AFE does nothing
(R322, R330). -/
def nextAccess (s : State) : Host.Outcome State Fault Refusal :=
  match s.io.bus with
  | [] => .next s
  | op :: rest => access op { s with io := { s.io with bus := rest } }

/-- The host's next access becomes a write of that word to `CMD`. -/
def State.withCommand (s : State) (w : Word) : State :=
  { s with io := { s.io with bus := .write cmdAddr 4 w :: s.io.bus } }

end Sys2Proof.Machine
end

