-- ==== Sys2Proof/Machine/Step.lean ====
section
/-! DEFINITION. One step of the machine: the host's next bus access (R40, R82). -/

namespace Sys2Proof.Machine

/-- One step: one access of the host, a command being one atomic step (R40, R120). -/
def step (s : State) : Host.Outcome State Fault Refusal := nextAccess s

/-- `s` with the command word `w` as the host's next access, a write to `CMD`: the AFE fetches nothing (R31),
so a command is "placed" by the host making that write (log entry 2). -/
def State.withFetchWord (s : State) (nbits w : Nat) : State :=
  s.withCommand (BitVec.ofNat 32 (w % 2 ^ nbits))

end Sys2Proof.Machine
end

