-- ==== Sys2Proof/Machine/HostProgram.lean ====
section
/-! DEFINITION. What a host does with pseudo-commands (R107 to R109): their expansions, and a command sequence as
bus accesses.  The AFE has no knowledge of them (R109). -/

namespace Sys2Proof.Machine

/-- `CATCHUP late` (R108): `n = floor(min(late, 200) / 2)` pairs `ENV_SAMPLE`, `AGC_TICK 2`. -/
def catchup (late : Nat) : List Instr :=
  (List.replicate (min late Const.catchupCapMs / Const.catchupStepMs)
    [Instr.envSample, Instr.agcTick Const.catchupStepMs]).flatten

/-- The part of `CYCLE dt` up to `AGC_TICK dt` (R107). -/
def cycleHead (dt : Nat) : List Instr :=
  [.cycleBegin, .condRepair, .condNorm, .condBpf, .condMax, .envSample, .agcTick dt]

/-- The part of `CYCLE dt` from `LIMIT dt` on (R107). -/
def cycleTail (dt : Nat) : List Instr :=
  [.limit dt, .fftRun, .agg16, .scale16, .binner8, .binner16, .binner32, .binner64, .binner128,
    .peakDetect, .peakReset, .beatTrack]

/-- `CYCLE dt` (R107). -/
def cycle (dt : Nat) : List Instr := cycleHead dt ++ cycleTail dt

/-- The cycle a host issues (R108, R335, R344): the catch-up stands between `AGC_TICK dt` and `LIMIT dt` when
the cycle came more than 2 ms later than its period, `late = dt − CYCLE_PERIOD_MS`. -/
def hostCycle (p : Params) (dt : Nat) : List Instr :=
  cycleHead dt ++ (if 2 < dt - p.cyclePeriodMs then catchup (dt - p.cyclePeriodMs) else []) ++ cycleTail dt

/-- A command sequence as the host's writes to `CMD` (R106). -/
def assemble (is : List Instr) : List HostOp := is.map fun i => .write cmdAddr 4 (encode i)

/-- A sample block as the host delivers it (R74, R335): `RAW_IN[0..]`, then `BLOCK_COUNT`. -/
def deliverBlock (samples : List Word) : List HostOp :=
  ((List.range samples.length).zip samples).map
      (fun e => HostOp.write (BitVec.ofNat 16 (rawBase + 4 * e.1)) 4 e.2)
    ++ [HostOp.write 0x0010#16 4 (BitVec.ofNat 32 samples.length)]

end Sys2Proof.Machine
end

