-- ==== Sys2Proof/Machine/Reader.lean ====
section
/-! DEFINITION. A concurrent reader (R80, R83, R92).  A reader never changes the AFE (R72), so its reads are no
steps of the machine.  What it MAY see is defined over the states of a run: R78 makes every word it reads the
word of some state between two accesses of the host, R83 says which of them are admitted. -/

namespace Sys2Proof.Machine

/-- What one reader has seen: for each address it has read, the position in the history of the state whose
word it got last. -/
structure Reader where
  seen : List (Nat × Nat)
deriving DecidableEq, Repr

/-- A reader that has read nothing. -/
def Reader.fresh : Reader := { seen := [] }

/-- The earliest position whose word at `a` this reader may still get (R83: "two reads of the same word by one
reader never go backward"). -/
def Reader.floor (r : Reader) (a : Nat) : Nat := ((r.seen.find? fun e => e.1 == a).map (·.2)).getD 0

/-- One read of the word at `a`.  `history` holds the states of the run so far, from reset on, the latest
last; `pick` is the position of the state whose word the reader gets, one of the positions that R83 admits:
no later than now, not before the reader's last read of that word.  Different words are picked
independently, so every mixture is admitted.  `none`: not an admitted read (also when misaligned, R75). -/
def Reader.read (history : List State) (r : Reader) (a pick : Nat) : Option (Word × Reader) :=
  if a % 4 = 0 ∧ a < 65536 ∧ r.floor a ≤ pick then
    match history[pick]? with
    | some s => some (s.readWord a, { seen := (a, pick) :: r.seen })
    | none => none
  else none

/-- The states of a run of at most `n` steps from `s`, `s` first: the history a reader reads from.  It ends
early where the machine stops. -/
def historyOf (s : State) : Nat → List State
  | 0 => [s]
  | n + 1 =>
    match step s with
    | .next t => s :: historyOf t n
    | .fault _ => [s]
    | .refused _ => [s]

end Sys2Proof.Machine
end

