-- ==== Sys2Proof/Safety.lean ====
section
/-! DEFINITION. What counts as a safe run, in the terms the statements use: which host accesses are bus errors, what
may be assumed of the parameters, when parameters and state are finite, and the invariants that every step keeps. -/

namespace Sys2Proof.Machine

/-- A host access that the AFE performs: 32 bits wide at a multiple of 4, or power-on (R75, R77). -/
def HostOp.wellFormed (op : HostOp) : Bool :=
  match op with
  | .read a bytes => bytes == 4 && a.toNat % 4 == 0
  | .write a bytes _ => bytes == 4 && a.toNat % 4 == 0
  | .powerOn => true

/-- A run from here is safe as far as the host has queued it: every pending access is well formed, so that no
bus error is to come (R77). -/
def State.busOk (s : State) : Bool := s.io.bus.all HostOp.wellFormed

/-- An address inside one of the ranges of the register map (R71); every other address is unmapped or a hole. -/
def inRegisterMap (a : Nat) : Bool :=
  decide (a < 0x18 ∨ (0x40 ≤ a ∧ a < 0x7C) ∨ (0x100 ≤ a ∧ a < 0x114) ∨ (0x120 ≤ a ∧ a < 0x13C)
    ∨ (0x140 ≤ a ∧ a < 0x15C) ∨ (0x160 ≤ a ∧ a < 0x168) ∨ (0x170 ≤ a ∧ a < 0x190)
    ∨ (0x190 ≤ a ∧ a < 0x1A8) ∨ (0x200 ≤ a ∧ a < 0x290) ∨ (0x300 ≤ a ∧ a < 0x3F8)
    ∨ (0x1000 ≤ a ∧ a < 0x1800) ∨ (0x2000 ≤ a ∧ a < 0x2800) ∨ (0x2800 ≤ a ∧ a < 0x3000))

/-- A mapped address that the host can only read: `PHASE` (R42) and the ranges that R71 marks read-only, without
`PEAK_FLAGS` (R51). -/
def readOnlyForHost (a : Nat) : Bool :=
  decide ((0x008 ≤ a ∧ a < 0x00C) ∨ (0x164 ≤ a ∧ a < 0x168)) ||
    (inRegisterMap a && decide ((0x100 ≤ a ∧ a < 0x160) ∨ (0x170 ≤ a ∧ a < 0x1000) ∨ 0x2000 ≤ a))

/-- An address of a register or array that R332 calls host-written: `NOW_MS`, `BLOCK_COUNT`, `CHAN_SEL`, the
configuration registers and `RAW_IN`. -/
def hostWritten (a : Nat) : Bool :=
  decide ((0x00C ≤ a ∧ a < 0x018) ∨ (0x040 ≤ a ∧ a < 0x07C) ∨ (0x1000 ≤ a ∧ a < 0x1800))

/-- `lo ≤ x ≤ hi`, which a NaN never satisfies (R24). -/
def within (lo hi x : F32) : Bool := F32.le lo x && F32.le x hi

/-- R252's "affine in L": for n in first..last every `f n` is finite and is, as a value, the binary32 value nearest
to `(a + b × n) / d` for one exact affine function.  That one rounding separates the table from the exact function is
the model's choice, the spec saying nothing of it (DESIGN CHOICE, log entry 20). -/
def AffineOn (f : Nat → F32) (first last : Nat) : Prop :=
  ∃ (a b : Int) (d : Nat), 0 < d ∧ ∀ n : Nat, first ≤ n → n ≤ last →
    0 ≤ a + b * n ∧ (f n).isFinite = true ∧ (f n).feq (F32.ofRatio (a + b * n).toNat d) = true

/-- What R10, R11, R20, R148, R223 and R252 say of the parameters, but for the words they put no bound to ("≈",
"approximating", "near-zero"; log entry 1).  A statement assumes it only where it names it. -/
structure ParamsOk (p : Params) : Prop where
  /-- R148: `DATA_BITS` in 1..24. -/
  dataBits : 1 ≤ p.dataBits ∧ p.dataBits ≤ 24
  /-- R148: `TAG_BITS` in 1..8. -/
  tagBits : 1 ≤ p.tagBits ∧ p.tagBits ≤ 8
  /-- R148: both fields lie in bits 31:0. -/
  fieldsInWord : p.dataLo + p.dataBits ≤ 32 ∧ p.tagLo + p.tagBits ≤ 32
  /-- R148: the two fields do not overlap. -/
  fieldsApart : p.dataLo + p.dataBits ≤ p.tagLo ∨ p.tagLo + p.tagBits ≤ p.dataLo
  /-- R10. -/
  outlierLimit : F32.lt F32.zero p.outlierLimit = true
  /-- R10. -/
  dcFastDiv : F32.le F32.one p.dcFastDiv = true
  /-- R10. -/
  agcSilEnv : F32.lt F32.zero p.agcSilEnv = true
  /-- R10. -/
  agcSilPeak : F32.lt F32.zero p.agcSilPeak = true
  /-- R10. -/
  limBigChange : F32.lt F32.zero p.limBigChange = true
  /-- R10. -/
  fftDownscale : F32.lt F32.zero p.fftDownscale = true
  /-- R10. -/
  skipMag : F32.le F32.zero p.skipMag = true
  /-- R10. -/
  chSnap : F32.le F32.zero p.chSnap = true
  /-- R10: in (0, 1]. -/
  band15Damp : F32.lt F32.zero p.band15Damp = true ∧ F32.le p.band15Damp F32.one = true
  /-- R10. -/
  pink : ∀ c < 16, F32.le F32.zero (p.pink c) = true
  /-- R10. -/
  windowComp : F32.lt F32.zero p.windowComp = true
  /-- R10. -/
  postGain : ∀ level < 256, F32.le F32.zero (p.postGain level) = true
  /-- R252. -/
  postGainBelowUnity : ∀ level < 128, F32.lt (p.postGain level) F32.one = true
  /-- R252: affine in L for L ≥ 128; how far rounding may move a value from the affine function is the model's
  choice (DESIGN CHOICE, log entry 20). -/
  postGainAffine : AffineOn p.postGain 128 255
  /-- R10. -/
  beatRatio : F32.lt F32.zero p.beatRatio = true
  /-- R10. -/
  beatEstFrac : F32.lt F32.zero p.beatEstFrac = true
  /-- R10. -/
  cyclePeriodMs : 0 < p.cyclePeriodMs
  /-- R11, for `EDGES_BPF`. -/
  edgesBpf : ∀ c < 16, (p.edgesBpf c).lo ≤ (p.edgesBpf c).hi ∧ (p.edgesBpf c).hi < 256
  /-- R11, for `EDGES_NOBPF`. -/
  edgesNobpf : ∀ c < 16, (p.edgesNobpf c).lo ≤ (p.edgesNobpf c).hi ∧ (p.edgesNobpf c).hi < 256
  /-- R11, "contiguous": a shared edge bin or an adjacent one. -/
  contiguousBpf : ∀ c < 15, (p.edgesBpf (c + 1)).lo = (p.edgesBpf c).hi ∨
    (p.edgesBpf (c + 1)).lo = (p.edgesBpf c).hi + 1
  /-- R11, for `EDGES_NOBPF`. -/
  contiguousNobpf : ∀ c < 15, (p.edgesNobpf (c + 1)).lo = (p.edgesNobpf c).hi ∨
    (p.edgesNobpf (c + 1)).lo = (p.edgesNobpf c).hi + 1
  /-- R20: `LN_FN` is "increasing" above 1.  R20 does not say whether strictly; the model reads it as never
  decreasing, which is all that a logarithm rounded to binary32 can keep (DESIGN CHOICE, log entry 19). -/
  lnIncreasing : ∀ x y, F32.lt F32.one x = true → F32.lt x y = true →
    F32.le (p.lnFn x) (p.lnFn y) = true
  /-- R223: for an input of all 0.0 the transform is all 0.0.  R223 does not say whether -0.0 counts; the model takes
the pattern +0.0 on both sides and asks nothing for an input with a -0.0 in it (DESIGN CHOICE, log entry 21). -/
  fftOfZeros : ∀ k < 512, p.fftFn (fill 512 F32.zero) k = (F32.zero, F32.zero)

/-- The parameters of R9 and R10 that are single f32 values, the presets' fields among them. -/
def Params.floats (p : Params) : List F32 :=
  [p.fs, p.repairScale, p.bpfB0, p.bpfB1, p.bpfB2, p.outlierLimit, p.dcFastDiv, p.agcSilEnv, p.agcSilPeak,
    p.limBigChange, p.fftGate, p.fftDownscale, p.skipMag, p.aggGate, p.chSnap, p.band15Damp, p.windowComp,
    p.mode0Offset, p.beatRatio, p.beatEstFrac] ++
  Preset.floats p.presetNormal ++ Preset.floats p.presetVivid ++ Preset.floats p.presetLazy

/-- The parameters are finite (R24, R305), and so are the results of the configuration functions on finite inputs. -/
structure ParamsFinite (p : Params) : Prop where
  scalars : ∀ x ∈ Params.floats p, x.isFinite = true
  window : ∀ n < 512, (p.window n).isFinite = true
  pink : ∀ c < 16, (p.pink c).isFinite = true
  postGain : ∀ level < 256, (p.postGain level).isFinite = true
  ln : ∀ x : F32, x.isFinite = true → F32.lt F32.one x = true → (p.lnFn x).isFinite = true
  fft : ∀ v : Arr F32 512, (∀ x ∈ v.elems, x.isFinite = true) →
    ∀ k < 512, (p.fftFn v k).1.isFinite = true ∧ (p.fftFn v k).2.isFinite = true

/-- Every f32 register and array element (R48 to R50, R52 to R54, R57). -/
def State.floats (s : State) : List F32 :=
  [s.vol.volumeSmoothed, s.vol.magnitudeScaled, s.vol.peakFrequency, s.vol.fftMagnitude,
    s.env.envRaw, s.env.dcLevel, s.env.envSmooth, s.env.sampleMax, s.env.sampleRaw, s.env.sampleAvg, s.env.maxSample,
    s.agc.mult, s.agc.intErr, s.agc.agcSample, s.agc.agcSmooth, s.agc.volTarget,
    s.beat.beatAvg, s.beat.intervalEst, s.beat.meanInterval, s.beat.bpm, s.beat.thresholdAvg,
    s.cond.lastGood, s.cond.lpfPrev, s.cond.firH1, s.cond.firH2, s.cond.iirLp] ++
  s.chan.fftCalc.elems ++ s.chan.fftAvg.elems ++ s.spec.vreal.elems ++ s.spec.vimag.elems

/-- No register and no array element holds an infinity or a NaN (R24, R305). -/
abbrev State.AllFinite (s : State) : Prop := ∀ x ∈ s.floats, x.isFinite = true

/-- The `perform` step of each command under given parameters (R120). -/
def performWith (p : Params) (i : Instr) : State → State :=
  match i with
  | .nop => performNop
  | .cycleBegin => performCycleBegin
  | .reset => performReset
  | .condRepair => performCondRepair p
  | .condNorm => performCondNorm p
  | .condBpf => performCondBpf p
  | .condMax => performCondMax p
  | .envSample => performEnvSample p
  | .agcTick dt => performAgcTick p dt
  | .limit dt => performLimit p dt
  | .fftRun => performFftRun p
  | .agg16 => performAgg16 p
  | .scale16 => performScale16 p
  | .binner8 => performBinner p .k8
  | .binner16 => performBinner p .k16
  | .binner32 => performBinner p .k32
  | .binner64 => performBinner p .k64
  | .binner128 => performBinner p .k128
  | .peakDetect => performPeakDetect
  | .peakReset => performPeakReset
  | .beatTrack => performBeatTrack p

/-- The invariant that every step keeps (R42, R49, R50, R53, R54, R56, R57, R197): the storage is in its
canonical form and lists only `RAW_IN`, the phase is one of R134's, an aborted cycle is in phase 0, the values
that a rule bounds are in their bounds, the values that a rule makes non-negative have no sign, and the
imaginary buffer is zero. -/
structure Inv (s : State) : Prop where
  memWf : Memory.wf s.mem = true
  memRaw : Memory.inRawIn s.mem = true
  /-- R42: `PHASE` is 0..8. -/
  phase : s.ctl.phase.toNat ≤ 8
  /-- R303: `ABORT` is set together with `PHASE` ← 0, and only `CYCLE_BEGIN` and `RESET`, which clear it, run. -/
  aborted : s.flag .abort = true → s.ctl.phase = 0#4
  /-- R53: `BAD_RUN` is 0..255. -/
  badRun : s.cond.badRun.toNat ≤ 255
  /-- R50: `MULT` ∈ [1/64, 32]. -/
  mult : within Const.multMin Const.multMax s.agc.mult = true
  /-- R50: `AGC_SAMPLE` ∈ [0, 255]. -/
  agcSample : within Const.f0 Const.f255 s.agc.agcSample = true
  /-- R49: `SAMPLE_RAW` ∈ [0, 255]. -/
  sampleRaw : within Const.f0 Const.f255 s.env.sampleRaw = true
  /-- R190: after a tick less than 2 ms are left over. -/
  agcElapsed : s.agc.agcElapsed.toNat < 2
  /-- R54: `FFT_CALC[c]` ∈ [0, 1023]. -/
  fftCalc : ∀ c < 16, within Const.f0 Const.f1023 (s.chan.fftCalc.nth c) = true
  /-- R54: `FFT_AVG[c]` ∈ [0, 1023]. -/
  fftAvg : ∀ c < 16, within Const.f0 Const.f1023 (s.chan.fftAvg.nth c) = true
  /-- R49, R165: `MAX_SAMPLE` has no sign. -/
  maxSample : s.env.maxSample.sign = false
  /-- R180: `ENV_RAW` has no sign. -/
  envRaw : s.env.envRaw.sign = false
  /-- R180: `ENV_SMOOTH` has no sign. -/
  envSmooth : s.env.envSmooth.sign = false
  /-- R184: `SAMPLE_AVG` has no sign. -/
  sampleAvg : s.env.sampleAvg.sign = false
  /-- R50, R197: `AGC_SMOOTH` has no sign. -/
  agcSmooth : s.agc.agcSmooth.sign = false
  /-- R57, R220: `VIMAG` is 0.0 between commands. -/
  vimag : ∀ i < 512, s.spec.vimag.nth i = F32.zero

/-- The bounds of the beat tracker once an interval has been accepted (R285, R288): the mean interval is in
[426, 600] ms, `BPM` in [100.0, 140.845...] (the binary32 value of 60000 / 426), and the animation duration is
the mean truncated, hence in [426, 600]. -/
structure BeatInv (s : State) : Prop where
  meanInterval : s.beat.beatValid = true →
    within (F32.ofNat 426) (F32.ofNat 600) s.beat.meanInterval = true
  bpm : s.beat.beatValid = true →
    within (F32.ofNat 100) ((F32.ofNat 60000).div (F32.ofNat 426)) s.beat.bpm = true
  animDuration : s.beat.beatValid = true →
    426 ≤ s.beat.animDurationMs.toNat ∧ s.beat.animDurationMs.toNat ≤ 600

end Sys2Proof.Machine
end

