-- ==== Sys2Proof/Certificates/Slice0/Obligations.lean ====
section
/-! DEFINITION. The statements for the provers: what the numbered rules of `spec/` say of the AFE, each a proposition
about the model.  `p` is always the opaque `Config.params` in a statement about `exec`; a statement about every
choice of parameters quantifies over `p` and speaks of the `perform` step. -/

open Sys2Proof Sys2Proof.Machine

/-! ### Encoding -/

/-- R100 to R103, R106: decoding the encoding of a well-formed command gives it back, from the word, from its four
bytes and through the host's table numbering. -/
def Obligations.DecodeEncodeAgree : Prop :=
  ∀ i : Instr, WellFormed i = true →
    decode (encode i) = .ok i ∧ decodeBytes (wordBytes (encode i)) = .ok i ∧
      decodeTableWord 32 (encode i).toNat = some i

/-- R103: a word is a legal command exactly when it matches a row of the table, and it is that row's command with
the row's free `IMM` as operand. -/
def Obligations.LegalWordsMatchTheTable : Prop :=
  ∀ (w : Word) (i : Instr), decode w = .ok i ↔
    ∃ row ∈ ([(0xFFFFFFFF#32, 0x00000000#32, fun _ => Instr.nop),
        (0xFFFFFFFF#32, 0x01000000#32, fun _ => Instr.cycleBegin),
        (0xFFFFFFFF#32, 0x0F000000#32, fun _ => Instr.reset),
        (0xFFFFFFFF#32, 0x10000000#32, fun _ => Instr.condRepair),
        (0xFFFFFFFF#32, 0x11000000#32, fun _ => Instr.condNorm),
        (0xFFFFFFFF#32, 0x12000000#32, fun _ => Instr.condBpf),
        (0xFFFFFFFF#32, 0x13000000#32, fun _ => Instr.condMax),
        (0xFFFFFFFF#32, 0x20000000#32, fun _ => Instr.envSample),
        (0xFFFF0000#32, 0x21000000#32, fun dt => Instr.agcTick dt),
        (0xFFFF0000#32, 0x22000000#32, fun dt => Instr.limit dt),
        (0xFFFFFFFF#32, 0x30000000#32, fun _ => Instr.fftRun),
        (0xFFFFFFFF#32, 0x40000000#32, fun _ => Instr.agg16),
        (0xFFFFFFFF#32, 0x41000000#32, fun _ => Instr.scale16),
        (0xFFFFFFFF#32, 0x42030000#32, fun _ => Instr.binner8),
        (0xFFFFFFFF#32, 0x42040000#32, fun _ => Instr.binner16),
        (0xFFFFFFFF#32, 0x42050000#32, fun _ => Instr.binner32),
        (0xFFFFFFFF#32, 0x42060000#32, fun _ => Instr.binner64),
        (0xFFFFFFFF#32, 0x42070000#32, fun _ => Instr.binner128),
        (0xFFFFFFFF#32, 0x50000000#32, fun _ => Instr.peakDetect),
        (0xFFFFFFFF#32, 0x51000000#32, fun _ => Instr.peakReset),
        (0xFFFFFFFF#32, 0x52000000#32, fun _ => Instr.beatTrack)]
          : List (Word × Word × (Nat → Instr))),
      w &&& row.1 = row.2.1 ∧ i = row.2.2 (w.toNat % 65536)

/-- R104, R105: a word whose opcode R102 does not assign, or with a nonzero field that must be 0, or a `BINNER`
whose `ARG` is outside 3..7, sets `STATUS.ILLEGAL` (bit 1) when it is written to `CMD` and changes nothing else,
in every phase and also in an aborted cycle; every other word is a legal command. -/
def Obligations.IllegalWordsOnlySetIllegal : Prop :=
  ∀ w : Word,
    let op := w.toNat / 2 ^ 24
    let arg := w.toNat / 2 ^ 16 % 256
    let imm := w.toNat % 65536
    let assigned := op ∈ [0x00, 0x01, 0x0F, 0x10, 0x11, 0x12, 0x13, 0x20, 0x21, 0x22, 0x30, 0x40, 0x41, 0x42,
      0x50, 0x51, 0x52]
    let illegal := ¬assigned ∨ (op ≠ 0x42 ∧ arg ≠ 0) ∨ (op ≠ 0x21 ∧ op ≠ 0x22 ∧ imm ≠ 0) ∨
      (op = 0x42 ∧ (arg < 3 ∨ 7 < arg))
    (illegal → ∀ (s : State) (rest : List HostOp), s.io.bus = .write 0x0000#16 4 w :: rest →
      step s = .next { s with
        ctl := { s.ctl with status := s.ctl.status ||| 0x02#8 }, io := { s.io with bus := rest } }) ∧
    (¬illegal → ∃ i, decode w = .ok i)

/-- R100 to R103, R130 to R132, R190, R270: command words written out from their fields decode to their commands,
and words with one bit outside the encoding are rejected. -/
def Obligations.ExampleWordsDecode : Prop :=
  decode 0x01000000#32 = .ok .cycleBegin ∧ decode 0x10000000#32 = .ok .condRepair ∧
    decode 0x21000005#32 = .ok (.agcTick 5) ∧ decode 0x2200FFFF#32 = .ok (.limit 65535) ∧
    decode 0x42030000#32 = .ok .binner8 ∧ decode 0x42070000#32 = .ok .binner128 ∧
    decode 0x52000000#32 = .ok .beatTrack ∧
    decode 0x02000000#32 = .error (.unassignedOpcode 0x02#8) ∧
    decode 0x00000001#32 = .error (.nonzeroImm 0x0001#16) ∧
    decode 0x21010005#32 = .error (.nonzeroArg 0x01#8) ∧
    decode 0x42020000#32 = .error (.binnerArg 0x02#8) ∧
    decode 0x42080000#32 = .error (.binnerArg 0x08#8)

/-! ### Execution of a command, conditions and status -/

/-- R40, R82, R120 and log entry 2 (the host's accesses stand in `io.bus`, the model's choice): when the next access
is a write of a legal word to `CMD`, one step is `exec` of its command, on the state without that access; the same
for a word placed by `withFetchWord`; with no access pending the AFE does nothing. -/
def Obligations.StepRunsTheDecodedCommand : Prop :=
  (∀ (s : State) (w : Word) (i : Instr) (rest : List HostOp), decode w = .ok i →
    s.io.bus = .write 0x0000#16 4 w :: rest →
    WellFormed i = true ∧ step s = exec i { s with io := { s.io with bus := rest } }) ∧
  (∀ (s : State) (w : Word) (i : Instr), decode w = .ok i →
    step (s.withFetchWord 32 w.toNat) = exec i s) ∧
  (∀ s : State, s.io.bus = [] → step s = .next s)

/-- R122: while `STATUS.ABORT` = 1, every command but `NOP`, `CYCLE_BEGIN` and `RESET` changes no state. -/
def Obligations.AbortGateIgnoresStageCommands : Prop :=
  ∀ (i : Instr) (s : State), s.flag .abort = true → i ≠ .nop → i ≠ .cycleBegin → i ≠ .reset →
    exec i s = .next s

/-- R134, R135: a legal, not aborted command whose phase requirement is not met sets `STATUS.SEQ_ERR` (bit 2) and
changes nothing else. -/
def Obligations.OutOfPhaseOnlySetsSeqErr : Prop :=
  ∀ (i : Instr) (s : State), s.flag .abort = false →
    (match i with
      | .nop => False
      | .cycleBegin => False
      | .reset => False
      | .condRepair => s.ctl.phase ≠ 1#4
      | .condNorm => s.ctl.phase ≠ 2#4
      | .condBpf => s.ctl.phase ≠ 3#4
      | .condMax => s.ctl.phase ≠ 4#4
      | .envSample => s.ctl.phase.toNat < 5
      | .agcTick _ => s.ctl.phase.toNat < 5
      | .limit _ => s.ctl.phase.toNat < 5
      | .fftRun => s.ctl.phase ≠ 5#4
      | .agg16 => s.ctl.phase ≠ 6#4
      | .scale16 => s.ctl.phase ≠ 7#4
      | .binner8 => s.ctl.phase.toNat < 6
      | .binner16 => s.ctl.phase.toNat < 6
      | .binner32 => s.ctl.phase.toNat < 6
      | .binner64 => s.ctl.phase.toNat < 6
      | .binner128 => s.ctl.phase.toNat < 6
      | .peakDetect => s.ctl.phase.toNat < 6
      | .peakReset => s.ctl.phase = 0#4
      | .beatTrack => s.ctl.phase ≠ 8#4) →
    exec i s = .next { s with ctl := { s.ctl with status := s.ctl.status ||| 0x04#8 } }

/-- R121: no command fails, in any state. -/
def Obligations.CommandsNeverFail : Prop :=
  ∀ (i : Instr) (s : State), ∃ t, exec i s = .next t

/-- R43, R44, R45, R46, R56, R81: no command writes `NOW_MS`, `BLOCK_COUNT`, `CHAN_SEL.ID`, a configuration register
or a byte of `RAW_IN`; no command sets `CHAN_SEL.KNOWN`; no command is an access of the host. -/
def Obligations.CommandsKeepHostRegisters : Prop :=
  ∀ (i : Instr) (s t : State), exec i s = .next t →
    t.cfg = s.cfg ∧ t.ctl.nowMs = s.ctl.nowMs ∧ t.ctl.blockCount = s.ctl.blockCount ∧
      t.ctl.chanId = s.ctl.chanId ∧ (t.ctl.chanKnown = true → s.ctl.chanKnown = true) ∧
      (∀ a : Nat, Memory.read t.mem a = Memory.read s.mem a) ∧
      t.io.bus = s.io.bus ∧ t.io.readData = s.io.readData

/-- R307, for legal commands: which command may set and which may clear each bit of `STATUS`. -/
def Obligations.CommandsChangeOnlyTheirStatusBits : Prop :=
  ∀ (i : Instr) (s t : State), exec i s = .next t →
    (t.flag .abort ≠ s.flag .abort →
      if t.flag .abort then i = .condRepair else i = .cycleBegin ∨ i = .reset) ∧
    (t.flag .illegal ≠ s.flag .illegal → t.flag .illegal = false ∧ i = .reset) ∧
    (t.flag .seqErr ≠ s.flag .seqErr →
      if t.flag .seqErr then i ≠ .nop ∧ i ≠ .cycleBegin ∧ i ≠ .reset else i = .reset) ∧
    (t.flag .shortRead ≠ s.flag .shortRead →
      if t.flag .shortRead then i = .condRepair else i = .reset) ∧
    (t.flag .repairOff ≠ s.flag .repairOff →
      if t.flag .repairOff then i = .condRepair else i = .reset) ∧
    (t.flag .gateFft ≠ s.flag .gateFft → i = .fftRun ∨ (t.flag .gateFft = false ∧ i = .reset)) ∧
    (t.flag .gateAgg ≠ s.flag .gateAgg → i = .agg16 ∨ (t.flag .gateAgg = false ∧ i = .reset)) ∧
    (t.flag .beatAccept ≠ s.flag .beatAccept →
      i = .beatTrack ∨ (t.flag .beatAccept = false ∧ i = .reset))

/-- R150, R151, R303: on a short read `COND_REPAIR` sets `ABORT` and `SHORT_READ`, makes `PHASE` 0 and changes
nothing else (whatever `RAW_IN` holds), and every later stage command of the cycle leaves that state as it is. -/
def Obligations.ShortReadAbortsTheCycle : Prop :=
  ∀ s : State, s.flag .abort = false → s.ctl.phase = 1#4 → s.ctl.blockCount.toNat < 512 →
    ∃ t, t = { s with ctl := { s.ctl with status := s.ctl.status ||| 0x09#8, phase := 0#4 } } ∧
      exec .condRepair s = .next t ∧
      ∀ i : Instr, i ≠ .nop → i ≠ .cycleBegin → i ≠ .reset → exec i t = .next t

/-! ### Host accesses -/

/-- R72: unmapped addresses and holes read 0 and ignore writes, writes to read-only words are ignored, `CMD` reads
0, and a read changes nothing of the AFE.  (That the word read appears in `io.readData` is the model's choice, log
entry 3.) -/
def Obligations.ReadsAndIgnoredWrites : Prop :=
  (∀ (s : State) (a : Nat), a % 4 = 0 → a < 65536 → inRegisterMap a = false → s.readWord a = 0#32) ∧
  (∀ s : State, s.readWord 0x000 = 0#32) ∧
  (∀ (s : State) (a : Addr) (rest : List HostOp), s.io.bus = .read a 4 :: rest → a.toNat % 4 = 0 →
    step s = .next { s with io := { s.io with bus := rest, readData := some (s.readWord a.toNat) } }) ∧
  (∀ (s : State) (io : Io) (a : Nat), State.readWord { s with io := io } a = s.readWord a) ∧
  (∀ (s : State) (a : Addr) (v : Word) (rest : List HostOp), s.io.bus = .write a 4 v :: rest →
    a.toNat % 4 = 0 → (inRegisterMap a.toNat = false ∨ readOnlyForHost a.toNat = true) →
    step s = .next { s with io := { s.io with bus := rest } })

/-- R77: an access of another width than 32 bits, or at an address that is no multiple of 4, is a host fault. -/
def Obligations.BusErrorsAreHostFaults : Prop :=
  ∀ (s : State) (a : Addr) (n : Nat) (v : Word) (rest : List HostOp),
    (s.io.bus = .read a n :: rest ∨ s.io.bus = .write a n v :: rest) →
    (n ≠ 4 → step s = .fault (.badWidth n)) ∧
    (n = 4 → a.toNat % 4 ≠ 0 → step s = .fault (.misaligned a))

/-- R41, R313: a write to `STATUS` clears each of the bits 1 to 4 whose written bit is 1 and changes nothing else. -/
def Obligations.StatusWriteClearsWrittenBits : Prop :=
  ∀ (s : State) (v : Word) (rest : List HostOp), s.io.bus = .write 0x0004#16 4 v :: rest →
    ∃ t, step s = .next t ∧
      (∀ n < 8, t.ctl.status.getLsbD n =
        (s.ctl.status.getLsbD n && !(decide (1 ≤ n ∧ n ≤ 4) && v.getLsbD n))) ∧
      t = { s with ctl := { s.ctl with status := t.ctl.status }, io := { s.io with bus := rest } }

/-- R46, R73: a write to a configuration register stores the written value truncated to the field's width, which is
then read back; no other word of the register space changes. -/
def Obligations.ConfigWritesAreTruncated : Prop :=
  ∀ (s : State) (v : Word) (rest : List HostOp),
    ∀ r ∈ [(0x040, 8), (0x044, 8), (0x048, 8), (0x04C, 2), (0x050, 1), (0x054, 16), (0x058, 16), (0x05C, 2),
      (0x060, 1), (0x064, 1), (0x068, 16), (0x06C, 16), (0x070, 16), (0x074, 8), (0x078, 8)],
    s.io.bus = .write (BitVec.ofNat 16 r.1) 4 v :: rest →
    ∃ t, step s = .next t ∧
      t.readWord r.1 = BitVec.ofNat 32 (v.toNat % 2 ^ r.2) ∧
      (∀ a : Nat, a % 4 = 0 → a ≠ r.1 → t.readWord a = s.readWord a) ∧
      t = { s with cfg := t.cfg, io := { s.io with bus := rest } }

/-- R43, R44, R45, R51, R73: writes to `NOW_MS`, `BLOCK_COUNT`, `CHAN_SEL` and `PEAK_FLAGS`. -/
def Obligations.ControlRegisterWrites : Prop :=
  ∀ (s : State) (v : Word) (rest : List HostOp),
    (s.io.bus = .write 0x000C#16 4 v :: rest →
      step s = .next { s with ctl := { s.ctl with nowMs := v }, io := { s.io with bus := rest } }) ∧
    (s.io.bus = .write 0x0010#16 4 v :: rest →
      step s = .next { s with ctl := { s.ctl with blockCount := v }, io := { s.io with bus := rest } }) ∧
    (s.io.bus = .write 0x0014#16 4 v :: rest →
      step s = .next { s with
        ctl := { s.ctl with
          chanId := BitVec.ofNat 8 (v.toNat % 256), chanKnown := decide (v.toNat / 256 % 2 = 1) }
        io := { s.io with bus := rest } }) ∧
    (s.io.bus = .write 0x0160#16 4 v :: rest →
      step s = .next { s with
        peak := { s.peak with extPeak := s.peak.extPeak && decide (v.toNat / 2 % 2 = 0) }
        io := { s.io with bus := rest } })

/-- R56, R73, R75: a write to `RAW_IN[i]` stores the word little-endian, is read back, changes no byte outside the
word, and keeps the canonical form of the storage (which every step keeps, `StepKeepsTheInvariant`). -/
def Obligations.RawInWritesOneWord : Prop :=
  ∀ (s : State) (i : Nat) (v : Word) (rest : List HostOp), Memory.wf s.mem = true → i < 512 →
    s.io.bus = .write (BitVec.ofNat 16 (0x1000 + 4 * i)) 4 v :: rest →
    ∃ t, step s = .next t ∧ t.readWord (0x1000 + 4 * i) = v ∧
      (∀ k < 4, Memory.read t.mem (0x1000 + 4 * i + k) = v.extractLsb' (8 * k) 8) ∧
      (∀ a : Nat, (a < 0x1000 + 4 * i ∨ 0x1000 + 4 * i + 4 ≤ a) →
        Memory.read t.mem a = Memory.read s.mem a) ∧
      Memory.wf t.mem = true ∧ t = { s with mem := t.mem, io := { s.io with bus := rest } }

/-- R41 to R46, R48 to R57, R71, R75, R76: every register and array element is read at its own address: the 32-bit
words and f32 patterns of the registers (a field narrower than its register with zeros above it), the bytes of
`FFT_RESULT` and of the `MRB_K` arrays at consecutive byte addresses, and `RAW_IN`, `VREAL` and `VIMAG`. -/
def Obligations.RegistersAndArraysReadInPlace : Prop :=
  ∀ s : State,
    (∀ r ∈ ([
        (0x004, BitVec.ofNat 32 s.ctl.status.toNat), (0x008, BitVec.ofNat 32 s.ctl.phase.toNat),
        (0x00C, s.ctl.nowMs), (0x010, s.ctl.blockCount),
        (0x014, BitVec.ofNat 32 (s.ctl.chanId.toNat + if s.ctl.chanKnown then 256 else 0)),
        (0x040, BitVec.ofNat 32 s.cfg.squelch.toNat), (0x044, BitVec.ofNat 32 s.cfg.inputLevel.toNat),
        (0x048, BitVec.ofNat 32 s.cfg.sampleGain.toNat), (0x04C, BitVec.ofNat 32 s.cfg.agcMode.toNat),
        (0x050, BitVec.ofNat 32 s.cfg.limiterEn.toNat), (0x054, BitVec.ofNat 32 s.cfg.attackMs.toNat),
        (0x058, BitVec.ofNat 32 s.cfg.decayMs.toNat), (0x05C, BitVec.ofNat 32 s.cfg.scaleMode.toNat),
        (0x060, BitVec.ofNat 32 s.cfg.bpfEn.toNat), (0x064, BitVec.ofNat 32 s.cfg.syncEn.toNat),
        (0x068, BitVec.ofNat 32 s.cfg.peakThresh.toNat), (0x06C, BitVec.ofNat 32 s.cfg.peakBin.toNat),
        (0x070, BitVec.ofNat 32 s.cfg.peakShowMs.toNat), (0x074, BitVec.ofNat 32 s.cfg.mrbStart.toNat),
        (0x078, BitVec.ofNat 32 s.cfg.mrbEnd.toNat)] : List (Nat × Word)),
      s.readWord r.1 = r.2) ∧
    (∀ r ∈ ([
        (0x100, s.vol.volumeSmoothed.bits), (0x104, BitVec.ofNat 32 s.vol.volumeRaw.toNat),
        (0x108, s.vol.magnitudeScaled.bits), (0x10C, s.vol.peakFrequency.bits), (0x110, s.vol.fftMagnitude.bits),
        (0x120, s.env.envRaw.bits), (0x124, s.env.dcLevel.bits), (0x128, s.env.envSmooth.bits),
        (0x12C, s.env.sampleMax.bits), (0x130, s.env.sampleRaw.bits), (0x134, s.env.sampleAvg.bits),
        (0x138, s.env.maxSample.bits),
        (0x140, s.agc.mult.bits), (0x144, s.agc.intErr.bits), (0x148, BitVec.ofNat 32 s.agc.lastPreset.toNat),
        (0x14C, s.agc.agcSample.bits), (0x150, s.agc.agcSmooth.bits), (0x154, s.agc.agcElapsed),
        (0x158, s.agc.volTarget.bits)] : List (Nat × Word)),
      s.readWord r.1 = r.2) ∧
    (∀ r ∈ ([
        (0x160, BitVec.ofNat 32 ((if s.peak.peakActive then 1 else 0) + if s.peak.extPeak then 2 else 0)),
        (0x164, s.peak.lastPeakMs),
        (0x170, s.beat.beatAvg.bits), (0x174, s.beat.lastBeatMs), (0x178, s.beat.intervalEst.bits),
        (0x17C, s.beat.meanInterval.bits), (0x180, s.beat.bpm.bits), (0x184, s.beat.thresholdAvg.bits),
        (0x188, s.beat.animDurationMs), (0x18C, if s.beat.beatValid then 1#32 else 0#32),
        (0x190, s.cond.lastGood.bits), (0x194, s.cond.badRun), (0x198, s.cond.lpfPrev.bits),
        (0x19C, s.cond.firH1.bits), (0x1A0, s.cond.firH2.bits), (0x1A4, s.cond.iirLp.bits)]
          : List (Nat × Word)),
      s.readWord r.1 = r.2) ∧
    (∀ c < 16, s.readByte (0x280 + c) = s.chan.fftResult.nth c) ∧
    (∀ j < 8, s.readByte (0x300 + j) = s.mrb.mrb8.nth j) ∧
    (∀ j < 16, s.readByte (0x308 + j) = s.mrb.mrb16.nth j) ∧
    (∀ j < 32, s.readByte (0x318 + j) = s.mrb.mrb32.nth j) ∧
    (∀ j < 64, s.readByte (0x338 + j) = s.mrb.mrb64.nth j) ∧
    (∀ j < 128, s.readByte (0x378 + j) = s.mrb.mrb128.nth j) ∧
    (∀ c < 16, s.readWord (0x200 + 4 * c) = (s.chan.fftCalc.nth c).bits) ∧
    (∀ c < 16, s.readWord (0x240 + 4 * c) = (s.chan.fftAvg.nth c).bits) ∧
    (∀ i < 512, ∀ k < 4, s.readByte (0x1000 + 4 * i + k) = Memory.read s.mem (0x1000 + 4 * i + k)) ∧
    (∀ i < 512, s.readWord (0x2000 + 4 * i) = (s.spec.vreal.nth i).bits) ∧
    (∀ i < 512, s.readWord (0x2800 + 4 * i) = (s.spec.vimag.nth i).bits)

/-- R330, R331: after power-on reset every word of the register space reads 0, but for `BPF_EN` (1), `PEAK_FREQUENCY`
and `MULT` (1.0); power-on at any time leaves exactly that in every register and array, whatever the state was.
(That power-on is one of the host's pending accesses, and that the list of the later ones is kept, is the model's
choice, log entry 13, and nothing of the hardware.) -/
def Obligations.ResetValues : Prop :=
  (∀ a : Nat, a < 65536 → a % 4 = 0 → State.reset.readWord a =
    if a = 0x060 then 1#32 else if a = 0x10C ∨ a = 0x140 then 0x3F800000#32 else 0#32) ∧
  (∀ (s : State) (rest : List HostOp), s.io.bus = .powerOn :: rest →
    ∃ t, step s = .next t ∧ t = { State.reset with io := t.io } ∧ t.io.bus = rest)

/-! ### Control commands -/

/-- R130: `NOP` changes nothing, in any phase and while aborted; a word with its opcode and another bit set raises
`IllegalCommand`: written to `CMD` it sets `STATUS.ILLEGAL` (bit 1) and changes nothing else. -/
def Obligations.NopDoesNothing : Prop :=
  decode 0x00000000#32 = .ok .nop ∧ (∀ s : State, exec .nop s = .next s) ∧
    (∀ w : Word, w.toNat / 2 ^ 24 = 0 → w ≠ 0#32 → (∃ e, decode w = .error e) ∧
      ∀ s : State, issue w s = .next { s with ctl := { s.ctl with status := s.ctl.status ||| 0x02#8 } })

/-- R131: `CYCLE_BEGIN` clears `STATUS.ABORT` and makes `PHASE` 1, in any phase and while aborted; issued twice, the
second changes nothing. -/
def Obligations.CycleBeginStartsACycle : Prop :=
  decode 0x01000000#32 = .ok .cycleBegin ∧
  ∀ s : State, ∃ t, t = { s with ctl := { s.ctl with status := s.ctl.status &&& 0xFE#8, phase := 1#4 } } ∧
    exec .cycleBegin s = .next t ∧ exec .cycleBegin t = .next t

/-- R132, R332: after `RESET` the host-written registers read as before and every other word reads its reset value,
in any phase and while aborted; the words of `STATUS`, `PHASE` and the rest follow. -/
def Obligations.ResetCommandKeepsHostRegisters : Prop :=
  decode 0x0F000000#32 = .ok .reset ∧
  ∀ s : State, ∃ t, exec .reset s = .next t ∧
    (∀ a : Nat, a % 4 = 0 → a < 65536 →
      t.readWord a = if hostWritten a then s.readWord a else State.reset.readWord a) ∧
    t = { State.reset with
      ctl := { State.reset.ctl with
        nowMs := s.ctl.nowMs, blockCount := s.ctl.blockCount, chanId := s.ctl.chanId,
        chanKnown := s.ctl.chanKnown }
      cfg := s.cfg, mem := s.mem, io := s.io }

/-! ### Conditioner -/

/-- R148, R149, R150, R152: `COND_REPAIR` on a full block, sample by sample.  `good i`, `run i` and `known i` are
`LAST_GOOD`, `BAD_RUN` and `CHAN_SEL.KNOWN` before sample `i`.  (A repaired sample is left as `settle` says: R305, the
model's choice of log entry 22 where the product overflows.) -/
def Obligations.CondRepairRepairsTheBlock : Prop :=
  decode 0x10000000#32 = .ok .condRepair ∧
  ∀ s : State, s.flag .abort = false → s.ctl.phase = 1#4 → 512 ≤ s.ctl.blockCount.toNat →
    let p := Config.params
    ∃ (t : State) (good : Nat → F32) (run : Nat → Word) (known : Nat → Bool),
      exec .condRepair s = .next t ∧
      good 0 = s.cond.lastGood ∧ run 0 = s.cond.badRun ∧ known 0 = s.ctl.chanKnown ∧
      (∀ i < 512,
        let r := s.rawIn i
        let tag := r.toNat / 2 ^ p.tagLo % 2 ^ p.tagBits
        let data := r.toNat / 2 ^ p.dataLo % 2 ^ p.dataBits
        let signed := F32.ofInt ((data : Int) - (2 ^ (p.dataBits - 1) : Nat))
        if known i = true ∧ tag ≠ s.ctl.chanId.toNat % 2 ^ p.tagBits then
          t.spec.vreal.nth i = settle [p.repairScale, good i] 0x2000 (p.repairScale.mul (good i)) ∧ good (i + 1) = good i ∧
            (if run i + 1#32 = 256#32 then run (i + 1) = 0#32 ∧ known (i + 1) = false
             else run (i + 1) = run i + 1#32 ∧ known (i + 1) = known i)
        else
          t.spec.vreal.nth i = signed ∧ good (i + 1) = signed ∧ run (i + 1) = 0#32 ∧
            known (i + 1) = known i) ∧
      t = { s with
        ctl := { s.ctl with
          phase := 2#4
          chanKnown := known 512
          status := if s.ctl.chanKnown = true ∧ known 512 = false then s.ctl.status ||| 0x10#8
            else s.ctl.status }
        cond := { s.cond with lastGood := good 512, badRun := run 512 }
        spec := { s.spec with vreal := t.spec.vreal } }

/-- R152, for every choice of parameters: a block whose samples all carry another tag is repaired for its first 256
samples; the run limit then clears `KNOWN`, sets `REPAIR_OFF`, and the other 256 samples are taken as good.  (A repaired
sample is left as `settle` says: log entry 22.) -/
def Obligations.RepairStopsAfterTheRunLimit : Prop :=
  ∀ (p : Params) (s : State), 512 ≤ s.ctl.blockCount.toNat → s.ctl.chanKnown = true →
    s.cond.badRun = 0#32 → (∀ i < 512, sampleTag p (s.rawIn i) ≠ s.ctl.chanId.toNat % 2 ^ p.tagBits) →
    let t := performCondRepair p s
    (∀ i < 256, t.spec.vreal.nth i =
        settle [p.repairScale, s.cond.lastGood] 0x2000 (p.repairScale.mul s.cond.lastGood)) ∧
      (∀ i, 256 ≤ i → i < 512 → t.spec.vreal.nth i = sampleSigned p (s.rawIn i)) ∧
      t.ctl.chanKnown = false ∧ t.cond.badRun = 0#32 ∧ t.flag .repairOff = true ∧
      t.cond.lastGood = sampleSigned p (s.rawIn 511)

/-- R155: `COND_NORM`, sample by sample: `x i` is the rescaled sample, blended 3:1 with the one before it.  (What
is left is `settle`d: R305, log entry 22.) -/
def Obligations.CondNormFiltersTheBlock : Prop :=
  decode 0x11000000#32 = .ok .condNorm ∧
  ∀ s : State, s.flag .abort = false → s.ctl.phase = 2#4 →
    let k := F32.ofRatio (2 ^ 10) (2 ^ Config.params.dataBits)
    let x := fun i => (s.spec.vreal.nth i).mul k
    let left := settle (s.cond.lpfPrev :: s.spec.vreal.elems)
    ∃ t, exec .condNorm s = .next t ∧
      (∀ i < 512, t.spec.vreal.nth i = left (0x2000 + 4 * i)
        ((((F32.ofNat 3).mul (x i)).add (if i = 0 then s.cond.lpfPrev else x (i - 1))).div (F32.ofNat 4))) ∧
      t = { s with
        ctl := { s.ctl with phase := 3#4 }
        cond := { s.cond with lpfPrev := left 0x198 (x 511) }
        spec := { s.spec with vreal := t.spec.vreal } }

/-- R160: `COND_BPF`: with the filter off only `PHASE` changes; with it on, the FIR of the sample and the two before
it (`u 0` and `u 1` being the history, `u (i + 2)` sample `i`), the moving average `lp`, and their difference.  (What is
left is `settle`d: R305, log entry 22.) -/
def Obligations.CondBpfFiltersTheBlock : Prop :=
  decode 0x12000000#32 = .ok .condBpf ∧
  ∀ s : State, s.flag .abort = false → s.ctl.phase = 3#4 →
    (s.cfg.bpfEn = 0#1 → exec .condBpf s = .next { s with ctl := { s.ctl with phase := 4#4 } }) ∧
    (s.cfg.bpfEn = 1#1 →
      let p := Config.params
      let u := fun i => if i = 0 then s.cond.firH2 else if i = 1 then s.cond.firH1 else s.spec.vreal.nth (i - 2)
      let f := fun i => ((p.bpfB0.mul (u (i + 2))).add (p.bpfB1.mul (u (i + 1)))).add (p.bpfB2.mul (u i))
      let left := settle ([p.bpfB0, p.bpfB1, p.bpfB2, s.cond.firH1, s.cond.firH2, s.cond.iirLp] ++ s.spec.vreal.elems)
      ∃ (t : State) (lp : Nat → F32), exec .condBpf s = .next t ∧
        lp 0 = s.cond.iirLp ∧
        (∀ i < 512, lp (i + 1) = (lp i).add ((F32.ofRatio 225 10000).mul ((f i).sub (lp i))) ∧
          t.spec.vreal.nth i = left (0x2000 + 4 * i) ((f i).sub (lp (i + 1)))) ∧
        t = { s with
          ctl := { s.ctl with phase := 4#4 }
          cond := { s.cond with firH1 := u 513, firH2 := u 512, iirLp := left 0x1A4 (lp 512) }
          spec := { s.spec with vreal := t.spec.vreal } })

/-- R165: `MAX_SAMPLE` becomes the greatest magnitude below `OUTLIER_LIMIT` in the block, or 0.0 where no such
magnitude is above 0; nothing else changes but `PHASE`. -/
def Obligations.CondMaxFindsTheLargest : Prop :=
  decode 0x13000000#32 = .ok .condMax ∧
  ∀ s : State, s.flag .abort = false → s.ctl.phase = 4#4 →
    let a := fun i => (s.spec.vreal.nth i).fabs
    ∃ (t : State) (m : F32), exec .condMax s = .next t ∧
      (∀ i < 512, (a i).lt Config.params.outlierLimit = true → (a i).le m = true) ∧
      (m = F32.zero ∨ ∃ i < 512, (a i).lt Config.params.outlierLimit = true ∧
        F32.zero.lt (a i) = true ∧ m = a i) ∧
      t = { s with ctl := { s.ctl with phase := 5#4 }, env := { s.env with maxSample := m } }

/-! ### Envelope, gain control, limiter -/

/-- R47, R239, R19: the preset of each `AGC_MODE`, the gain that the channels and bins are multiplied by, and the
wrapping elapsed time. -/
def Obligations.PresetGainAndElapsedTime : Prop :=
  (∀ p : Params, presetOf p 0#2 = p.presetNormal ∧ presetOf p 1#2 = p.presetNormal ∧
    presetOf p 2#2 = p.presetVivid ∧ presetOf p 3#2 = p.presetLazy) ∧
  (∀ s : State, s.channelGain =
    if s.cfg.agcMode = 0#2 then
      (((((F32.ofNat s.cfg.sampleGain.toNat).div (F32.ofNat 40)).mul (F32.ofNat s.cfg.inputLevel.toNat)).div
        (F32.ofNat 128)).add ⟨0x3D800000#32⟩)
    else s.agc.mult) ∧
  (∀ a b : Word, elapsed a b = (a.toNat + 2 ^ 32 - b.toNat) % 2 ^ 32)

/-- R180 to R184: `ENV_SAMPLE`, written in the order of R180's pseudocode; no other state changes, not even
`PHASE`.  (The condition of the fast recovery of `SAMPLE_MAX`, the second case, is R183's own reading "from general
knowledge, not in source": log entry 15.  What is left is `settle`d: R305, log entry 22.) -/
def Obligations.EnvSampleFollowsTheRule : Prop :=
  decode 0x20000000#32 = .ok .envSample ∧
  ∀ s : State, s.flag .abort = false → 5 ≤ s.ctl.phase.toNat →
    let p := Config.params
    let q := presetOf p s.cfg.agcMode
    let squelch := F32.ofNat s.cfg.squelch.toNat
    let x := s.env.maxSample
    let dc := s.env.dcLevel.add ((x.sub s.env.dcLevel).div (F32.ofNat 12288))
    let dc := if x.lt dc then dc.add ((x.sub dc).div p.dcFastDiv) else dc
    let raw := (x.sub dc).fabs
    let e := (((F32.ofRatio 2 10).mul raw).add ((F32.ofRatio 8 10).mul s.env.envSmooth)).fabs
    let gated := e.le squelch || (s.cfg.squelch == 0#8 && e.lt (F32.ofRatio 25 100))
    let raw := if gated then F32.zero else raw
    let e := if gated then F32.zero else e
    let g := ((((F32.ofNat s.cfg.sampleGain.toNat).div (F32.ofNat 40)).mul
      (F32.ofNat s.cfg.inputLevel.toNat)).div (F32.ofNat 128)).add (F32.ofRatio 625 10000)
    let sampleRaw := F32.fmin (F32.fmax (e.mul g) F32.zero) (F32.ofNat 255)
    let m := s.env.sampleMax
    let peak := if m.lt e && (F32.ofRatio 5 10).lt e then m.add ((F32.ofRatio 5 10).mul (e.sub m))
      else if s.cfg.agcMode != 0#2 && q.zoneStop.lt (s.agc.mult.mul m) then
        m.add ((F32.ofRatio 5 10).mul (e.sub m))
      else m.mul q.decay
    let avg := (((s.env.sampleAvg.mul (F32.ofNat 15)).add sampleRaw).div (F32.ofNat 16)).fabs
    let left := settle [x, s.env.dcLevel, s.env.envSmooth, m, s.env.sampleAvg, s.agc.mult, p.dcFastDiv, q.zoneStop,
      q.decay]
    exec .envSample s = .next { s with env := { s.env with
      dcLevel := left 0x124 dc
      envRaw := (left 0x120 raw).fabs
      envSmooth := (left 0x128 e).fabs
      sampleRaw := sampleRaw
      sampleMax := left 0x12C peak
      sampleAvg := (left 0x134 avg).fabs } }

/-- R190, R191, R196: `AGC_TICK` with AGC off: a preset change (to off) is noted and zeroes the integrator; apart from
that the controller's registers keep their values, and the volume outputs come from the unweighted path. -/
def Obligations.AgcOffPublishesTheUnweightedPath : Prop :=
  ∀ (s : State) (dt : Nat), s.flag .abort = false → 5 ≤ s.ctl.phase.toNat → s.cfg.agcMode = 0#2 →
    exec (.agcTick dt) s = .next { s with
      agc := { s.agc with
        intErr := if s.agc.lastPreset = 0#2 then s.agc.intErr else F32.zero
        lastPreset := 0#2
        volTarget := s.env.sampleAvg }
      vol := { s.vol with volumeRaw := BitVec.ofNat 8 s.env.sampleRaw.trunc } }

/-- R190 to R195, R197: `AGC_TICK dt` with AGC on, written in the order of R190's pseudocode.  (What is
left is `settle`d: R305, log entry 22.) -/
def Obligations.AgcTickFollowsTheRule : Prop :=
  (∀ dt < 65536, decode (BitVec.ofNat 32 (0x21000000 + dt)) = .ok (.agcTick dt)) ∧
  ∀ (s : State) (dt : Nat), s.flag .abort = false → 5 ≤ s.ctl.phase.toNat → s.cfg.agcMode ≠ 0#2 →
    let p := Config.params
    let q := presetOf p s.cfg.agcMode
    let env := s.env.envSmooth
    let pk := s.env.sampleMax
    let prev := s.agc.mult
    let int0 := if s.cfg.agcMode = s.agc.lastPreset then s.agc.intErr else F32.zero
    let el := min (s.agc.agcElapsed.toNat + dt) (2 ^ 32 - 1)
    let effective := 2 ≤ el
    let silence := env.lt p.agcSilEnv || pk.lt p.agcSilPeak
    let c := if silence then F32.zero
      else if (env.mul prev).le q.targetSwitch then q.target0.div pk else q.target1.div pk
    let c := F32.fmin (F32.fmax c (F32.ofRatio 1 64)) (F32.ofNat 32)
    let err := c.sub prev
    let bled := int0.mul (F32.ofRatio 91 100)
    let int1 := if silence then (if bled.fabs.lt (F32.ofRatio 1 100) then F32.zero else bled)
      else if q.zoneStop.lt (prev.mul pk) then int0.mul (F32.ofRatio 9 10)
      else int0.add ((err.mul (F32.ofRatio 2 1000)).mul (F32.ofRatio 25 100))
    let proj := env.mul prev
    let fr := if q.zoneHigh.lt proj || proj.lt ((F32.ofNat s.cfg.squelch.toNat).add q.zoneLow) then
      q.followFast else q.followSlow
    let nm := (prev.add ((fr.mul q.kp).mul err)).add ((fr.mul q.ki).mul int1)
    let mult := if effective then F32.fmin (F32.fmax nm (F32.ofRatio 1 64)) (F32.ofNat 32) else prev
    let a := if env.lt p.agcSilEnv then F32.zero else env.mul mult
    let a := F32.fmin (F32.fmax a F32.zero) (F32.ofNat 255)
    let sm := if a.fabs.lt F32.one then
        ((F32.ofRatio 5 10).mul a).add ((F32.ofRatio 5 10).mul s.agc.agcSmooth)
      else s.agc.agcSmooth.add (q.smooth.mul (a.sub s.agc.agcSmooth))
    let left := settle ([env, pk, prev, int0, s.agc.agcSmooth, p.agcSilEnv, p.agcSilPeak] ++
      [q.decay, q.zoneLow, q.zoneHigh, q.zoneStop, q.target0, q.target1, q.targetSwitch, q.followFast, q.followSlow,
        q.kp, q.ki, q.smooth])
    let sm := (left 0x150 sm.fabs).fabs
    exec (.agcTick dt) s = .next { s with
      agc := { s.agc with
        lastPreset := s.cfg.agcMode
        agcElapsed := if effective then 0#32 else BitVec.ofNat 32 el
        intErr := if effective then left 0x144 int1 else int0
        mult := mult
        agcSample := a
        agcSmooth := sm
        volTarget := sm }
      vol := { s.vol with volumeRaw := BitVec.ofNat 8 a.trunc } }

/-- R191: a tick after a change of `AGC_MODE` is the tick that finds the integrator at 0.0 and the new mode already
noted, whatever `dt` is and whether AGC is now on or off; a tick that is not effective leaves that 0.0. -/
def Obligations.PresetChangeResetsTheIntegrator : Prop :=
  ∀ (s : State) (dt : Nat), s.flag .abort = false → 5 ≤ s.ctl.phase.toNat →
    s.cfg.agcMode ≠ s.agc.lastPreset →
    exec (.agcTick dt) s = exec (.agcTick dt)
      { s with agc := { s.agc with intErr := F32.zero, lastPreset := s.cfg.agcMode } } ∧
    ∃ t, exec (.agcTick dt) s = .next t ∧ t.agc.lastPreset = s.cfg.agcMode ∧
      (s.agc.agcElapsed.toNat + dt < 2 → t.agc.intErr = F32.zero)

/-- R193, for every choice of parameters: with AGC on, a tick in silence never increases the magnitude of the
integrator, whatever `dt` and the preset. -/
def Obligations.SilenceNeverGrowsTheIntegrator : Prop :=
  ∀ (p : Params) (s : State) (dt : Nat), s.cfg.agcMode ≠ 0#2 → s.agc.intErr.isNaN = false →
    (s.env.envSmooth.lt p.agcSilEnv = true ∨ s.env.sampleMax.lt p.agcSilPeak = true) →
    (performAgcTick p dt s).agc.intErr.fabs.le s.agc.intErr.fabs = true

/-- R205: `LIMIT dt`, written in the order of R205's pseudocode; only `VOLUME_SMOOTHED` changes. -/
def Obligations.LimitFollowsTheRule : Prop :=
  (∀ dt < 65536, decode (BitVec.ofNat 32 (0x22000000 + dt)) = .ok (.limit dt)) ∧
  ∀ (s : State) (dt : Nat), s.flag .abort = false → 5 ≤ s.ctl.phase.toNat →
    let t := F32.ofNat (min (max dt 1) 1000)
    let tgt := s.agc.volTarget
    let cur := s.vol.volumeSmoothed
    let d := tgt.sub cur
    let up := (Config.params.limBigChange.mul t).div (F32.ofNat s.cfg.attackMs.toNat)
    let dn := (Config.params.limBigChange.mul t).div (F32.ofNat s.cfg.decayMs.toNat)
    let out :=
      if s.cfg.limiterEn = 0#1 then tgt
      else if F32.zero.lt d = true ∧ 0 < s.cfg.attackMs.toNat then
        (if up.lt d then cur.add up else tgt)
      else if d.lt F32.zero = true ∧ 0 < s.cfg.decayMs.toNat then
        (if d.lt dn.neg then cur.sub dn else tgt)
      else tgt
    exec (.limit dt) s = .next { s with vol := { s.vol with volumeSmoothed := out } }

/-- R206: the limiter's elapsed time is clamped to [1, 1000] ms: a `dt` of 0 acts as 1, one above 1000 as 1000; and
the limiter touches nothing but the published smoothed volume, in particular no spectrum channel. -/
def Obligations.LimiterElapsedTimeIsClamped : Prop :=
  ∀ (s : State) (dt : Nat), s.flag .abort = false → 5 ≤ s.ctl.phase.toNat →
    exec (.limit dt) s = exec (.limit (min (max dt 1) 1000)) s ∧
    ∃ t, exec (.limit dt) s = .next t ∧ t.chan = s.chan ∧ t.mrb = s.mrb ∧ t.spec = s.spec ∧
      t = { s with vol := { s.vol with volumeSmoothed := t.vol.volumeSmoothed } }

/-- R10 and R205, for every choice of parameters: with a positive `LIM_BIG_CHANGE` the limited volume never
overshoots its target: it stays between the present value and the target, in both directions. -/
def Obligations.LimiterNeverOvershoots : Prop :=
  ∀ (p : Params) (c : ConfigRegs) (dt : Nat) (tgt cur : F32), F32.zero.lt p.limBigChange = true →
    tgt.isFinite = true → cur.isFinite = true →
    (cur.le tgt = true → cur.le (limited p c dt tgt cur) = true ∧ (limited p c dt tgt cur).le tgt = true) ∧
    (tgt.le cur = true → tgt.le (limited p c dt tgt cur) = true ∧ (limited p c dt tgt cur).le cur = true)

/-! ### FFT engine -/

/-- R220 to R226: `FFT_RUN`.  With the gate open, the block without its mean, windowed, goes through `FFT_FN`; `mag k`
is the magnitude of bin `k`; some bin `k` of 1..255 is dominant, with no greater magnitude in 1..255 and none equal
before it (where every magnitude there is a NaN, R222 names no bin, and which one is taken is the model's free value,
log entry 8; that a NaN beside other magnitudes is passed over is DEDUCED, log entry 7; that `FS` and `FS / 2` are
f32 is DEDUCED, log entry 10).  With the gate closed the spectrum is zero and the neutral values are published.  (What is
left is `settle`d, from the values that the path computes from: R305, log entry 22.) -/
def Obligations.FftRunFollowsTheRule : Prop :=
  decode 0x30000000#32 = .ok .fftRun ∧
  ∀ s : State, s.flag .abort = false → s.ctl.phase = 5#4 →
    let p := Config.params
    let gate := p.fftGate.lt s.env.sampleAvg
    let mean := (((List.range 512).map s.spec.vreal.nth).foldl F32.add F32.zero).div (F32.ofNat 512)
    let x := Arr.tab 512 fun n => ((s.spec.vreal.nth n).sub mean).mul (p.window n)
    let z := p.fftFn x
    let mag := fun k => (((z k).1.mul (z k).1).add ((z k).2.mul (z k).2)).sqrt
    let left := settle (if gate then p.fftDownscale :: s.spec.vreal.elems ++ (List.range 512).map p.window ++
        (if x.elems.all F32.isFinite then (List.range 256).flatMap fun k => [(z k).1, (z k).2] else [])
      else [p.skipMag, p.fftDownscale])
    ∃ t, exec .fftRun s = .next t ∧
      (∀ i < 512, t.spec.vreal.nth i = left (0x2000 + 4 * i)
        ((if gate = true ∧ i < 256 then mag i else F32.zero).mul p.fftDownscale)) ∧
      (∀ i < 512, t.spec.vimag.nth i = F32.zero) ∧
      t.vol.magnitudeScaled = left 0x108 (t.vol.fftMagnitude.mul p.fftDownscale) ∧
      (gate = true → ∃ k, 1 ≤ k ∧ k ≤ 255 ∧ t.vol.fftMagnitude = left 0x110 (mag k) ∧
        t.vol.peakFrequency = F32.fmin (F32.fmax (((F32.ofNat k).mul p.fs).div (F32.ofNat 512)) F32.one)
          (p.fs.div (F32.ofNat 2)) ∧
        ((∃ j, 1 ≤ j ∧ j ≤ 255 ∧ (mag j).isNaN = false) → (mag k).isNaN = false ∧
          ∀ j, 1 ≤ j → j ≤ 255 → (mag j).isNaN = false →
            (mag j).le (mag k) = true ∧ (j < k → (mag j).lt (mag k) = true))) ∧
      (gate = false → t.vol.fftMagnitude = left 0x110 p.skipMag ∧ t.vol.peakFrequency = F32.one ∧ t.io = s.io) ∧
      t = { s with
        ctl := { s.ctl with
          phase := 6#4
          status := if gate then s.ctl.status ||| 0x20#8 else s.ctl.status &&& 0xDF#8 }
        spec := t.spec
        vol := { s.vol with
          fftMagnitude := t.vol.fftMagnitude, peakFrequency := t.vol.peakFrequency,
          magnitudeScaled := t.vol.magnitudeScaled }
        io := { s.io with freeCount := t.io.freeCount } }

/-! ### Aggregator, scaling, binner -/

/-- R238: the band mean is the f32 sum of bins lo..hi in index order, from 0.0, over their number. -/
def Obligations.BandMeanIsTheRule : Prop :=
  ∀ (v : Arr F32 512) (lo hi : Nat), lo ≤ hi → hi < 512 →
    ∃ acc : Nat → F32, acc 0 = F32.zero ∧
      (∀ n, n < hi - lo + 1 → acc (n + 1) = (acc n).add (v.nth (lo + n))) ∧
      bandMean v lo hi = (acc (hi - lo + 1)).div (F32.ofNat (hi - lo + 1))

/-- R240 to R244, R247: `AGG16`, channel by channel; every operation is R17's, so a product that overflows is an infinity
and the clamp makes it 1023.0. -/
def Obligations.AggregatorFollowsTheRule : Prop :=
  decode 0x40000000#32 = .ok .agg16 ∧
  ∀ s : State, s.flag .abort = false → s.ctl.phase = 6#4 →
    let p := Config.params
    let gate := p.aggGate.lt s.env.sampleAvg
    let edges := if s.cfg.bpfEn = 1#1 then p.edgesBpf else p.edgesNobpf
    let mean := fun c => bandMean s.spec.vreal (edges c).lo (edges c).hi
    let damped := fun c => if c = 15 then (mean c).mul p.band15Damp else mean c
    let opened := fun c => F32.fmin (F32.fmax ((((damped c).mul (p.pink c)).mul p.windowComp).mul
      s.channelGain) F32.zero) (F32.ofNat 1023)
    let decayed := fun c => (s.chan.fftCalc.nth c).mul (F32.ofRatio 85 100)
    let fall := if s.cfg.decayMs.toNat < 1000 then F32.ofRatio 22 100
      else if s.cfg.decayMs.toNat < 2000 then F32.ofRatio 17 100
      else if s.cfg.decayMs.toNat < 3000 then F32.ofRatio 14 100 else F32.ofRatio 1 10
    ∃ t, exec .agg16 s = .next t ∧
      (∀ c < 16, t.chan.fftCalc.nth c =
        if gate then opened c else if (decayed c).lt p.chSnap then F32.zero else decayed c) ∧
      (∀ c < 16,
        let x := t.chan.fftCalc.nth c
        let avg := s.chan.fftAvg.nth c
        let w := if avg.lt x then F32.ofRatio 75 100 else fall
        t.chan.fftAvg.nth c =
          F32.fmin (F32.fmax (avg.add (w.mul (x.sub avg))) F32.zero) (F32.ofNat 1023)) ∧
      t = { s with
        ctl := { s.ctl with
          phase := 7#4
          status := if gate then s.ctl.status ||| 0x40#8 else s.ctl.status &&& 0xBF#8 }
        chan := { s.chan with fftCalc := t.chan.fftCalc, fftAvg := t.chan.fftAvg } }

/-- R250, R252, R253: the scaling function, mode by mode, for every choice of parameters. -/
def Obligations.ScaleFollowsTheCurves : Prop :=
  ∀ (p : Params) (c : ConfigRegs) (v : F32) (i : Nat),
    let r1 := (v.mul (F32.ofRatio 42 100)).sub (F32.ofNat 8)
    let r1 := if F32.one.lt r1 then p.lnFn r1 else F32.zero
    let r1 := r1.mul ((F32.ofRatio 85 100).add ((F32.ofNat i).div (F32.ofNat 18)))
    let r1 := F32.mapf r1 F32.zero ⟨0x40B15208#32⟩ F32.zero (F32.ofNat 255)
    let r2 := (v.mul (F32.ofRatio 30 100)).sub (F32.ofNat 4)
    let r2 := if r2.lt F32.one then F32.zero else r2
    let r2 := r2.mul ((F32.ofRatio 85 100).add ((F32.ofNat i).div (F32.ofRatio 18 10)))
    let r3 := (v.mul (F32.ofRatio 38 100)).sub (F32.ofNat 6)
    let r3 := if F32.one.lt r3 then r3.sqrt else F32.zero
    let r3 := r3.mul ((F32.ofRatio 85 100).add ((F32.ofNat i).div (F32.ofRatio 45 10)))
    let r3 := F32.mapf r3 F32.zero (F32.ofNat 16) F32.zero (F32.ofNat 255)
    let r := if c.scaleMode = 0#2 then v.sub p.mode0Offset
      else if c.scaleMode = 1#2 then r1 else if c.scaleMode = 2#2 then r2 else r3
    let r := if c.agcMode = 0#2 then r else r.mul (p.postGain c.inputLevel.toNat)
    let r := F32.fmin (F32.fmax r F32.zero) (F32.ofNat 1023)
    scale p c v i = BitVec.ofNat 8 (min ((r.mul (F32.ofNat 255)).div (F32.ofNat 1023)).trunc 255)

/-- R255, R262: `SCALE16` scales the smoothed channels when `LIMITER_EN` = 1, else the raw ones; only `FFT_RESULT`
and `PHASE` change. -/
def Obligations.ScaleCommandScalesTheChannels : Prop :=
  decode 0x41000000#32 = .ok .scale16 ∧
  ∀ s : State, s.flag .abort = false → s.ctl.phase = 7#4 →
    ∃ t, exec .scale16 s = .next t ∧
      (∀ c < 16, t.chan.fftResult.nth c = scale Config.params s.cfg
        (if s.cfg.limiterEn = 1#1 then s.chan.fftAvg.nth c else s.chan.fftCalc.nth c) c) ∧
      t = { s with
        ctl := { s.ctl with phase := 8#4 }, chan := { s.chan with fftResult := t.chan.fftResult } }

/-- R255's corner case, for every choice of parameters: a channel value of 0.0 gives byte 0 in the modes 1 to 3. -/
def Obligations.ZeroInputGivesByteZero : Prop :=
  ∀ (p : Params) (c : ConfigRegs) (i : Nat), i < 16 → c.scaleMode ≠ 0#2 → scale p c F32.zero i = 0#8

/-- R238, R239, R270, R272: `BINNER K`, for each K, output by output; only the one array changes.  (With `MRB_END` at
most `MRB_START` the outputs differ by their curves, after R270's pseudocode and R272 and against R270's corner-case
sentence that all of them are equal: DEDUCED, log entry 14.) -/
def Obligations.BinnersFollowTheRule : Prop :=
  decode 0x42030000#32 = .ok .binner8 ∧ decode 0x42040000#32 = .ok .binner16 ∧
  decode 0x42050000#32 = .ok .binner32 ∧ decode 0x42060000#32 = .ok .binner64 ∧
  decode 0x42070000#32 = .ok .binner128 ∧
  ∀ s : State, s.flag .abort = false → 6 ≤ s.ctl.phase.toNat →
    let p := Config.params
    let lo := fun k j => logEdge k (max s.cfg.mrbStart.toNat 1)
      (min (max s.cfg.mrbEnd.toNat (max s.cfg.mrbStart.toNat 1)) 255) j
    let hi := fun k j => if j = k - 1 then min (max s.cfg.mrbEnd.toNat (max s.cfg.mrbStart.toNat 1)) 255
      else max (lo k j) (lo k (j + 1) - 1)
    let v := fun k j => F32.fmin (F32.fmax (((bandMean s.spec.vreal (lo k j) (hi k j)).mul p.windowComp).mul
      s.channelGain) F32.zero) (F32.ofNat 1023)
    let out := fun k j => scale p s.cfg (v k j) (j * 16 / k)
    (∃ t, exec .binner8 s = .next t ∧ (∀ j < 8, t.mrb.mrb8.nth j = out 8 j) ∧
      t = { s with mrb := { s.mrb with mrb8 := t.mrb.mrb8 } }) ∧
    (∃ t, exec .binner16 s = .next t ∧ (∀ j < 16, t.mrb.mrb16.nth j = out 16 j) ∧
      t = { s with mrb := { s.mrb with mrb16 := t.mrb.mrb16 } }) ∧
    (∃ t, exec .binner32 s = .next t ∧ (∀ j < 32, t.mrb.mrb32.nth j = out 32 j) ∧
      t = { s with mrb := { s.mrb with mrb32 := t.mrb.mrb32 } }) ∧
    (∃ t, exec .binner64 s = .next t ∧ (∀ j < 64, t.mrb.mrb64.nth j = out 64 j) ∧
      t = { s with mrb := { s.mrb with mrb64 := t.mrb.mrb64 } }) ∧
    (∃ t, exec .binner128 s = .next t ∧ (∀ j < 128, t.mrb.mrb128.nth j = out 128 j) ∧
      t = { s with mrb := { s.mrb with mrb128 := t.mrb.mrb128 } })

/-- R271: `LOGEDGE(K, S, T, j)` is the floor of `S × (T / S)^(j / K)` in exact arithmetic: its K-th power is the
greatest below `S^(K−j) × T^j`; j = 0 gives S and j = K gives T. -/
def Obligations.LogEdgeIsExact : Prop :=
  ∀ k ∈ [8, 16, 32, 64, 128], ∀ lo hi j : Nat, 1 ≤ lo → lo ≤ hi → hi ≤ 255 → j ≤ k →
    (logEdge k lo hi j) ^ k ≤ lo ^ (k - j) * hi ^ j ∧
      lo ^ (k - j) * hi ^ j < (logEdge k lo hi j + 1) ^ k ∧
      logEdge k lo hi 0 = lo ∧ logEdge k lo hi k = hi

/-- R270: for every configuration the bands of `BINNER K` start at S, end at T, never include bin 0 or a bin above
255, leave no bin out, and with `MRB_END` ≤ `MRB_START` are all the single bin S. -/
def Obligations.BinnerBandsCoverTheRange : Prop :=
  ∀ (c : ConfigRegs), ∀ k ∈ [8, 16, 32, 64, 128], ∀ j < k,
    let first := max c.mrbStart.toNat 1
    let last := min (max c.mrbEnd.toNat first) 255
    (binBand c k 0).lo = first ∧ (binBand c k (k - 1)).hi = last ∧
      first ≤ (binBand c k j).lo ∧ (binBand c k j).lo ≤ (binBand c k j).hi ∧ (binBand c k j).hi ≤ last ∧
      (j + 1 < k → (binBand c k (j + 1)).lo ≤ (binBand c k j).hi + 1) ∧
      (c.mrbEnd.toNat ≤ c.mrbStart.toNat →
        (binBand c k j).lo = first ∧ (binBand c k j).hi = first)

/-! ### Detectors -/

/-- R280, R281: `PEAK_DETECT` fires exactly under its five conditions, and then sets both flags and the time. -/
def Obligations.PeakDetectFollowsTheRule : Prop :=
  decode 0x50000000#32 = .ok .peakDetect ∧
  ∀ s : State, s.flag .abort = false → 6 ≤ s.ctl.phase.toNat →
    exec .peakDetect s = .next
      (if F32.one.lt s.env.sampleAvg = true ∧ s.cfg.peakThresh ≠ 0#16 ∧ s.cfg.peakBin.toNat < 256 ∧
          (F32.ofNat s.cfg.peakThresh.toNat).lt (s.spec.vreal.nth s.cfg.peakBin.toNat) = true ∧
          100 ≤ (s.ctl.nowMs - s.peak.lastPeakMs).toNat then
        { s with peak := { peakActive := true, extPeak := true, lastPeakMs := s.ctl.nowMs } }
      else s)

/-- R282: `PEAK_RESET` ends an active peak once the show delay (at least 50 ms) is over, and the external peak with it
unless `SYNC_EN` = 1. -/
def Obligations.PeakResetFollowsTheRule : Prop :=
  decode 0x51000000#32 = .ok .peakReset ∧
  ∀ s : State, s.flag .abort = false → 1 ≤ s.ctl.phase.toNat →
    exec .peakReset s = .next
      (if s.peak.peakActive = true ∧
          max s.cfg.peakShowMs.toNat 50 ≤ (s.ctl.nowMs - s.peak.lastPeakMs).toNat then
        { s with peak := { s.peak with
            peakActive := false, extPeak := s.peak.extPeak && s.cfg.syncEn == 1#1 } }
      else s)

/-- R285 to R288: `BEAT_TRACK`, written in the order of R285's pseudocode.  (What is left is `settle`d: R305, log
entry 22.) -/
def Obligations.BeatTrackFollowsTheRule : Prop :=
  decode 0x52000000#32 = .ok .beatTrack ∧
  ∀ s : State, s.flag .abort = false → s.ctl.phase = 8#4 →
    let p := Config.params
    let b := s.beat
    let x := F32.ofNat (s.chan.fftResult.nth 0).toNat
    let avg := b.beatAvg.add ((F32.ofRatio 1 100).mul (x.sub b.beatAvg))
    let thr := avg.mul p.beatRatio
    let el := (s.ctl.nowMs - b.lastBeatMs).toNat
    let cand := b.intervalEst.lt (F32.ofNat el) && F32.zero.lt avg && thr.lt x
    let acc := cand && decide (426 ≤ el ∧ el ≤ 600)
    let mean := if b.beatValid then
        b.meanInterval.add ((F32.ofRatio 1 10).mul ((F32.ofNat el).sub b.meanInterval))
      else F32.ofNat el
    let left := settle [b.beatAvg, b.intervalEst, b.meanInterval, p.beatRatio, p.beatEstFrac]
    exec .beatTrack s = .next { s with
      ctl := { s.ctl with
        status := if acc then s.ctl.status ||| 0x80#8 else s.ctl.status &&& 0x7F#8 }
      beat := { b with
        beatAvg := left 0x170 avg
        thresholdAvg := left 0x184 thr
        lastBeatMs := if cand then s.ctl.nowMs else b.lastBeatMs
        meanInterval := if acc then left 0x17C mean else b.meanInterval
        beatValid := b.beatValid || acc
        bpm := if acc then left 0x180 ((F32.ofNat 60000).div mean) else b.bpm
        intervalEst := if acc then left 0x178 (mean.mul p.beatEstFrac) else b.intervalEst
        animDurationMs := if acc then BitVec.ofNat 32 mean.trunc else b.animDurationMs } }

/-! ### Host duties and readers -/

/-- R107, R108: `CATCHUP late` is floor(min(late, 200) / 2) pairs `ENV_SAMPLE`, `AGC_TICK 2`, and the cycle a host
issues has it between `AGC_TICK dt` and `LIMIT dt` exactly when `dt` exceeds the period by more than 2. -/
def Obligations.CatchupExpandsToPairs : Prop :=
  (∀ late : Nat, (catchup late).length = 2 * (min late 200 / 2) ∧
    (∀ n, n < min late 200 / 2 → (catchup late)[2 * n]? = some .envSample ∧
      (catchup late)[2 * n + 1]? = some (.agcTick 2))) ∧
  (∀ (p : Params) (dt : Nat), hostCycle p dt =
    ([.cycleBegin, .condRepair, .condNorm, .condBpf, .condMax, .envSample, .agcTick dt] : List Instr)
      ++ (if p.cyclePeriodMs + 2 < dt then catchup (dt - p.cyclePeriodMs) else [])
      ++ ([.limit dt, .fftRun, .agg16, .scale16, .binner8, .binner16, .binner32, .binner64, .binner128,
        .peakDetect, .peakReset, .beatTrack] : List Instr))

/-- R78, R83: a reader's read of a word gives the word of one state of the history, no earlier than its last read of
that word, and leaves it free to pick any admitted state for every other word (what a reader is, is the model's
choice, log entry 4). -/
def Obligations.ReaderNeverGoesBackward : Prop :=
  ∀ (history : List State) (r : Reader) (a pick : Nat),
    (∀ (w : Word) (r' : Reader), Reader.read history r a pick = some (w, r') →
      r.floor a ≤ pick ∧ r'.floor a = pick ∧ (∀ b, b ≠ a → r'.floor b = r.floor b) ∧
        ∃ s, history[pick]? = some s ∧ w = s.readWord a) ∧
    (a % 4 = 0 → a < 65536 → r.floor a ≤ pick → pick < history.length →
      ∃ w r', Reader.read history r a pick = some (w, r'))

/-! ### Invariants -/

/-- R42, R49, R50, R53, R54, R56, R57, R165, R180, R184, R190, R197, R220, R303: every step keeps `Inv`, from every
state that has it.  (The clauses on signs hold also of a NaN because `fabs` clears a NaN's sign: DEDUCED, log entry
6.) -/
def Obligations.StepKeepsTheInvariant : Prop :=
  ∀ s t : State, Inv s → step s = .next t → Inv t

/-- R285, R288: every step keeps the bounds of the beat tracker, from every state that has them. -/
def Obligations.StepKeepsTheBeatBounds : Prop :=
  ∀ s t : State, BeatInv s → step s = .next t → BeatInv t

/-- R330, R333: the state after reset has both invariants. -/
def Obligations.ResetMeetsTheInvariants : Prop := Inv State.reset ∧ BeatInv State.reset

/-! ### Arithmetic -/

/-- R8, R9, R17, R250: the numeric constants of the rules, each the binary32 pattern nearest to its decimal value. -/
def Obligations.ConstantsAreNearest : Prop :=
    Const.bpfAlpha.bits = 0x3CB851EC#32 ∧
    Const.dcTau.bits = 0x46400000#32 ∧
    Const.envWeight.bits = 0x3E4CCCCD#32 ∧
    Const.envKeep.bits = 0x3F4CCCCD#32 ∧
    Const.squelchEps.bits = 0x3E800000#32 ∧
    Const.gainFloor.bits = 0x3D800000#32 ∧
    Const.half.bits = 0x3F000000#32 ∧
    Const.agcBleed.bits = 0x3F68F5C3#32 ∧
    Const.agcSnap.bits = 0x3C23D70A#32 ∧
    Const.agcInt1.bits = 0x3B03126F#32 ∧
    Const.agcInt2.bits = 0x3E800000#32 ∧
    Const.agcAntiWindup.bits = 0x3F666666#32 ∧
    Const.multMin.bits = 0x3C800000#32 ∧
    Const.multMax.bits = 0x42000000#32 ∧
    Const.chDecay.bits = 0x3F59999A#32 ∧
    Const.riseW.bits = 0x3F400000#32 ∧
    Const.fall1.bits = 0x3E6147AE#32 ∧
    Const.fall2.bits = 0x3E2E147B#32 ∧
    Const.fall3.bits = 0x3E0F5C29#32 ∧
    Const.fall4.bits = 0x3DCCCCCD#32 ∧
    Const.mode1Slope.bits = 0x3ED70A3D#32 ∧
    Const.mode2Slope.bits = 0x3E99999A#32 ∧
    Const.mode3Slope.bits = 0x3EC28F5C#32 ∧
    Const.mode2Div.bits = 0x3FE66666#32 ∧
    Const.mode3Div.bits = 0x40900000#32 ∧
    Const.logHi.bits = 0x40B15208#32 ∧
    Const.beatAvgW.bits = 0x3C23D70A#32 ∧
    Const.beatMeanW.bits = 0x3DCCCCCD#32 ∧
    Const.f1023.bits = 0x447FC000#32 ∧
    Const.f60000.bits = 0x476A6000#32 ∧
    Const.f255.bits = 0x437F0000#32

/-- R17: the sum of finite operands is finite exactly when the exact sum is below the rounding boundary of the greatest
finite value, and an infinity beyond it; it has the sign of the exact sum, and a sum of exactly zero is -0.0 only of two
negative operands; where it is finite it is the binary32 value nearest to the exact sum, ties to the even significand.
Values are in units of 2^-149. -/
def Obligations.AdditionRoundsToNearest : Prop :=
  ∀ a b : F32, a.isFinite = true → b.isFinite = true →
    let exact := a.value + b.value
    let err := fun y : F32 => (y.value - exact).natAbs
    ((a.add b).isFinite = true ↔ 2 * exact.natAbs < (2 ^ 25 - 1) * 2 ^ 253) ∧ (a.add b).isNaN = false ∧
    ((a.add b).sign = if exact = 0 then a.sign && b.sign else decide (exact < 0)) ∧
    ((a.add b).isFinite = true → ∀ x : F32, x.isFinite = true →
      err (a.add b) ≤ err x ∧
        (x.value ≠ (a.add b).value → err (a.add b) = err x → (a.add b).bits.toNat % 2 = 0))

/-- R17: the product of finite operands is finite exactly when the exact product is below the rounding boundary of the
greatest finite value, and an infinity beyond it; it is negative exactly when one operand is; where it is finite it is
the binary32 value nearest to the exact product, ties to the even significand. -/
def Obligations.MultiplicationRoundsToNearest : Prop :=
  ∀ a b : F32, a.isFinite = true → b.isFinite = true →
    let exact := a.value * b.value
    let err := fun y : F32 => (y.value * 2 ^ 149 - exact).natAbs
    ((a.mul b).isFinite = true ↔ 2 * exact.natAbs < (2 ^ 25 - 1) * 2 ^ 253 * 2 ^ 149) ∧
    (a.mul b).sign = (a.sign != b.sign) ∧ (a.mul b).isNaN = false ∧
    ((a.mul b).isFinite = true → ∀ x : F32, x.isFinite = true →
      err (a.mul b) ≤ err x ∧
        (x.value ≠ (a.mul b).value → err (a.mul b) = err x → (a.mul b).bits.toNat % 2 = 0))

/-- R17: the quotient of finite operands, the divisor not zero, is finite exactly when the exact quotient is below the
rounding boundary of the greatest finite value, and an infinity beyond it; it is negative exactly when one operand is;
where it is finite it is the binary32 value nearest to the exact quotient, ties to the even significand (distances
multiplied by the divisor). -/
def Obligations.DivisionRoundsToNearest : Prop :=
  ∀ a b : F32, a.isFinite = true → b.isFinite = true → b.isZero = false →
    let err := fun y : F32 => (y.value * b.value - a.value * 2 ^ 149).natAbs
    ((a.div b).isFinite = true ↔ 2 * (a.value * 2 ^ 149).natAbs < (2 ^ 25 - 1) * 2 ^ 253 * b.value.natAbs) ∧
    (a.div b).sign = (a.sign != b.sign) ∧ (a.div b).isNaN = false ∧
    ((a.div b).isFinite = true → ∀ x : F32, x.isFinite = true →
      err (a.div b) ≤ err x ∧
        (x.value ≠ (a.div b).value → err (a.div b) = err x → (a.div b).bits.toNat % 2 = 0))

/-- R18: the square root of a finite positive value is the binary32 value nearest to the exact root: the midpoint
between it and any other non-negative value lies on that other value's side of the root. -/
def Obligations.SquareRootRoundsToNearest : Prop :=
  ∀ a x : F32, a.isFinite = true → a.sign = false → x.isFinite = true → x.sign = false →
    a.sqrt.isFinite = true ∧ a.sqrt.sign = false ∧
    (x.scaled < a.sqrt.scaled → (x.scaled + a.sqrt.scaled) ^ 2 ≤ 4 * (a.scaled * 2 ^ 149)) ∧
    (a.sqrt.scaled < x.scaled → 4 * (a.scaled * 2 ^ 149) ≤ (x.scaled + a.sqrt.scaled) ^ 2)

/-- R18, R24, R305: no command produces a non-finite value from finite inputs and finite parameters, R148 bounding the
width of a sample and R10 the sign of `LIM_BIG_CHANGE`; `settle`, through which a command leaves a value, leaves every finite value and every value with a
non-finite input as it is computed, and else some finite value, with the sign of an infinity (which one, the model
leaves free: DESIGN CHOICE, log entry 22); the fixed points of the special values; and what IEEE 754 gives for
infinities, division by zero and the root of a negative value.  (That the absolute value of a NaN keeps its payload is
log entry 6; only that it is a NaN is stated.) -/
def Obligations.SpecialValuesFollowTheRule : Prop :=
  (∀ (i : Instr) (s : State), exec i s = command i (performWith Config.params i) s) ∧
  (∀ (p : Params) (i : Instr) (s : State), p.dataBits ≤ 24 → F32.zero.lt p.limBigChange = true →
    ParamsFinite p → s.AllFinite → (performWith p i s).AllFinite) ∧
  (∀ (inputs : List F32) (a : Nat) (x : F32),
    if x.isFinite = true ∨ ∃ y ∈ inputs, y.isFinite = false then settle inputs a x = x
    else (settle inputs a x).isFinite = true ∧ (x.isInf = true → (settle inputs a x).sign = x.sign)) ∧
  (∀ x y : F32, x.isNaN = true ∨ y.isNaN = true →
    x.lt y = false ∧ x.le y = false ∧ x.feq y = false ∧ x.add y = ⟨0x7FC00000#32⟩ ∧
      x.sub y = ⟨0x7FC00000#32⟩ ∧ x.mul y = ⟨0x7FC00000#32⟩ ∧ x.div y = ⟨0x7FC00000#32⟩) ∧
  (∀ x y : F32, x.isNaN = true → y.isNaN = false →
    x.fmax y = y ∧ y.fmax x = y ∧ x.fmin y = y ∧ y.fmin x = y) ∧
  (∀ x lo hi : F32, x.isNaN = true → lo.lt hi = true → x.clamp lo hi = lo) ∧
  (∀ x : F32, x.isNaN = true → x.trunc = 0 ∧ x.fabs.isNaN = true ∧ x.sqrt = ⟨0x7FC00000#32⟩) ∧
  (∀ x : F32, x.sign = true ∨ (⟨0x4F000000#32⟩ : F32).le x = true → x.trunc = 0) ∧
  (∀ x : F32, x.sign = false → x.lt ⟨0x4F000000#32⟩ = true →
    x.trunc * 2 ^ 149 ≤ x.scaled ∧ x.scaled < (x.trunc + 1) * 2 ^ 149) ∧
  (∀ x y : F32, x.isInf = true → y.isFinite = true →
    x.add y = x ∧ y.add x = x ∧ (x.mul y).isNaN = y.isZero ∧ (y.isZero = false → (x.mul y).isInf = true) ∧
      x.mul y = y.mul x ∧ (x.div y).isInf = true ∧ (y.div x).isZero = true ∧
      (y.isZero = false → (x.mul y).sign = (x.sign != y.sign)) ∧
      (x.div y).sign = (x.sign != y.sign) ∧ (y.div x).sign = (y.sign != x.sign)) ∧
  (∀ x y : F32, x.isInf = true → y.isInf = true →
    x.add y = (if x.sign = y.sign then x else ⟨0x7FC00000#32⟩) ∧ x.div y = ⟨0x7FC00000#32⟩ ∧
      (x.mul y).isInf = true ∧ (x.mul y).sign = (x.sign != y.sign)) ∧
  (∀ x y : F32, x.isFinite = true → y.isZero = true →
    if x.isZero = true then x.div y = ⟨0x7FC00000#32⟩
    else (x.div y).isInf = true ∧ (x.div y).sign = (x.sign != y.sign)) ∧
  (∀ x : F32, x.isNaN = false → x.sign = true →
    x.sqrt = if x.isZero = true then x else ⟨0x7FC00000#32⟩) ∧
  F32.sqrt ⟨0x7F800000#32⟩ = ⟨0x7F800000#32⟩ ∧
  F32.fmax ⟨0x80000000#32⟩ ⟨0x00000000#32⟩ = ⟨0x00000000#32⟩ ∧
  F32.fmax ⟨0x00000000#32⟩ ⟨0x80000000#32⟩ = ⟨0x00000000#32⟩ ∧
  F32.fmin ⟨0x80000000#32⟩ ⟨0x00000000#32⟩ = ⟨0x80000000#32⟩ ∧
  F32.fmin ⟨0x00000000#32⟩ ⟨0x80000000#32⟩ = ⟨0x80000000#32⟩

/-- R14, R17, R18, R148: what the operations other than `+ × / sqrt` answer on ordinary operands.  Comparisons are those
of the values, an infinity lying beyond every finite value; `fmin` and `fmax` answer the smaller and the larger operand;
`fabs` clears the sign; subtraction adds the negated operand; `clamp` and `mapf` are R18's formulas; a natural number or
an integer becomes the binary32 value nearest to it, ties to even, hence itself up to 2^24.  An integer
beyond the finite values, which the AFE has none of, becomes an infinity. -/
def Obligations.ComparisonsAndConversionsFollowTheRule : Prop :=
  let nearest := fun (r : F32) (z : Int) =>
    let err := fun y : F32 => (y.value - z * 2 ^ 149).natAbs
    (r.isFinite = true ↔ 2 * (z * 2 ^ 149).natAbs < (2 ^ 25 - 1) * 2 ^ 253) ∧
      r.isNaN = false ∧ r.sign = decide (z < 0) ∧
      (z.natAbs ≤ 2 ^ 24 → r.value = z * 2 ^ 149) ∧
      (r.isFinite = true → ∀ x : F32, x.isFinite = true →
        err r ≤ err x ∧ (x.value ≠ r.value → err r = err x → r.bits.toNat % 2 = 0))
  (∀ x y : F32, x.isFinite = true → y.isFinite = true →
    x.lt y = decide (x.value < y.value) ∧ x.le y = decide (x.value ≤ y.value) ∧
      x.feq y = decide (x.value = y.value) ∧
      (x.fmax y = x ∨ x.fmax y = y) ∧ (x.fmax y).value = max x.value y.value ∧
      (x.fmin y = x ∨ x.fmin y = y) ∧ (x.fmin y).value = min x.value y.value) ∧
  (∀ x : F32, x.isFinite = true →
    F32.lt ⟨0xFF800000#32⟩ x = true ∧ x.lt ⟨0x7F800000#32⟩ = true) ∧
  (∀ x y : F32, x.isNaN = false → y.isNaN = false →
    x.feq y = (x.le y && y.le x) ∧ x.lt y = !y.le x ∧
      (x.lt y = true → x.fmax y = y ∧ y.fmax x = y ∧ x.fmin y = x ∧ y.fmin x = x)) ∧
  (∀ x : F32, x.isNaN = false → x.fabs.bits.toNat = x.bits.toNat % 2 ^ 31 ∧
    x.neg.bits.toNat = (x.bits.toNat + 2 ^ 31) % 2 ^ 32) ∧
  (∀ x : F32, x.isFinite = true → x.fabs.value = (x.value.natAbs : Int) ∧ x.neg.value = -x.value) ∧
  (∀ x y : F32, x.sub y = x.add y.neg) ∧
  (∀ v lo hi : F32, v.clamp lo hi = F32.fmin (F32.fmax v lo) hi) ∧
  (∀ v a b c d : F32, F32.mapf v a b c d = (((v.sub a).mul (d.sub c)).div (b.sub a)).add c) ∧
  (∀ n : Nat, nearest (F32.ofNat n) n) ∧ (∀ z : Int, nearest (F32.ofInt z) z)
end

