-- ==== Sys2Proof/Laws/Block.lean ====
section
/-! SUPPORT. Laws of arrays and loops: what an element of a built array is, and what a loop that carries a state
computes at each element. -/

namespace Sys2Proof

/-- Two arrays with the same elements are equal. -/
theorem Arr.ext_elems {α : Type} {n : Nat} {v w : Arr α n} (h : v.elems = w.elems) : v = w := by
  cases v; cases w; simp_all

theorem Arr.nth_eq_getElem {α : Type} [Inhabited α] {n : Nat} (v : Arr α n) {i : Nat} (hi : i < n) :
    v.nth i = v.elems[i]'(by rw [v.size]; exact hi) := by
  have h : i < v.elems.length := by rw [v.size]; exact hi
  simp [Arr.nth, List.getD_eq_getElem?_getD, List.getElem?_eq_getElem h]

/-- Two arrays that agree at every index are equal. -/
theorem Arr.ext_nth {α : Type} [Inhabited α] {n : Nat} {v w : Arr α n} (h : ∀ i < n, v.nth i = w.nth i) :
    v = w := by
  apply Arr.ext_elems
  apply List.ext_getElem (by rw [v.size, w.size])
  intro i h1 h2
  have hi : i < n := by rw [v.size] at h1; exact h1
  rw [← Arr.nth_eq_getElem v hi, ← Arr.nth_eq_getElem w hi]
  exact h i hi

@[simp] theorem Arr.nth_tab {α : Type} [Inhabited α] (n : Nat) (f : Nat → α) (i : Nat) (hi : i < n) :
    (Arr.tab n f).nth i = f i := by
  rw [Arr.nth_eq_getElem _ hi]
  simp [Arr.tab]

@[simp] theorem Arr.nth_map {α β : Type} [Inhabited α] [Inhabited β] {n : Nat} (f : α → β) (v : Arr α n) (i : Nat)
    (hi : i < n) : (v.map f).nth i = f (v.nth i) := by
  rw [Arr.nth_eq_getElem _ hi, Arr.nth_eq_getElem _ hi]
  simp [Arr.map]

@[simp] theorem Machine.nth_fill {α : Type} [Inhabited α] (n : Nat) (a : α) (i : Nat) (hi : i < n) :
    (Machine.fill n a).nth i = a := by
  rw [Arr.nth_eq_getElem _ hi]
  simp [Machine.fill]

/-- An array's elements, listed. -/
theorem Arr.elems_eq_map_nth {α : Type} [Inhabited α] {n : Nat} (v : Arr α n) :
    v.elems = (List.range n).map v.nth := by
  apply List.ext_getElem (by simp [v.size])
  intro i h1 h2
  have hi : i < n := by rw [v.size] at h1; exact h1
  simp [Arr.nth_eq_getElem v hi]

/-- Elements `lo` to `hi`, listed. -/
theorem Arr.slice_eq_map_nth {α : Type} [Inhabited α] {n : Nat} (v : Arr α n) {lo hi : Nat} (hle : lo ≤ hi)
    (hhi : hi < n) : v.slice lo hi = (List.range (hi - lo + 1)).map fun k => v.nth (lo + k) := by
  apply List.ext_getElem
  · simp [Arr.slice, v.size]; omega
  · intro i h1 h2
    have hi' : i < hi - lo + 1 := by simpa using h2
    have : lo + i < n := by omega
    simp [Arr.slice, Arr.nth_eq_getElem v this]

/-- The state a loop carries into element `i`. -/
def Arr.carry {σ α β : Type} {n : Nat} (f : σ → α → β × σ) (s : σ) (v : Arr α n) (i : Nat) : σ :=
  (scan f s (v.elems.take i)).2

theorem scan_append {σ α β : Type} (f : σ → α → β × σ) (s : σ) (as bs : List α) :
    scan f s (as ++ bs) =
      ((scan f s as).1 ++ (scan f (scan f s as).2 bs).1, (scan f (scan f s as).2 bs).2) := by
  induction as generalizing s with
  | nil => simp [scan]
  | cons a as ih => simp [scan, ih]

@[simp] theorem Arr.carry_zero {σ α β : Type} {n : Nat} (f : σ → α → β × σ) (s : σ) (v : Arr α n) :
    v.carry f s 0 = s := by
  simp [Arr.carry, scan]

/-- What a loop does at element `i`: the state for the next element. -/
theorem Arr.carry_succ {σ α β : Type} [Inhabited α] {n : Nat} (f : σ → α → β × σ) (s : σ) (v : Arr α n) (i : Nat)
    (hi : i < n) : v.carry f s (i + 1) = (f (v.carry f s i) (v.nth i)).2 := by
  have h : i < v.elems.length := by rw [v.size]; exact hi
  have step : v.elems.take (i + 1) = v.elems.take i ++ [v.elems[i]] := by
    rw [List.take_add_one, List.getElem?_eq_getElem h]; rfl
  rw [Arr.carry, step, scan_append, Arr.nth_eq_getElem v hi]
  rfl

/-- What a loop does at element `i`: that element's output. -/
theorem Arr.nth_scanOut {σ α β : Type} [Inhabited α] [Inhabited β] {n : Nat} (f : σ → α → β × σ) (s : σ) (v : Arr α n)
    (i : Nat) (hi : i < n) : (v.scanOut f s).nth i = (f (v.carry f s i) (v.nth i)).1 := by
  have h : i < v.elems.length := by rw [v.size]; exact hi
  have split : v.elems = v.elems.take i ++ (v.elems[i] :: v.elems.drop (i + 1)) := by
    rw [List.getElem_cons_drop, List.take_append_drop]
  rw [Arr.nth_eq_getElem _ hi, Arr.nth_eq_getElem v hi]
  have key : (scan f s v.elems).1 = (scan f s (v.elems.take i)).1 ++
      (f (scan f s (v.elems.take i)).2 v.elems[i]).1 ::
        (scan f (f (scan f s (v.elems.take i)).2 v.elems[i]).2 (v.elems.drop (i + 1))).1 := by
    conv_lhs => rw [split]
    rw [scan_append]
    simp [scan]
  have hlen : (scan f s (v.elems.take i)).1.length = i := by
    rw [scan_length, List.length_take]; omega
  show ((scan f s v.elems).1)[i]'_ = _
  simp only [key]
  rw [List.getElem_append_right (by omega)]
  simp [hlen, Arr.carry]

/-- The state a loop ends with. -/
theorem Arr.scanEnd_eq_carry {σ α β : Type} {n : Nat} (f : σ → α → β × σ) (s : σ) (v : Arr α n) :
    v.scanEnd f s = v.carry f s n := by
  rw [Arr.scanEnd, Arr.carry, List.take_of_length_le (Nat.le_of_eq v.size)]

/-- A property that every element's iteration keeps holds of the carried state throughout. -/
theorem Arr.carry_induct {σ α β : Type} [Inhabited α] {n : Nat} {P : σ → Prop} (f : σ → α → β × σ) (s : σ) (v : Arr α n)
    (h0 : P s) (hs : ∀ st a, P st → P (f st a).2) : ∀ i ≤ n, P (v.carry f s i) := by
  intro i
  induction i with
  | zero => intro _; simpa using h0
  | succ i ih =>
    intro hi
    rw [Arr.carry_succ f s v i (by omega)]
    exact hs _ _ (ih (by omega))

@[simp] theorem Arr.nth_mapIdx {α β : Type} [Inhabited α] [Inhabited β] {n : Nat} (f : Nat → α → β) (v : Arr α n)
    (i : Nat) (hi : i < n) : (v.mapIdx f).nth i = f i (v.nth i) := by
  have hc : ∀ k ≤ n, v.carry (fun i a => (f i a, i + 1)) 0 k = k := by
    intro k
    induction k with
    | zero => intro _; simp
    | succ k ih => intro hk; rw [Arr.carry_succ _ _ _ _ (by omega), ih (by omega)]
  rw [Arr.mapIdx, Arr.nth_scanOut _ _ _ _ hi, hc i (by omega)]

end Sys2Proof
end

