-- ==== Sys2Proof/Laws/Decode.lean ====
section
/-! SUPPORT. Laws of the command word: the fields of an encoding, and a word as its four bytes. -/

namespace Sys2Proof

theorem opField_append (op arg : BitVec 8) (imm : BitVec 16) : opField ((op ++ arg) ++ imm) = op := by
  apply BitVec.eq_of_getLsbD_eq
  intro i hi
  simp only [opField, BitVec.getLsbD_extractLsb', BitVec.getLsbD_append]
  simp [hi, show ¬ 24 + i < 16 by omega, show ¬ 24 + i - 16 < 8 by omega, show 24 + i - 16 - 8 = i by omega]

theorem argField_append (op arg : BitVec 8) (imm : BitVec 16) : argField ((op ++ arg) ++ imm) = arg := by
  apply BitVec.eq_of_getLsbD_eq
  intro i hi
  simp only [argField, BitVec.getLsbD_extractLsb', BitVec.getLsbD_append]
  simp [hi]

theorem immField_append (op arg : BitVec 8) (imm : BitVec 16) : immField ((op ++ arg) ++ imm) = imm := by
  apply BitVec.eq_of_getLsbD_eq
  intro i hi
  simp only [immField, BitVec.getLsbD_extractLsb', BitVec.getLsbD_append]
  simp [hi]

@[simp] theorem opField_encode (i : Instr) : opField (encode i) = opcodeOf i := opField_append _ _ _

@[simp] theorem argField_encode (i : Instr) : argField (encode i) = argOf i := argField_append _ _ _

@[simp] theorem immField_encode (i : Instr) : immField (encode i) = immOf i := immField_append _ _ _

/-- A time operand that fits `IMM` is the number the field holds (R101). -/
theorem immOf_toNat_of_fits {dt : Nat} (h : fitsImm dt = true) : (BitVec.ofNat 16 dt).toNat = dt := by
  have : dt < 65536 := by simpa [fitsImm] using h
  rw [BitVec.toNat_ofNat]
  omega

/-- A word is its four bytes put together again (R75). -/
theorem decodeBytes_wordBytes (w : Word) : decodeBytes (wordBytes w) = decode w := by
  have h : ((w.extractLsb' 24 8 ++ w.extractLsb' 16 8) ++ (w.extractLsb' 8 8 ++ w.extractLsb' 0 8) : Word) = w := by
    apply BitVec.eq_of_getLsbD_eq
    intro i hi
    simp only [BitVec.getLsbD_append, BitVec.getLsbD_extractLsb']
    by_cases h1 : i < 8
    · simp [h1, show i < 16 by omega]
    · by_cases h2 : i < 16
      · simp [h1, h2, show i - 8 < 8 by omega, show 8 + (i - 8) = i by omega]
      · by_cases h3 : i - 16 < 8
        · simp [h2, h3, show 16 + (i - 16) = i by omega]
        · simp [h2, h3, show i - 16 - 8 < 8 by omega, show 24 + (i - 16 - 8) = i by omega]
  exact congrArg decode h

end Sys2Proof
end

