-- ==== Sys2Proof/Laws/Float.lean ====
section
/-! SUPPORT. Laws of the binary32 arithmetic: the units that magnitude bits stand for, what `roundMag` answers (the
nearest magnitude, ties to even; hence monotone and exact on representable values), and the order of values. -/

namespace Sys2Proof

/-- The units of 2^-149 that the magnitude bits `m` stand for. -/
def magUnits (m : Nat) : Nat :=
  if m / 2 ^ 23 = 0 then m % 2 ^ 23 else (2 ^ 23 + m % 2 ^ 23) * 2 ^ (m / 2 ^ 23 - 1)

theorem F32.scaled_eq (x : F32) : x.scaled = magUnits x.magBits := rfl

/-- A significand `q` at spacing `2^k`. -/
theorem magUnits_of_significand {k q : Nat} (hk : k = 0 ∨ 2 ^ 23 ≤ q) (hq : q ≤ 2 ^ 24) :
    magUnits (k * 2 ^ 23 + q) = q * 2 ^ k := by
  unfold magUnits
  rcases Nat.lt_or_ge q (2 ^ 23) with h | h
  · have hk0 : k = 0 := by omega
    subst hk0
    rw [if_pos (by omega)]
    omega
  · rcases Nat.lt_or_ge q (2 ^ 24) with h2 | h2
    · have e1 : (k * 2 ^ 23 + q) / 2 ^ 23 = k + 1 := by omega
      have e2 : (k * 2 ^ 23 + q) % 2 ^ 23 = q - 2 ^ 23 := by omega
      rw [e1, e2, if_neg (by omega), Nat.add_sub_cancel' h, Nat.add_sub_cancel]
    · have hq' : q = 2 ^ 24 := by omega
      subst hq'
      have e1 : (k * 2 ^ 23 + 2 ^ 24) / 2 ^ 23 = k + 2 := by omega
      have e2 : (k * 2 ^ 23 + 2 ^ 24) % 2 ^ 23 = 0 := by omega
      rw [e1, e2, if_neg (by omega), show k + 2 - 1 = k + 1 by omega, Nat.pow_succ]
      ring

/-- Every magnitude is a significand at a spacing. -/
theorem exists_significand (m : Nat) :
    ∃ k q, m = k * 2 ^ 23 + q ∧ (k = 0 ∨ 2 ^ 23 ≤ q) ∧ q < 2 ^ 24 := by
  rcases Nat.lt_or_ge m (2 ^ 24) with h | h
  · exact ⟨0, m, by omega, .inl rfl, h⟩
  · exact ⟨m / 2 ^ 23 - 1, m % 2 ^ 23 + 2 ^ 23, by omega, .inr (by omega), by omega⟩

theorem magUnits_lt_succ (m : Nat) : magUnits m < magUnits (m + 1) := by
  obtain ⟨k, q, rfl, hk, hq⟩ := exists_significand m
  rw [magUnits_of_significand hk (by omega), Nat.add_assoc,
    magUnits_of_significand (q := q + 1) (by omega) (by omega)]
  exact Nat.mul_lt_mul_of_pos_right (Nat.lt_succ_self q) (Nat.two_pow_pos k)

/-- Greater magnitude bits stand for more units. -/
theorem magUnits_strictMono : StrictMono magUnits := strictMono_nat_of_lt_succ magUnits_lt_succ

@[simp] theorem magUnits_zero : magUnits 0 = 0 := by decide

/-! ### Rounding -/

/-- `roundHalfEven n u` is at most half a unit `u` away from `n`, and even where it is exactly half a unit away. -/
theorem roundHalfEven_spec (n : Nat) {u : Nat} (hu : 0 < u) :
    2 * n ≤ (2 * roundHalfEven n u + 1) * u ∧ 2 * (roundHalfEven n u * u) ≤ 2 * n + u ∧
      (2 * n = (2 * roundHalfEven n u + 1) * u → roundHalfEven n u % 2 = 0) ∧
      (2 * (roundHalfEven n u * u) = 2 * n + u → roundHalfEven n u % 2 = 0) := by
  have hd := Nat.div_add_mod n u
  have hm := Nat.mod_lt n hu
  have e1 : (2 * (n / u) + 1) * u = 2 * (u * (n / u)) + u := by ring
  have e2 : (2 * (n / u + 1) + 1) * u = 2 * (u * (n / u)) + 3 * u := by ring
  have e3 : (n / u + 1) * u = u * (n / u) + u := by ring
  have e4 : n / u * u = u * (n / u) := by ring
  unfold roundHalfEven
  simp only [Bool.or_eq_true, Bool.and_eq_true, decide_eq_true_eq, beq_iff_eq]
  split_ifs with h
  · rw [e2, e3]; refine ⟨by omega, by omega, by omega, by omega⟩
  · rw [e1, e4]; refine ⟨by omega, by omega, by omega, by omega⟩

/-- What `roundMag` computes: a significand `q` at the spacing `2^k` that suits `n / d`, at most half a spacing
away. -/
theorem roundMag_significand (n : Nat) {d : Nat} (hd : 0 < d) :
    ∃ k q, roundMag n d = min (k * 2 ^ 23 + q) 0x7F800000 ∧ (k = 0 ∨ 2 ^ 23 ≤ q) ∧ q ≤ 2 ^ 24 ∧
      (k = 0 ∨ 2 ^ 23 * (d * 2 ^ k) ≤ n) ∧ n < 2 ^ 24 * (d * 2 ^ k) ∧
      2 * n ≤ (2 * q + 1) * (d * 2 ^ k) ∧ 2 * (q * (d * 2 ^ k)) ≤ 2 * n + d * 2 ^ k ∧
      (2 * n = (2 * q + 1) * (d * 2 ^ k) → q % 2 = 0) ∧
      (2 * (q * (d * 2 ^ k)) = 2 * n + d * 2 ^ k → q % 2 = 0) := by
  have hu : 0 < d * 2 ^ ((n / d).log2 - 23) := Nat.mul_pos hd (Nat.two_pow_pos _)
  obtain ⟨s1, s2, s3, s4⟩ := roundHalfEven_spec n hu
  have hlt : n / d < 2 ^ ((n / d).log2 - 23 + 24) := by
    refine lt_of_lt_of_le Nat.lt_log2_self ?_
    exact Nat.pow_le_pow_right (by omega) (by omega)
  have hn : n < 2 ^ 24 * (d * 2 ^ ((n / d).log2 - 23)) := by
    have := (Nat.div_lt_iff_lt_mul hd).1 hlt
    rw [Nat.pow_add] at this
    calc n < 2 ^ ((n / d).log2 - 23) * 2 ^ 24 * d := this
      _ = 2 ^ 24 * (d * 2 ^ ((n / d).log2 - 23)) := by ring
  have hk : (n / d).log2 - 23 = 0 ∨ 2 ^ 23 * (d * 2 ^ ((n / d).log2 - 23)) ≤ n := by
    rcases Nat.eq_zero_or_pos ((n / d).log2 - 23) with h | h
    · exact .inl h
    · right
      have hne : n / d ≠ 0 := by
        intro h0; rw [h0] at h; simp at h
      have := (Nat.le_div_iff_mul_le hd).1 (Nat.log2_self_le hne)
      have e : (n / d).log2 = (n / d).log2 - 23 + 23 := by omega
      rw [e, Nat.pow_add] at this
      calc 2 ^ 23 * (d * 2 ^ ((n / d).log2 - 23)) = 2 ^ ((n / d).log2 - 23) * 2 ^ 23 * d := by ring
        _ ≤ n := this
  refine ⟨_, _, rfl, ?_, ?_, hk, hn, s1, s2, s3, s4⟩
  · rcases hk with h | h
    · exact .inl h
    · right
      by_contra hc
      have : 2 * roundHalfEven n (d * 2 ^ ((n / d).log2 - 23)) + 1 ≤ 2 * 2 ^ 23 - 1 := by omega
      have := Nat.mul_le_mul_right (d * 2 ^ ((n / d).log2 - 23)) this
      have e : (2 * 2 ^ 23 - 1) * (d * 2 ^ ((n / d).log2 - 23)) + d * 2 ^ ((n / d).log2 - 23)
          = 2 * (2 ^ 23 * (d * 2 ^ ((n / d).log2 - 23))) := by ring
      omega
  · by_contra hc
    have : 2 ^ 24 + 1 ≤ roundHalfEven n (d * 2 ^ ((n / d).log2 - 23)) := by omega
    have := Nat.mul_le_mul_right (d * 2 ^ ((n / d).log2 - 23)) this
    have e : (2 ^ 24 + 1) * (d * 2 ^ ((n / d).log2 - 23))
        = 2 ^ 24 * (d * 2 ^ ((n / d).log2 - 23)) + d * 2 ^ ((n / d).log2 - 23) := by ring
    omega

/-- `n / d` lies between the midpoints around the magnitude that `roundMag` answers, and that magnitude is even where
`n / d` is a midpoint.  (Above the greatest finite magnitude only the lower midpoint counts.) -/
theorem roundMag_spec (n : Nat) {d : Nat} (hd : 0 < d) :
    (roundMag n d < 0x7F800000 → 2 * n ≤ (magUnits (roundMag n d) + magUnits (roundMag n d + 1)) * d) ∧
    (roundMag n d < 0x7F800000 →
      2 * n = (magUnits (roundMag n d) + magUnits (roundMag n d + 1)) * d → roundMag n d % 2 = 0) ∧
    (∀ m, m < roundMag n d → (magUnits m + magUnits (m + 1)) * d ≤ 2 * n) ∧
    (∀ m, m + 1 = roundMag n d → (magUnits m + magUnits (m + 1)) * d = 2 * n → roundMag n d % 2 = 0) := by
  obtain ⟨k, q, hr, hk, hq, hk', hn, s1, s2, s3, s4⟩ := roundMag_significand n hd
  have hM : magUnits (k * 2 ^ 23 + q) = q * 2 ^ k := magUnits_of_significand hk hq
  -- the magnitude below
  have below : ∀ m, m + 1 = k * 2 ^ 23 + q →
      (magUnits m + magUnits (m + 1)) * d ≤ 2 * n ∧
        ((magUnits m + magUnits (m + 1)) * d = 2 * n → q % 2 = 0) := by
    intro m hm
    rw [hm, hM]
    by_cases hc : k = 0 ∨ 2 ^ 23 ≤ q - 1
    · have hq0 : 1 ≤ q := by omega
      have : m = k * 2 ^ 23 + (q - 1) := by omega
      rw [this, magUnits_of_significand hc (by omega)]
      have e : ((q - 1) * 2 ^ k + q * 2 ^ k) * d + d * 2 ^ k = 2 * (q * (d * 2 ^ k)) := by
        obtain ⟨j, rfl⟩ : ∃ j, q = j + 1 := ⟨q - 1, by omega⟩
        simp only [Nat.add_sub_cancel]; ring
      refine ⟨by omega, fun h => s4 (by omega)⟩
    · have hq' : q = 2 ^ 23 := by omega
      have hkn : 2 ^ 23 * (d * 2 ^ k) ≤ n := by omega
      have h1 : magUnits m < q * 2 ^ k := by
        rw [← hM, ← hm]; exact magUnits_lt_succ m
      have h2 : (magUnits m + q * 2 ^ k) * d < 2 * (2 ^ 23 * (d * 2 ^ k)) := by
        have : magUnits m + q * 2 ^ k < 2 * (q * 2 ^ k) := by omega
        calc (magUnits m + q * 2 ^ k) * d < 2 * (q * 2 ^ k) * d := Nat.mul_lt_mul_of_pos_right this hd
          _ = 2 * (2 ^ 23 * (d * 2 ^ k)) := by rw [hq']; ring
      refine ⟨by omega, fun h => by omega⟩
  have belowAll : ∀ m, m < k * 2 ^ 23 + q → (magUnits m + magUnits (m + 1)) * d ≤ 2 * n := by
    intro m hm
    obtain ⟨j, hj⟩ : ∃ j, j + 1 = k * 2 ^ 23 + q := ⟨k * 2 ^ 23 + q - 1, by omega⟩
    refine le_trans ?_ (below j hj).1
    have h1 : magUnits m ≤ magUnits j := magUnits_strictMono.monotone (by omega)
    have h2 : magUnits (m + 1) ≤ magUnits (j + 1) := magUnits_strictMono.monotone (by omega)
    exact Nat.mul_le_mul_right d (by omega)
  -- the magnitude above
  have above : 2 * n ≤ (magUnits (k * 2 ^ 23 + q) + magUnits (k * 2 ^ 23 + q + 1)) * d ∧
      (2 * n = (magUnits (k * 2 ^ 23 + q) + magUnits (k * 2 ^ 23 + q + 1)) * d → q % 2 = 0) := by
    rcases Nat.lt_or_ge q (2 ^ 24) with h | h
    · rw [hM, Nat.add_assoc, magUnits_of_significand (q := q + 1) (by omega) (by omega)]
      have e : (q * 2 ^ k + (q + 1) * 2 ^ k) * d = (2 * q + 1) * (d * 2 ^ k) := by ring
      rw [e]; exact ⟨s1, s3⟩
    · have hq' : q = 2 ^ 24 := by omega
      have h1 := magUnits_lt_succ (k * 2 ^ 23 + q)
      rw [hM] at h1 ⊢
      have h2 : 2 * (2 ^ 24 * (d * 2 ^ k)) ≤ (q * 2 ^ k + magUnits (k * 2 ^ 23 + q + 1)) * d := by
        calc 2 * (2 ^ 24 * (d * 2 ^ k)) = 2 * (q * 2 ^ k) * d := by rw [hq']; ring
          _ ≤ _ := Nat.mul_le_mul_right d (by omega)
      refine ⟨by omega, fun h => by omega⟩
  have even : q % 2 = 0 → (k * 2 ^ 23 + q) % 2 = 0 := by omega
  rw [hr]
  rcases Nat.lt_or_ge (k * 2 ^ 23 + q) 0x7F800000 with hlt | hge
  · rw [Nat.min_eq_left hlt.le]
    exact ⟨fun _ => above.1, fun _ h => even (above.2 h), belowAll, fun m hm h => even ((below m hm).2 h)⟩
  · rw [Nat.min_eq_right hge]
    exact ⟨fun h => absurd h (by omega), fun h => absurd h (by omega), fun m hm => belowAll m (by omega),
      fun m _ _ => by decide⟩

/-- `roundMag` never answers beyond an infinity. -/
theorem roundMag_le_inf (n d : Nat) : roundMag n d ≤ 0x7F800000 := Nat.min_le_right _ _

/-- A representable lower bound of `n / d` bounds the rounded magnitude from below. -/
theorem le_roundMag {n d m : Nat} (hd : 0 < d) (hm : m ≤ 0x7F800000) (h : magUnits m * d ≤ n) :
    m ≤ roundMag n d := by
  by_contra hc
  obtain ⟨h1, h2, -, -⟩ := roundMag_spec n hd
  have hlt : roundMag n d < 0x7F800000 := by omega
  have hm1 : magUnits (roundMag n d + 1) ≤ magUnits m := magUnits_strictMono.monotone (by omega)
  have hs := magUnits_lt_succ (roundMag n d)
  have h3 : (magUnits (roundMag n d) + magUnits (roundMag n d + 1)) * d < 2 * magUnits m * d :=
    Nat.mul_lt_mul_of_pos_right (by omega) hd
  have := h1 hlt
  have : 2 * magUnits m * d = 2 * (magUnits m * d) := by ring
  omega

/-- A representable upper bound of `n / d` bounds the rounded magnitude from above. -/
theorem roundMag_le {n d m : Nat} (hd : 0 < d) (h : n ≤ magUnits m * d) : roundMag n d ≤ m := by
  by_contra hc
  obtain ⟨-, -, h1, -⟩ := roundMag_spec n hd
  have h2 := h1 m (by omega)
  have h3 : 2 * magUnits m * d < (magUnits m + magUnits (m + 1)) * d :=
    Nat.mul_lt_mul_of_pos_right (by have := magUnits_lt_succ m; omega) hd
  have : 2 * magUnits m * d = 2 * (magUnits m * d) := by ring
  omega

/-- Rounding is exact on a representable value. -/
theorem roundMag_exact {d m : Nat} (hd : 0 < d) (hm : m ≤ 0x7F800000) : roundMag (magUnits m * d) d = m :=
  le_antisymm (roundMag_le hd le_rfl) (le_roundMag hd hm le_rfl)

/-- Rounding is monotone in the quotient. -/
theorem roundMag_mono {n n' d d' : Nat} (hd : 0 < d) (hd' : 0 < d') (h : n * d' ≤ n' * d) :
    roundMag n d ≤ roundMag n' d' := by
  by_contra hc
  have hlt : roundMag n' d' < 0x7F800000 := by have := roundMag_le_inf n d; omega
  obtain ⟨-, -, a, a'⟩ := roundMag_spec n hd
  obtain ⟨b, b', -, -⟩ := roundMag_spec n' hd'
  have a1 := a (roundMag n' d') (by omega)
  have b1 := b hlt
  set M := magUnits (roundMag n' d') + magUnits (roundMag n' d' + 1) with hM
  have h1 : M * d * d' ≤ 2 * n * d' := Nat.mul_le_mul_right d' a1
  have h2 : 2 * n' * d ≤ M * d' * d := Nat.mul_le_mul_right d b1
  have e1 : M * d * d' = M * d' * d := by ring
  have e2 : 2 * n * d' = 2 * (n * d') := by ring
  have e3 : 2 * n' * d = 2 * (n' * d) := by ring
  have h3 : M * d' * d = 2 * n' * d := by omega
  have h4 : M * d * d' = 2 * n * d' := by omega
  have hb : M * d' = 2 * n' := Nat.eq_of_mul_eq_mul_right hd (by omega)
  have ha : M * d = 2 * n := Nat.eq_of_mul_eq_mul_right hd' (by omega)
  have ev := b' hlt hb.symm
  rcases Nat.lt_or_ge (roundMag n' d' + 1) (roundMag n d) with hl | hl
  · have a2 := a (roundMag n' d' + 1) hl
    have hs := magUnits_lt_succ (roundMag n' d')
    have hs' := magUnits_lt_succ (roundMag n' d' + 1)
    have : M * d < (magUnits (roundMag n' d' + 1) + magUnits (roundMag n' d' + 1 + 1)) * d :=
      Nat.mul_lt_mul_of_pos_right (by omega) hd
    omega
  · have := a' (roundMag n' d') (by omega) ha
    omega

/-! ### Values and their order -/

@[simp] theorem F32.magBits_ofMag (neg : Bool) {m : Nat} (hm : m < 2 ^ 31) : (F32.ofMag neg m).magBits = m := by
  cases neg <;> simp only [F32.ofMag, F32.magBits, BitVec.toNat_ofNat, Bool.false_eq_true, if_true, if_false] <;>
    omega

@[simp] theorem F32.sign_ofMag (neg : Bool) {m : Nat} (hm : m < 2 ^ 31) : (F32.ofMag neg m).sign = neg := by
  cases neg <;>
    simp only [F32.ofMag, F32.sign, BitVec.msb_eq_decide, BitVec.toNat_ofNat, Bool.false_eq_true, if_true,
      if_false, decide_eq_true_eq, decide_eq_false_iff_not] <;> omega

theorem F32.magBits_lt (x : F32) : x.magBits < 2 ^ 31 := Nat.mod_lt _ (by decide)

/-- A value is its sign and its magnitude bits. -/
theorem F32.ofMag_magBits (x : F32) : F32.ofMag x.sign x.magBits = x := by
  obtain ⟨b⟩ := x
  have hb := b.isLt
  simp only [F32.ofMag, F32.sign, F32.magBits, BitVec.msb_eq_decide]
  congr 1
  apply BitVec.eq_of_toNat_eq
  by_cases h : 2147483648 ≤ b.toNat <;> simp [h] <;> omega

/-- A rounded value is finite exactly below the midpoint of the greatest finite magnitude and the next one: the
midpoint itself rounds to the even significand, which is beyond. -/
theorem F32.isFinite_ofMag_roundMag (neg : Bool) (n : Nat) {d : Nat} (hd : 0 < d) :
    (F32.ofMag neg (roundMag n d)).isFinite = true ↔ 2 * n < (2 ^ 25 - 1) * 2 ^ 253 * d := by
  have hle := roundMag_le_inf n d
  simp only [F32.isFinite, decide_eq_true_eq]
  rw [F32.magBits_ofMag neg (by omega)]
  obtain ⟨h1, h2, h3, -⟩ := roundMag_spec n hd
  have top : magUnits 0x7F7FFFFF + magUnits (0x7F7FFFFF + 1) = (2 ^ 25 - 1) * 2 ^ 253 := by decide +kernel
  constructor
  · intro h
    have a := h1 h
    rcases Nat.lt_or_ge (roundMag n d) 0x7F7FFFFF with hr | hr
    · have c : magUnits (roundMag n d) + magUnits (roundMag n d + 1) < (2 ^ 25 - 1) * 2 ^ 253 := by
        have := magUnits_strictMono hr
        have := magUnits_strictMono (show roundMag n d + 1 < 0x7F7FFFFF + 1 by omega)
        omega
      have := Nat.mul_lt_mul_of_pos_right c hd
      omega
    · have hr : roundMag n d = 0x7F7FFFFF := by omega
      rw [hr, top] at a h2
      rcases Nat.lt_or_ge (2 * n) ((2 ^ 25 - 1) * 2 ^ 253 * d) with q | q
      · exact q
      · exact absurd (h2 (by decide) (by omega)) (by decide)
  · intro h
    by_contra hc
    have := h3 0x7F7FFFFF (by omega)
    rw [top] at this
    omega

/-- Two values with the same sign and magnitude bits are the same. -/
theorem F32.ext_magBits {x y : F32} (hs : x.sign = y.sign) (hm : x.magBits = y.magBits) : x = y := by
  rw [← F32.ofMag_magBits x, ← F32.ofMag_magBits y, hs, hm]

@[simp] theorem F32.magBits_fabs (x : F32) : x.fabs.magBits = x.magBits := by
  have h : (0x7FFFFFFF#32 : BitVec 32).toNat = 2 ^ 31 - 1 := by decide
  simp only [F32.fabs, F32.magBits, BitVec.toNat_and, h, Nat.and_two_pow_sub_one_eq_mod]
  omega

@[simp] theorem F32.sign_fabs (x : F32) : x.fabs.sign = false := by
  have h : (0x7FFFFFFF#32 : Word).msb = false := by decide
  simp [F32.fabs, F32.sign, BitVec.msb_and, h]

@[simp] theorem F32.magBits_neg (x : F32) : x.neg.magBits = x.magBits := by
  have : x.neg.bits.toNat % 2 ^ 31 = x.bits.toNat % 2 ^ 31 := by
    simp only [F32.neg, BitVec.toNat_xor, Nat.xor_mod_two_pow]
    simp
  exact this

@[simp] theorem F32.sign_neg (x : F32) : x.neg.sign = !x.sign := by
  have h : (0x80000000#32 : Word).msb = true := by decide
  simp [F32.neg, F32.sign, BitVec.msb_xor, h]

theorem F32.isNaN_eq_false_of_isFinite {x : F32} (h : x.isFinite = true) : x.isNaN = false := by
  simp only [F32.isFinite, F32.isNaN, decide_eq_true_eq, decide_eq_false_iff_not] at *
  omega

@[simp] theorem F32.isNaN_fabs (x : F32) : x.fabs.isNaN = x.isNaN := by simp [F32.isNaN]

@[simp] theorem F32.isFinite_fabs (x : F32) : x.fabs.isFinite = x.isFinite := by simp [F32.isFinite]

@[simp] theorem F32.isNaN_neg (x : F32) : x.neg.isNaN = x.isNaN := by simp [F32.isNaN]

@[simp] theorem F32.isFinite_neg (x : F32) : x.neg.isFinite = x.isFinite := by simp [F32.isFinite]

theorem F32.le_iff {a b : F32} : a.le b = true ↔ a.isNaN = false ∧ b.isNaN = false ∧ a.ord ≤ b.ord := by
  simp [F32.le, and_assoc]

theorem F32.lt_iff {a b : F32} : a.lt b = true ↔ a.isNaN = false ∧ b.isNaN = false ∧ a.ord < b.ord := by
  simp [F32.lt, and_assoc]

theorem F32.le_trans {a b c : F32} (h1 : a.le b = true) (h2 : b.le c = true) : a.le c = true := by
  rw [F32.le_iff] at *
  exact ⟨h1.1, h2.2.1, by omega⟩

theorem F32.le_refl {a : F32} (h : a.isNaN = false) : a.le a = true := F32.le_iff.2 ⟨h, h, Int.le_refl _⟩

theorem F32.le_of_lt {a b : F32} (h : a.lt b = true) : a.le b = true := by
  rw [F32.lt_iff] at h
  exact F32.le_iff.2 ⟨h.1, h.2.1, by omega⟩

/-- The order of finite values is the order of what they stand for. -/
theorem F32.ord_le_iff_value_le (a b : F32) : a.ord ≤ b.ord ↔ a.value ≤ b.value := by
  simp only [F32.ord, F32.value, F32.scaled_eq]
  have key : ∀ m n : Nat, m ≤ n ↔ magUnits m ≤ magUnits n := fun m n => magUnits_strictMono.le_iff_le.symm
  have h0 : ∀ m : Nat, m = 0 ↔ magUnits m = 0 := fun m => by
    have := key m 0; simp only [magUnits_zero, Nat.le_zero] at this; exact this
  have k1 := key a.magBits b.magBits
  have k2 := key b.magBits a.magBits
  have a0 := h0 a.magBits
  have b0 := h0 b.magBits
  split_ifs <;> omega

/-- `fmax` of two values that are no NaNs is one of them, and neither is greater. -/
theorem F32.fmax_spec {a b : F32} (ha : a.isNaN = false) (hb : b.isNaN = false) :
    (a.fmax b = a ∨ a.fmax b = b) ∧ a.le (a.fmax b) = true ∧ b.le (a.fmax b) = true := by
  unfold F32.fmax
  simp only [ha, hb, Bool.false_eq_true, if_false]
  split_ifs <;> simp only [F32.le_iff, ha, hb, true_and, true_or, or_true] <;> omega

/-- `fmin` of two values that are no NaNs is one of them, and neither is less. -/
theorem F32.fmin_spec {a b : F32} (ha : a.isNaN = false) (hb : b.isNaN = false) :
    (a.fmin b = a ∨ a.fmin b = b) ∧ (a.fmin b).le a = true ∧ (a.fmin b).le b = true := by
  unfold F32.fmin
  simp only [ha, hb, Bool.false_eq_true, if_false]
  split_ifs <;> simp only [F32.le_iff, ha, hb, true_and, true_or, or_true] <;> omega

/-- A NaN as the first operand of `fmax` gives the other operand (R24). -/
theorem F32.fmax_of_isNaN {a b : F32} (ha : a.isNaN = true) (hb : b.isNaN = false) : a.fmax b = b := by
  simp [F32.fmax, ha, hb]

/-- Whatever is clamped, the result lies within the bounds (R18, R24). -/
theorem F32.clamp_within {lo hi : F32} (v : F32) (h : lo.le hi = true) :
    lo.le (v.clamp lo hi) = true ∧ (v.clamp lo hi).le hi = true := by
  obtain ⟨hlo, hhi, -⟩ := F32.le_iff.1 h
  have hx : (v.fmax lo).isNaN = false ∧ lo.le (v.fmax lo) = true := by
    cases hv : v.isNaN
    · obtain ⟨h1, -, h3⟩ := F32.fmax_spec hv hlo
      exact ⟨(F32.le_iff.1 h3).2.1, h3⟩
    · rw [F32.fmax_of_isNaN hv hlo]; exact ⟨hlo, F32.le_refl hlo⟩
  obtain ⟨h1, h2, h3⟩ := F32.fmin_spec hx.1 hhi
  refine ⟨?_, h3⟩
  rcases h1 with h1 | h1
  · rw [F32.clamp, h1]; exact hx.2
  · rw [F32.clamp, h1]; exact h

/-! ### What an operation on finite values answers -/

theorem F32.add_of_finite {a b : F32} (ha : a.isFinite = true) (hb : b.isFinite = true) :
    a.add b = if a.value + b.value = 0 then F32.ofMag (a.sign && b.sign) 0
      else F32.ofMag (decide (a.value + b.value < 0)) (roundMag (a.value + b.value).natAbs 1) := by
  have h1 := F32.isNaN_eq_false_of_isFinite ha
  have h2 := F32.isNaN_eq_false_of_isFinite hb
  have i1 : a.isInf = false := by
    simp only [F32.isFinite, decide_eq_true_eq] at ha; simp [F32.isInf]; omega
  have i2 : b.isInf = false := by
    simp only [F32.isFinite, decide_eq_true_eq] at hb; simp [F32.isInf]; omega
  simp [F32.add, h1, h2, i1, i2]

theorem F32.mul_of_finite {a b : F32} (ha : a.isFinite = true) (hb : b.isFinite = true) :
    a.mul b = F32.ofMag (F32.signXor a b) (roundMag (a.scaled * b.scaled) (2 ^ 149)) := by
  have h1 := F32.isNaN_eq_false_of_isFinite ha
  have h2 := F32.isNaN_eq_false_of_isFinite hb
  have i1 : a.isInf = false := by
    simp only [F32.isFinite, decide_eq_true_eq] at ha; simp [F32.isInf]; omega
  have i2 : b.isInf = false := by
    simp only [F32.isFinite, decide_eq_true_eq] at hb; simp [F32.isInf]; omega
  simp [F32.mul, h1, h2, i1, i2]

theorem F32.div_of_finite {a b : F32} (ha : a.isFinite = true) (hb : b.isFinite = true) (h0 : b.isZero = false) :
    a.div b = F32.ofMag (F32.signXor a b) (roundMag (a.scaled * 2 ^ 149) b.scaled) := by
  have h1 := F32.isNaN_eq_false_of_isFinite ha
  have h2 := F32.isNaN_eq_false_of_isFinite hb
  have i1 : a.isInf = false := by
    simp only [F32.isFinite, decide_eq_true_eq] at ha; simp [F32.isInf]; omega
  have i2 : b.isInf = false := by
    simp only [F32.isFinite, decide_eq_true_eq] at hb; simp [F32.isInf]; omega
  simp [F32.div, h1, h2, i1, i2, h0]

/-- A rounded sum keeps a representable upper bound of the exact sum. -/
theorem F32.add_le {a b c : F32} (ha : a.isFinite = true) (hb : b.isFinite = true) (hc : c.isFinite = true)
    (h : a.value + b.value ≤ c.value) : (a.add b).le c = true := by
  have hcn := F32.isNaN_eq_false_of_isFinite hc
  have hcm : c.magBits < 0x7F800000 := by simpa [F32.isFinite] using hc
  rw [F32.add_of_finite ha hb]
  split_ifs with h0
  · refine F32.le_iff.2 ⟨by simp [F32.isNaN], hcn, ?_⟩
    have : (0 : Int) ≤ c.value := by omega
    have hz : (F32.ofMag (a.sign && b.sign) 0).ord = 0 := by simp [F32.ord]
    rw [hz]
    have := (F32.ord_le_iff_value_le ⟨0#32⟩ c).2 (by simpa [F32.value, F32.scaled_eq, F32.magBits] using this)
    simpa [F32.ord, F32.magBits] using this
  · have hr := roundMag_le_inf (a.value + b.value).natAbs 1
    refine F32.le_iff.2 ⟨by rw [F32.isNaN, F32.magBits_ofMag _ (by omega)]; simp; omega, hcn, ?_⟩
    rw [F32.ord, F32.magBits_ofMag _ (by omega), F32.sign_ofMag _ (by omega)]
    by_cases hs : a.value + b.value < 0
    · simp only [hs, decide_true, if_true]
      by_cases hcs : c.sign = true
      · have hcv : c.value = -(magUnits c.magBits : Int) := by simp [F32.value, hcs, F32.scaled_eq]
        simp only [F32.ord, hcs, if_true]
        have := le_roundMag (n := (a.value + b.value).natAbs) (d := 1) (m := c.magBits) (by omega) (by omega)
          (by omega)
        omega
      · simp only [F32.ord, hcs, Bool.false_eq_true, if_false]; omega
    · have hcs : c.sign = false := by
        by_contra hne
        have : c.value = -(magUnits c.magBits : Int) := by
          simp only [Bool.not_eq_false] at hne; simp [F32.value, hne, F32.scaled_eq]
        omega
      have hcv : c.value = (magUnits c.magBits : Int) := by simp [F32.value, hcs, F32.scaled_eq]
      simp only [hs, decide_false, Bool.false_eq_true, if_false, F32.ord, hcs]
      have := roundMag_le (n := (a.value + b.value).natAbs) (d := 1) (m := c.magBits) (by omega) (by omega)
      omega

/-- A product with a factor of at most 1 in magnitude is not greater in magnitude. -/
theorem F32.fabs_mul_le {a b : F32} (ha : a.isNaN = false) (hb : b.magBits ≤ 0x3F800000) (hb0 : b.magBits ≠ 0) :
    (a.mul b).fabs.le a.fabs = true := by
  have hbf : b.isFinite = true := by simp [F32.isFinite]; omega
  have hbn := F32.isNaN_eq_false_of_isFinite hbf
  by_cases hfin : a.isFinite = true
  · rw [F32.mul_of_finite hfin hbf]
    have hle : roundMag (a.scaled * b.scaled) (2 ^ 149) ≤ a.magBits := by
      apply roundMag_le (by positivity)
      apply Nat.mul_le_mul_left
      have : magUnits b.magBits ≤ magUnits 0x3F800000 := magUnits_strictMono.monotone hb
      exact this.trans (by decide)
    have hlt := F32.magBits_lt a
    refine F32.le_iff.2 ⟨?_, by simpa using ha, ?_⟩
    · have : ¬ 0x7F800000 < a.magBits := by simpa [F32.isNaN] using ha
      rw [F32.isNaN_fabs, F32.isNaN, F32.magBits_ofMag _ (by omega), decide_eq_false_iff_not]
      omega
    · simp only [F32.ord, F32.sign_fabs, F32.magBits_fabs, Bool.false_eq_true, if_false]
      rw [F32.magBits_ofMag _ (by omega)]; exact_mod_cast hle
  · have hi : a.magBits = 0x7F800000 := by
      simp only [F32.isFinite, F32.isNaN, decide_eq_true_eq, decide_eq_false_iff_not] at *; omega
    have : a.mul b = F32.ofMag (F32.signXor a b) 0x7F800000 := by
      simp [F32.mul, ha, hbn, F32.isInf, F32.isZero, hi, hb0]
    rw [this]
    refine F32.le_iff.2 ⟨by rw [F32.isNaN_fabs, F32.isNaN, F32.magBits_ofMag _ (by omega)]; simp,
      by simpa using ha, ?_⟩
    simp only [F32.ord, F32.sign_fabs, F32.magBits_fabs, Bool.false_eq_true, if_false]
    rw [F32.magBits_ofMag _ (by omega), hi]

end Sys2Proof
end

