-- ==== Sys2Proof/Laws/Memory.lean ====
section
/-! SUPPORT. Laws of the addressable storage: reading after a write, and the canonical form, which every operation
keeps. -/

namespace Sys2Proof.Machine

/-- Every word of the empty storage is 0. -/
theorem Memory.readWord_nil (a : Nat) : Memory.readWord [] a = 0#32 := by
  simp only [Memory.readWord, Memory.read]; decide

theorem Memory.sortedFrom_mono {lo lo' : Nat} {m : Memory} (h : lo' ≤ lo) (hm : Memory.sortedFrom lo m = true) :
    Memory.sortedFrom lo' m = true := by
  cases m with
  | nil => rfl
  | cons c rest => simp [Memory.sortedFrom] at hm ⊢; exact ⟨⟨by omega, hm.1.2⟩, hm.2⟩

/-- Below the least listed address every byte reads 0. -/
theorem Memory.read_of_lt {lo a : Nat} {m : Memory} (hm : Memory.sortedFrom lo m = true) (ha : a < lo) :
    Memory.read m a = 0#8 := by
  induction m generalizing lo with
  | nil => rfl
  | cons c rest ih =>
    simp [Memory.sortedFrom] at hm
    have : c.1 ≠ a := by omega
    simp [Memory.read, this]
    exact ih hm.2 (by omega)

/-- What a written storage reads as, at the written address and at every other. -/
theorem Memory.read_write {lo : Nat} {m : Memory} (hm : Memory.sortedFrom lo m = true) (a : Nat) (v : Byte) (b : Nat) :
    Memory.read (Memory.write m a v) b = if b = a then v else Memory.read m b := by
  induction m generalizing lo with
  | nil =>
    by_cases hv : v = 0#8 <;> by_cases hb : b = a <;> simp [Memory.write, Memory.read, hv, hb]
    intro h; exact absurd h.symm hb
  | cons c rest ih =>
    obtain ⟨x, y⟩ := c
    simp [Memory.sortedFrom] at hm
    have ih' := ih hm.2
    by_cases h1 : a < x
    · by_cases hv : v = 0#8
      · simp only [Memory.write, h1, hv, if_true]
        by_cases hb : b = a
        · subst hb
          simp only [if_true, Memory.read]
          rw [if_neg (by omega)]
          exact Memory.read_of_lt hm.2 (by omega)
        · simp [hb]
      · simp only [Memory.write, h1, hv, if_true, if_false, Memory.read]
        by_cases hb : b = a
        · simp [hb]
        · rw [if_neg (by omega), if_neg hb]
    · by_cases h2 : a = x
      · subst h2
        by_cases hv : v = 0#8
        · simp only [Memory.write, Nat.lt_irrefl, hv, if_true, if_false, Memory.read]
          by_cases hb : b = a
          · subst hb; simp; exact Memory.read_of_lt hm.2 (by omega)
          · rw [if_neg hb, if_neg (by omega)]
        · simp only [Memory.write, Nat.lt_irrefl, hv, if_true, if_false, Memory.read]
          by_cases hb : b = a
          · simp [hb]
          · rw [if_neg hb, if_neg (by omega), if_neg (by omega)]
      · simp only [Memory.write, h1, h2, if_false, Memory.read]
        by_cases hb : x = b
        · rw [if_pos hb, if_neg (by omega), if_pos hb]
        · rw [if_neg hb, ih', if_neg hb]

/-- A write keeps the canonical form above a bound that the written address respects. -/
theorem Memory.write_sortedFrom {lo : Nat} {m : Memory} (hm : Memory.sortedFrom lo m = true) {a : Nat} (ha : lo ≤ a)
    (v : Byte) : Memory.sortedFrom lo (Memory.write m a v) = true := by
  induction m generalizing lo with
  | nil => by_cases hv : v = 0#8 <;> simp [Memory.write, Memory.sortedFrom, hv, ha]
  | cons c rest ih =>
    obtain ⟨x, y⟩ := c
    simp [Memory.sortedFrom] at hm
    by_cases h1 : a < x
    · by_cases hv : v = 0#8
      · simp [Memory.write, h1, hv, Memory.sortedFrom, hm]
      · simp [Memory.write, h1, hv, Memory.sortedFrom, hm, ha]
    · by_cases h2 : a = x
      · subst h2
        by_cases hv : v = 0#8
        · simp [Memory.write, hv]; exact Memory.sortedFrom_mono (by omega) hm.2
        · simp [Memory.write, hv, Memory.sortedFrom, hm]
      · simp only [Memory.write, h1, h2, if_false, Memory.sortedFrom]
        simp [hm]
        exact ih hm.2 (by omega)

/-- A write keeps the canonical form. -/
theorem Memory.write_wf {m : Memory} (hm : Memory.wf m = true) (a : Nat) (v : Byte) :
    Memory.wf (Memory.write m a v) = true :=
  Memory.write_sortedFrom hm (Nat.zero_le a) v

/-- A write of a word keeps the canonical form. -/
theorem Memory.writeWord_wf {m : Memory} (hm : Memory.wf m = true) (a : Nat) (v : Word) :
    Memory.wf (Memory.writeWord m a v) = true :=
  Memory.write_wf (Memory.write_wf (Memory.write_wf (Memory.write_wf hm _ _) _ _) _ _) _ _

/-- What a storage with one word written reads as, byte by byte. -/
theorem Memory.read_writeWord {m : Memory} (hm : Memory.wf m = true) (a : Nat) (v : Word) (b : Nat) :
    Memory.read (Memory.writeWord m a v) b =
      if b = a + 3 then v.extractLsb' 24 8
      else if b = a + 2 then v.extractLsb' 16 8
      else if b = a + 1 then v.extractLsb' 8 8
      else if b = a then v.extractLsb' 0 8
      else Memory.read m b := by
  have h1 := Memory.write_wf hm a (v.extractLsb' 0 8)
  have h2 := Memory.write_wf h1 (a + 1) (v.extractLsb' 8 8)
  have h3 := Memory.write_wf h2 (a + 2) (v.extractLsb' 16 8)
  rw [Memory.writeWord, Memory.read_write h3, Memory.read_write h2, Memory.read_write h1, Memory.read_write hm]

/-- A written word is read back. -/
theorem Memory.readWord_writeWord_same {m : Memory} (hm : Memory.wf m = true) (a : Nat) (v : Word) :
    Memory.readWord (Memory.writeWord m a v) a = v := by
  simp only [Memory.readWord, Memory.read_writeWord hm]
  have e1 : ¬ a + 2 = a + 3 := by omega
  have e2 : ¬ a + 1 = a + 3 := by omega
  have e3 : ¬ a + 1 = a + 2 := by omega
  have e4 : ¬ a = a + 3 := by omega
  have e5 : ¬ a = a + 2 := by omega
  have e6 : ¬ a = a + 1 := by omega
  simp only [e1, e2, e3, e4, e5, e6, if_true, if_false]
  apply BitVec.eq_of_getLsbD_eq
  intro i hi
  simp only [BitVec.getLsbD_append, BitVec.getLsbD_extractLsb']
  by_cases h1 : i < 8
  · simp [h1, show i < 16 by omega]
  · by_cases h2 : i < 16
    · simp [h1, h2, show i - 8 < 8 by omega, show 8 + (i - 8) = i by omega]
    · by_cases h3 : i - 16 < 8
      · simp [h2, h3, show 16 + (i - 16) = i by omega]
      · simp [h2, h3, show i - 16 - 8 < 8 by omega, show 24 + (i - 16 - 8) = i by omega]

/-- A write of a word leaves every word that does not overlap it. -/
theorem Memory.readWord_writeWord_other {m : Memory} (hm : Memory.wf m = true) {a b : Nat} (v : Word)
    (h : b + 4 ≤ a ∨ a + 4 ≤ b) : Memory.readWord (Memory.writeWord m a v) b = Memory.readWord m b := by
  simp only [Memory.readWord, Memory.read_writeWord hm]
  repeat rw [if_neg (by omega)]

/-- A write lists at most the written byte beside what was listed. -/
theorem Memory.mem_of_mem_write {m : Memory} {a : Nat} {v : Byte} {c : Host.Cell} (h : c ∈ Memory.write m a v) :
    c = (a, v) ∨ c ∈ m := by
  induction m with
  | nil => by_cases hv : v = 0#8 <;> simp_all [Memory.write]
  | cons d rest ih =>
    obtain ⟨x, y⟩ := d
    unfold Memory.write at h
    split_ifs at h
    · exact .inr h
    · simpa using h
    · exact .inr (List.mem_cons_of_mem _ h)
    · rcases List.mem_cons.mp h with h | h
      · exact .inl h
      · exact .inr (List.mem_cons_of_mem _ h)
    · rcases List.mem_cons.mp h with h | h
      · exact .inr (by simp [h])
      · rcases ih h with h | h
        · exact .inl h
        · exact .inr (List.mem_cons_of_mem _ h)

theorem Memory.inRawIn_write {m : Memory} (hm : Memory.inRawIn m = true) {a : Nat} (v : Byte) (h1 : rawBase ≤ a)
    (h2 : a < rawBase + 2048) : Memory.inRawIn (Memory.write m a v) = true := by
  simp only [Memory.inRawIn, List.all_eq_true, decide_eq_true_eq] at hm ⊢
  intro c hc
  rcases Memory.mem_of_mem_write hc with rfl | h
  · exact ⟨h1, h2⟩
  · exact hm c h

/-- A write of a word of `RAW_IN` leaves only `RAW_IN` listed. -/
theorem Memory.inRawIn_writeWord {m : Memory} (hm : Memory.inRawIn m = true) {i : Nat} (v : Word) (hi : i < 512) :
    Memory.inRawIn (Memory.writeWord m (rawBase + 4 * i) v) = true := by
  apply Memory.inRawIn_write _ _ (by omega) (by omega)
  apply Memory.inRawIn_write _ _ (by omega) (by omega)
  apply Memory.inRawIn_write _ _ (by omega) (by omega)
  exact Memory.inRawIn_write hm _ (by omega) (by omega)

end Sys2Proof.Machine
end

