-- ==== Sys2Proof/Laws/Operands.lean ====
section
/-! SUPPORT. Laws of the operand forms: what a bit search finds, the band sum as an indexed loop, and what a command may
leave in an f32 register. -/

namespace Sys2Proof

/-- A bit search finds a number that passes and whose successor fails. -/
theorem bitSearch_spec {ok : Nat → Bool} : ∀ (b acc : Nat), ok acc = true → ok (acc + 2 ^ b) = false →
      acc ≤ bitSearch ok b acc ∧ bitSearch ok b acc < acc + 2 ^ b ∧ ok (bitSearch ok b acc) = true ∧
        ok (bitSearch ok b acc + 1) = false := by
  intro b
  induction b with
  | zero => intro acc h0 h1; exact ⟨Nat.le_refl _, by simp [bitSearch], h0, h1⟩
  | succ b ih =>
    intro acc h0 h1
    have e : acc + 2 ^ b + 2 ^ b = acc + 2 ^ (b + 1) := by rw [Nat.pow_succ]; omega
    simp only [bitSearch]
    cases hok : ok (acc + 2 ^ b) with
    | true =>
      obtain ⟨a1, a2, a3, a4⟩ := ih (acc + 2 ^ b) hok (by rw [e]; exact h1)
      simp only [if_true]
      exact ⟨by omega, by omega, a3, a4⟩
    | false =>
      obtain ⟨a1, a2, a3, a4⟩ := ih acc h0 hok
      simp only [Bool.false_eq_true, if_false]
      exact ⟨a1, by omega, a3, a4⟩

namespace Machine

/-- The f32 sum of a list, one element after another. -/
theorem sumF32_append_singleton (l : List F32) (x : F32) : sumF32 (l ++ [x]) = (sumF32 l).add x := by
  simp [sumF32]

/-- The f32 sum of an indexed list is a loop over the index. -/
theorem sumF32_range_succ (f : Nat → F32) (n : Nat) :
    sumF32 ((List.range (n + 1)).map f) = (sumF32 ((List.range n).map f)).add (f n) := by
  rw [List.range_succ, List.map_append]
  exact sumF32_append_singleton _ _

@[simp] theorem sumF32_nil : sumF32 [] = F32.zero := rfl

/-- A finite value is left as it is computed (R17). -/
theorem settle_of_isFinite {inputs : List F32} {a : Nat} {x : F32} (h : x.isFinite = true) :
    settle inputs a x = x := by
  simp [settle, h]

/-- So is every value with a non-finite input: it propagates by IEEE 754 (R24). -/
theorem settle_of_not_finite {inputs : List F32} {a : Nat} {x y : F32} (hy : y ∈ inputs) (h : y.isFinite = false) :
    settle inputs a x = x := by
  have : inputs.all F32.isFinite = false := List.all_eq_false.2 ⟨y, hy, by simp [h]⟩
  simp [settle, this]

/-- Everything that `settle` can answer: the value itself, where it is finite or some input is not; else a finite one,
with the sign of an infinity. -/
theorem settle_cases (inputs : List F32) (a : Nat) (x : F32) :
    ((x.isFinite = true ∨ ∃ y ∈ inputs, y.isFinite = false) ∧ settle inputs a x = x) ∨
    ((x.isFinite = false ∧ ∀ y ∈ inputs, y.isFinite = true) ∧ (settle inputs a x).isFinite = true ∧
      (x.isInf = true → (settle inputs a x).sign = x.sign)) := by
  by_cases hx : x.isFinite = true
  · exact .inl ⟨.inl hx, settle_of_isFinite hx⟩
  by_cases hi : inputs.all F32.isFinite = true
  · refine .inr ⟨⟨by simpa using hx, List.all_eq_true.1 hi⟩, ?_⟩
    have hlt := (Config.finiteValue inputs a).2.isLt
    simp only [settle, hx, hi, Bool.not_true, Bool.or_false, Bool.false_eq_true, if_false]
    refine ⟨?_, fun h => ?_⟩
    · rw [F32.isFinite, F32.magBits_ofMag _ (by omega)]
      exact decide_eq_true hlt
    · rw [F32.sign_ofMag _ (by omega), if_pos h]
  · obtain ⟨y, hy, h⟩ := List.all_eq_false.1 (Bool.not_eq_true _ ▸ hi)
    have h : y.isFinite = false := by simpa using h
    exact .inl ⟨.inr ⟨y, hy, h⟩, settle_of_not_finite hy h⟩

/-- R305: finite inputs leave a finite value. -/
theorem isFinite_settle {inputs : List F32} (h : ∀ y ∈ inputs, y.isFinite = true) (a : Nat) (x : F32) :
    (settle inputs a x).isFinite = true := by
  rcases settle_cases inputs a x with ⟨hx | ⟨y, hy, hf⟩, e⟩ | ⟨-, e, -⟩
  · rw [e]; exact hx
  · simp [h y hy] at hf
  · exact e

@[simp] theorem nth_settleVreal (inputs : List F32) (v : Arr F32 512) (i : Nat) (hi : i < 512) :
    (settleVreal inputs v).nth i = settle inputs (0x2000 + 4 * i) (v.nth i) :=
  Arr.nth_mapIdx _ v i hi

end Machine

end Sys2Proof
end

