-- ==== Sys2Proof/Laws/State.lean ====
section
/-! SUPPORT. Laws of the state's updates: what each field reads after each named update, one lemma per group and, for
the control registers, per field. -/

namespace Sys2Proof.Machine


/-! `setStatus` -/

@[simp] theorem State.setStatus_cfg (s : State) (v : BitVec 8) : (s.setStatus v).cfg = s.cfg := rfl
@[simp] theorem State.setStatus_vol (s : State) (v : BitVec 8) : (s.setStatus v).vol = s.vol := rfl
@[simp] theorem State.setStatus_env (s : State) (v : BitVec 8) : (s.setStatus v).env = s.env := rfl
@[simp] theorem State.setStatus_agc (s : State) (v : BitVec 8) : (s.setStatus v).agc = s.agc := rfl
@[simp] theorem State.setStatus_peak (s : State) (v : BitVec 8) : (s.setStatus v).peak = s.peak := rfl
@[simp] theorem State.setStatus_beat (s : State) (v : BitVec 8) : (s.setStatus v).beat = s.beat := rfl
@[simp] theorem State.setStatus_cond (s : State) (v : BitVec 8) : (s.setStatus v).cond = s.cond := rfl
@[simp] theorem State.setStatus_chan (s : State) (v : BitVec 8) : (s.setStatus v).chan = s.chan := rfl
@[simp] theorem State.setStatus_mrb (s : State) (v : BitVec 8) : (s.setStatus v).mrb = s.mrb := rfl
@[simp] theorem State.setStatus_mem (s : State) (v : BitVec 8) : (s.setStatus v).mem = s.mem := rfl
@[simp] theorem State.setStatus_spec (s : State) (v : BitVec 8) : (s.setStatus v).spec = s.spec := rfl
@[simp] theorem State.setStatus_io (s : State) (v : BitVec 8) : (s.setStatus v).io = s.io := rfl
@[simp] theorem State.setStatus_status (s : State) (v : BitVec 8) : (s.setStatus v).ctl.status = v := rfl
@[simp] theorem State.setStatus_phase (s : State) (v : BitVec 8) : (s.setStatus v).ctl.phase = s.ctl.phase := rfl
@[simp] theorem State.setStatus_nowMs (s : State) (v : BitVec 8) : (s.setStatus v).ctl.nowMs = s.ctl.nowMs := rfl
@[simp] theorem State.setStatus_blockCount (s : State) (v : BitVec 8) : (s.setStatus v).ctl.blockCount = s.ctl.blockCount := rfl
@[simp] theorem State.setStatus_chanId (s : State) (v : BitVec 8) : (s.setStatus v).ctl.chanId = s.ctl.chanId := rfl
@[simp] theorem State.setStatus_chanKnown (s : State) (v : BitVec 8) : (s.setStatus v).ctl.chanKnown = s.ctl.chanKnown := rfl

/-! `setPhase` -/

@[simp] theorem State.setPhase_cfg (s : State) (p : BitVec 4) : (s.setPhase p).cfg = s.cfg := rfl
@[simp] theorem State.setPhase_vol (s : State) (p : BitVec 4) : (s.setPhase p).vol = s.vol := rfl
@[simp] theorem State.setPhase_env (s : State) (p : BitVec 4) : (s.setPhase p).env = s.env := rfl
@[simp] theorem State.setPhase_agc (s : State) (p : BitVec 4) : (s.setPhase p).agc = s.agc := rfl
@[simp] theorem State.setPhase_peak (s : State) (p : BitVec 4) : (s.setPhase p).peak = s.peak := rfl
@[simp] theorem State.setPhase_beat (s : State) (p : BitVec 4) : (s.setPhase p).beat = s.beat := rfl
@[simp] theorem State.setPhase_cond (s : State) (p : BitVec 4) : (s.setPhase p).cond = s.cond := rfl
@[simp] theorem State.setPhase_chan (s : State) (p : BitVec 4) : (s.setPhase p).chan = s.chan := rfl
@[simp] theorem State.setPhase_mrb (s : State) (p : BitVec 4) : (s.setPhase p).mrb = s.mrb := rfl
@[simp] theorem State.setPhase_mem (s : State) (p : BitVec 4) : (s.setPhase p).mem = s.mem := rfl
@[simp] theorem State.setPhase_spec (s : State) (p : BitVec 4) : (s.setPhase p).spec = s.spec := rfl
@[simp] theorem State.setPhase_io (s : State) (p : BitVec 4) : (s.setPhase p).io = s.io := rfl
@[simp] theorem State.setPhase_status (s : State) (p : BitVec 4) : (s.setPhase p).ctl.status = s.ctl.status := rfl
@[simp] theorem State.setPhase_phase (s : State) (p : BitVec 4) : (s.setPhase p).ctl.phase = p := rfl
@[simp] theorem State.setPhase_nowMs (s : State) (p : BitVec 4) : (s.setPhase p).ctl.nowMs = s.ctl.nowMs := rfl
@[simp] theorem State.setPhase_blockCount (s : State) (p : BitVec 4) : (s.setPhase p).ctl.blockCount = s.ctl.blockCount := rfl
@[simp] theorem State.setPhase_chanId (s : State) (p : BitVec 4) : (s.setPhase p).ctl.chanId = s.ctl.chanId := rfl
@[simp] theorem State.setPhase_chanKnown (s : State) (p : BitVec 4) : (s.setPhase p).ctl.chanKnown = s.ctl.chanKnown := rfl

/-! `putFlag` -/

@[simp] theorem State.putFlag_cfg (s : State) (b : StatusBit) (v : Bool) : (s.putFlag b v).cfg = s.cfg := rfl
@[simp] theorem State.putFlag_vol (s : State) (b : StatusBit) (v : Bool) : (s.putFlag b v).vol = s.vol := rfl
@[simp] theorem State.putFlag_env (s : State) (b : StatusBit) (v : Bool) : (s.putFlag b v).env = s.env := rfl
@[simp] theorem State.putFlag_agc (s : State) (b : StatusBit) (v : Bool) : (s.putFlag b v).agc = s.agc := rfl
@[simp] theorem State.putFlag_peak (s : State) (b : StatusBit) (v : Bool) : (s.putFlag b v).peak = s.peak := rfl
@[simp] theorem State.putFlag_beat (s : State) (b : StatusBit) (v : Bool) : (s.putFlag b v).beat = s.beat := rfl
@[simp] theorem State.putFlag_cond (s : State) (b : StatusBit) (v : Bool) : (s.putFlag b v).cond = s.cond := rfl
@[simp] theorem State.putFlag_chan (s : State) (b : StatusBit) (v : Bool) : (s.putFlag b v).chan = s.chan := rfl
@[simp] theorem State.putFlag_mrb (s : State) (b : StatusBit) (v : Bool) : (s.putFlag b v).mrb = s.mrb := rfl
@[simp] theorem State.putFlag_mem (s : State) (b : StatusBit) (v : Bool) : (s.putFlag b v).mem = s.mem := rfl
@[simp] theorem State.putFlag_spec (s : State) (b : StatusBit) (v : Bool) : (s.putFlag b v).spec = s.spec := rfl
@[simp] theorem State.putFlag_io (s : State) (b : StatusBit) (v : Bool) : (s.putFlag b v).io = s.io := rfl
@[simp] theorem State.putFlag_status (s : State) (b : StatusBit) (v : Bool) : (s.putFlag b v).ctl.status = (if v then s.ctl.status ||| b.mask else s.ctl.status &&& ~~~b.mask) := rfl
@[simp] theorem State.putFlag_phase (s : State) (b : StatusBit) (v : Bool) : (s.putFlag b v).ctl.phase = s.ctl.phase := rfl
@[simp] theorem State.putFlag_nowMs (s : State) (b : StatusBit) (v : Bool) : (s.putFlag b v).ctl.nowMs = s.ctl.nowMs := rfl
@[simp] theorem State.putFlag_blockCount (s : State) (b : StatusBit) (v : Bool) : (s.putFlag b v).ctl.blockCount = s.ctl.blockCount := rfl
@[simp] theorem State.putFlag_chanId (s : State) (b : StatusBit) (v : Bool) : (s.putFlag b v).ctl.chanId = s.ctl.chanId := rfl
@[simp] theorem State.putFlag_chanKnown (s : State) (b : StatusBit) (v : Bool) : (s.putFlag b v).ctl.chanKnown = s.ctl.chanKnown := rfl

/-! `raise` -/

@[simp] theorem State.raise_cfg (s : State) (c : Condition) : (s.raise c).cfg = s.cfg := rfl
@[simp] theorem State.raise_vol (s : State) (c : Condition) : (s.raise c).vol = s.vol := rfl
@[simp] theorem State.raise_env (s : State) (c : Condition) : (s.raise c).env = s.env := rfl
@[simp] theorem State.raise_agc (s : State) (c : Condition) : (s.raise c).agc = s.agc := rfl
@[simp] theorem State.raise_peak (s : State) (c : Condition) : (s.raise c).peak = s.peak := rfl
@[simp] theorem State.raise_beat (s : State) (c : Condition) : (s.raise c).beat = s.beat := rfl
@[simp] theorem State.raise_cond (s : State) (c : Condition) : (s.raise c).cond = s.cond := rfl
@[simp] theorem State.raise_chan (s : State) (c : Condition) : (s.raise c).chan = s.chan := rfl
@[simp] theorem State.raise_mrb (s : State) (c : Condition) : (s.raise c).mrb = s.mrb := rfl
@[simp] theorem State.raise_mem (s : State) (c : Condition) : (s.raise c).mem = s.mem := rfl
@[simp] theorem State.raise_spec (s : State) (c : Condition) : (s.raise c).spec = s.spec := rfl
@[simp] theorem State.raise_io (s : State) (c : Condition) : (s.raise c).io = s.io := rfl
@[simp] theorem State.raise_status (s : State) (c : Condition) : (s.raise c).ctl.status = s.ctl.status ||| c.bits := rfl
@[simp] theorem State.raise_phase (s : State) (c : Condition) : (s.raise c).ctl.phase = s.ctl.phase := rfl
@[simp] theorem State.raise_nowMs (s : State) (c : Condition) : (s.raise c).ctl.nowMs = s.ctl.nowMs := rfl
@[simp] theorem State.raise_blockCount (s : State) (c : Condition) : (s.raise c).ctl.blockCount = s.ctl.blockCount := rfl
@[simp] theorem State.raise_chanId (s : State) (c : Condition) : (s.raise c).ctl.chanId = s.ctl.chanId := rfl
@[simp] theorem State.raise_chanKnown (s : State) (c : Condition) : (s.raise c).ctl.chanKnown = s.ctl.chanKnown := rfl

/-! `acknowledge` -/

@[simp] theorem State.acknowledge_cfg (s : State) (v : Word) : (s.acknowledge v).cfg = s.cfg := rfl
@[simp] theorem State.acknowledge_vol (s : State) (v : Word) : (s.acknowledge v).vol = s.vol := rfl
@[simp] theorem State.acknowledge_env (s : State) (v : Word) : (s.acknowledge v).env = s.env := rfl
@[simp] theorem State.acknowledge_agc (s : State) (v : Word) : (s.acknowledge v).agc = s.agc := rfl
@[simp] theorem State.acknowledge_peak (s : State) (v : Word) : (s.acknowledge v).peak = s.peak := rfl
@[simp] theorem State.acknowledge_beat (s : State) (v : Word) : (s.acknowledge v).beat = s.beat := rfl
@[simp] theorem State.acknowledge_cond (s : State) (v : Word) : (s.acknowledge v).cond = s.cond := rfl
@[simp] theorem State.acknowledge_chan (s : State) (v : Word) : (s.acknowledge v).chan = s.chan := rfl
@[simp] theorem State.acknowledge_mrb (s : State) (v : Word) : (s.acknowledge v).mrb = s.mrb := rfl
@[simp] theorem State.acknowledge_mem (s : State) (v : Word) : (s.acknowledge v).mem = s.mem := rfl
@[simp] theorem State.acknowledge_spec (s : State) (v : Word) : (s.acknowledge v).spec = s.spec := rfl
@[simp] theorem State.acknowledge_io (s : State) (v : Word) : (s.acknowledge v).io = s.io := rfl
@[simp] theorem State.acknowledge_status (s : State) (v : Word) : (s.acknowledge v).ctl.status = clearWritten s.ctl.status v := rfl
@[simp] theorem State.acknowledge_phase (s : State) (v : Word) : (s.acknowledge v).ctl.phase = s.ctl.phase := rfl
@[simp] theorem State.acknowledge_nowMs (s : State) (v : Word) : (s.acknowledge v).ctl.nowMs = s.ctl.nowMs := rfl
@[simp] theorem State.acknowledge_blockCount (s : State) (v : Word) : (s.acknowledge v).ctl.blockCount = s.ctl.blockCount := rfl
@[simp] theorem State.acknowledge_chanId (s : State) (v : Word) : (s.acknowledge v).ctl.chanId = s.ctl.chanId := rfl
@[simp] theorem State.acknowledge_chanKnown (s : State) (v : Word) : (s.acknowledge v).ctl.chanKnown = s.ctl.chanKnown := rfl

/-! `setRawIn` -/

@[simp] theorem State.setRawIn_ctl (s : State) (i : Nat) (v : Word) : (s.setRawIn i v).ctl = s.ctl := rfl
@[simp] theorem State.setRawIn_cfg (s : State) (i : Nat) (v : Word) : (s.setRawIn i v).cfg = s.cfg := rfl
@[simp] theorem State.setRawIn_vol (s : State) (i : Nat) (v : Word) : (s.setRawIn i v).vol = s.vol := rfl
@[simp] theorem State.setRawIn_env (s : State) (i : Nat) (v : Word) : (s.setRawIn i v).env = s.env := rfl
@[simp] theorem State.setRawIn_agc (s : State) (i : Nat) (v : Word) : (s.setRawIn i v).agc = s.agc := rfl
@[simp] theorem State.setRawIn_peak (s : State) (i : Nat) (v : Word) : (s.setRawIn i v).peak = s.peak := rfl
@[simp] theorem State.setRawIn_beat (s : State) (i : Nat) (v : Word) : (s.setRawIn i v).beat = s.beat := rfl
@[simp] theorem State.setRawIn_cond (s : State) (i : Nat) (v : Word) : (s.setRawIn i v).cond = s.cond := rfl
@[simp] theorem State.setRawIn_chan (s : State) (i : Nat) (v : Word) : (s.setRawIn i v).chan = s.chan := rfl
@[simp] theorem State.setRawIn_mrb (s : State) (i : Nat) (v : Word) : (s.setRawIn i v).mrb = s.mrb := rfl
@[simp] theorem State.setRawIn_spec (s : State) (i : Nat) (v : Word) : (s.setRawIn i v).spec = s.spec := rfl
@[simp] theorem State.setRawIn_io (s : State) (i : Nat) (v : Word) : (s.setRawIn i v).io = s.io := rfl
@[simp] theorem State.setRawIn_mem (s : State) (i : Nat) (v : Word) :
    (s.setRawIn i v).mem = Memory.writeWord s.mem (rawBase + 4 * i) v := rfl

/-! `withCommand` -/

@[simp] theorem State.withCommand_ctl (s : State) (w : Word) : (s.withCommand w).ctl = s.ctl := rfl
@[simp] theorem State.withCommand_cfg (s : State) (w : Word) : (s.withCommand w).cfg = s.cfg := rfl
@[simp] theorem State.withCommand_vol (s : State) (w : Word) : (s.withCommand w).vol = s.vol := rfl
@[simp] theorem State.withCommand_env (s : State) (w : Word) : (s.withCommand w).env = s.env := rfl
@[simp] theorem State.withCommand_agc (s : State) (w : Word) : (s.withCommand w).agc = s.agc := rfl
@[simp] theorem State.withCommand_peak (s : State) (w : Word) : (s.withCommand w).peak = s.peak := rfl
@[simp] theorem State.withCommand_beat (s : State) (w : Word) : (s.withCommand w).beat = s.beat := rfl
@[simp] theorem State.withCommand_cond (s : State) (w : Word) : (s.withCommand w).cond = s.cond := rfl
@[simp] theorem State.withCommand_chan (s : State) (w : Word) : (s.withCommand w).chan = s.chan := rfl
@[simp] theorem State.withCommand_mrb (s : State) (w : Word) : (s.withCommand w).mrb = s.mrb := rfl
@[simp] theorem State.withCommand_mem (s : State) (w : Word) : (s.withCommand w).mem = s.mem := rfl
@[simp] theorem State.withCommand_spec (s : State) (w : Word) : (s.withCommand w).spec = s.spec := rfl
@[simp] theorem State.withCommand_bus (s : State) (w : Word) :
    (s.withCommand w).io.bus = .write cmdAddr 4 w :: s.io.bus := rfl

/-! The word reads of the flags -/

@[simp] theorem State.flag_setPhase (s : State) (p : BitVec 4) (b : StatusBit) :
    (s.setPhase p).flag b = s.flag b := rfl

/-- What a `STATUS` bit reads after `putFlag`. -/
@[simp] theorem State.flag_putFlag (s : State) (b c : StatusBit) (v : Bool) :
    (s.putFlag b v).flag c = if c = b then v else s.flag c := by
  cases v <;> cases b <;> cases c <;>
    simp [State.flag, State.putFlag, State.setStatus, StatusBit.mask, StatusBit.index]

/-- What a `STATUS` bit reads after a condition is taken (R301 to R304). -/
@[simp] theorem State.flag_raise (s : State) (c : Condition) (b : StatusBit) :
    (s.raise c).flag b = (s.flag b || c.bits.getLsbD b.index) := by
  simp [State.flag]

/-- What a `STATUS` bit reads after a host write (R41). -/
@[simp] theorem State.flag_acknowledge (s : State) (v : Word) (b : StatusBit) :
    (s.acknowledge v).flag b = (s.flag b && !(v.getLsbD b.index && w1cMask.getLsbD b.index)) := by
  cases b <;> simp [State.flag, clearWritten, StatusBit.index]

end Sys2Proof.Machine
end

