-- ==== Sys2Proof/Laws/Ops.lean ====
section
/-! SUPPORT. Laws of the execution of a command: the `perform` step of each, what `exec` can answer, and when it
performs. -/

namespace Sys2Proof.Machine

/-- The `perform` step of a command of this AFE (R120). -/
abbrev performOf (i : Instr) : State → State := performWith Config.params i

/-- Every meaning is the shared `command` with its own `perform` step. -/
theorem exec_eq_command (i : Instr) (s : State) : exec i s = command i (performOf i) s := by
  cases i <;> rfl

/-- A command that is not aborted and in phase performs (R120). -/
theorem command_performs {i : Instr} {f : State → State} {s : State}
    (ha : s.flag .abort = false ∨ runsWhileAborted i = true) (hp : phaseOk i s.ctl.phase = true) :
    command i f s = .next ((f s).setPhase (phaseNext i s)) := by
  rcases ha with ha | ha <;> simp [command, ha, hp]

/-- An aborted cycle's command changes nothing (R122). -/
theorem command_aborted {i : Instr} {f : State → State} {s : State} (ha : s.flag .abort = true)
    (hr : runsWhileAborted i = false) : command i f s = .next s := by
  simp [command, ha, hr]

/-- A command out of phase raises `SequenceError` (R135). -/
theorem command_outOfPhase {i : Instr} {f : State → State} {s : State}
    (ha : s.flag .abort = false ∨ runsWhileAborted i = true) (hp : phaseOk i s.ctl.phase = false) :
    command i f s = .next (s.raise .sequenceError) := by
  rcases ha with ha | ha <;> simp [command, ha, hp]

/-- Everything a command can answer. -/
theorem command_cases (i : Instr) (f : State → State) (s : State) :
    (s.flag .abort = true ∧ runsWhileAborted i = false ∧ command i f s = .next s) ∨
    ((s.flag .abort = false ∨ runsWhileAborted i = true) ∧ phaseOk i s.ctl.phase = true ∧
      command i f s = .next ((f s).setPhase (phaseNext i s))) ∨
    ((s.flag .abort = false ∨ runsWhileAborted i = true) ∧ phaseOk i s.ctl.phase = false ∧
      command i f s = .next (s.raise .sequenceError)) := by
  cases ha : s.flag .abort <;> cases hr : runsWhileAborted i <;> cases hp : phaseOk i s.ctl.phase <;>
    simp [command, ha, hr, hp]

/-- Everything that `exec` can answer: a next state, by one of R120's three exits. -/
theorem exec_next {i : Instr} {s t : State} (h : exec i s = .next t) :
    (s.flag .abort = true ∧ runsWhileAborted i = false ∧ t = s) ∨
    ((s.flag .abort = false ∨ runsWhileAborted i = true) ∧ phaseOk i s.ctl.phase = true ∧
      t = (performOf i s).setPhase (phaseNext i s)) ∨
    ((s.flag .abort = false ∨ runsWhileAborted i = true) ∧ phaseOk i s.ctl.phase = false ∧
      t = s.raise .sequenceError) := by
  rw [exec_eq_command] at h
  rcases command_cases i (performOf i) s with ⟨a, b, c⟩ | ⟨a, b, c⟩ | ⟨a, b, c⟩ <;> rw [c] at h <;> cases h
  · exact .inl ⟨a, b, rfl⟩
  · exact .inr (.inl ⟨a, b, rfl⟩)
  · exact .inr (.inr ⟨a, b, rfl⟩)

end Sys2Proof.Machine
end

