-- ==== Sys2Proof/Laws/PerInstr.lean ====
section
/-! SUPPORT. The family `Fields`, one lemma per command: a command word's three fields are the command's opcode, its
argument and its immediate (R100, R102), and the operand of a well-formed command is read back from `IMM`
unchanged (R101). -/

namespace Sys2Proof.Laws

/-- The operand `dt` of a command, 0 where it has none (R101). -/
def operandOf (i : Instr) : Nat :=
  match i with
  | .agcTick dt => dt
  | .limit dt => dt
  | _ => 0

/-- The fields of the command word. -/
def Fields.Statement (i : Instr) : Prop :=
  opField (encode i) = opcodeOf i ∧ argField (encode i) = argOf i ∧ immField (encode i) = immOf i ∧
    (WellFormed i = true → (immField (encode i)).toNat = operandOf i)

theorem Fields.nop : Fields.Statement .nop :=
  ⟨opField_encode _, argField_encode _, immField_encode _, fun _ => by rw [immField_encode]; rfl⟩

theorem Fields.cycleBegin : Fields.Statement .cycleBegin :=
  ⟨opField_encode _, argField_encode _, immField_encode _, fun _ => by rw [immField_encode]; rfl⟩

theorem Fields.reset : Fields.Statement .reset :=
  ⟨opField_encode _, argField_encode _, immField_encode _, fun _ => by rw [immField_encode]; rfl⟩

theorem Fields.condRepair : Fields.Statement .condRepair :=
  ⟨opField_encode _, argField_encode _, immField_encode _, fun _ => by rw [immField_encode]; rfl⟩

theorem Fields.condNorm : Fields.Statement .condNorm :=
  ⟨opField_encode _, argField_encode _, immField_encode _, fun _ => by rw [immField_encode]; rfl⟩

theorem Fields.condBpf : Fields.Statement .condBpf :=
  ⟨opField_encode _, argField_encode _, immField_encode _, fun _ => by rw [immField_encode]; rfl⟩

theorem Fields.condMax : Fields.Statement .condMax :=
  ⟨opField_encode _, argField_encode _, immField_encode _, fun _ => by rw [immField_encode]; rfl⟩

theorem Fields.envSample : Fields.Statement .envSample :=
  ⟨opField_encode _, argField_encode _, immField_encode _, fun _ => by rw [immField_encode]; rfl⟩

theorem Fields.agcTick (dt : Nat) : Fields.Statement (.agcTick dt) :=
  ⟨opField_encode _, argField_encode _, immField_encode _, fun h => by
    rw [immField_encode]; exact immOf_toNat_of_fits h⟩

theorem Fields.limit (dt : Nat) : Fields.Statement (.limit dt) :=
  ⟨opField_encode _, argField_encode _, immField_encode _, fun h => by
    rw [immField_encode]; exact immOf_toNat_of_fits h⟩

theorem Fields.fftRun : Fields.Statement .fftRun :=
  ⟨opField_encode _, argField_encode _, immField_encode _, fun _ => by rw [immField_encode]; rfl⟩

theorem Fields.agg16 : Fields.Statement .agg16 :=
  ⟨opField_encode _, argField_encode _, immField_encode _, fun _ => by rw [immField_encode]; rfl⟩

theorem Fields.scale16 : Fields.Statement .scale16 :=
  ⟨opField_encode _, argField_encode _, immField_encode _, fun _ => by rw [immField_encode]; rfl⟩

theorem Fields.binner8 : Fields.Statement .binner8 :=
  ⟨opField_encode _, argField_encode _, immField_encode _, fun _ => by rw [immField_encode]; rfl⟩

theorem Fields.binner16 : Fields.Statement .binner16 :=
  ⟨opField_encode _, argField_encode _, immField_encode _, fun _ => by rw [immField_encode]; rfl⟩

theorem Fields.binner32 : Fields.Statement .binner32 :=
  ⟨opField_encode _, argField_encode _, immField_encode _, fun _ => by rw [immField_encode]; rfl⟩

theorem Fields.binner64 : Fields.Statement .binner64 :=
  ⟨opField_encode _, argField_encode _, immField_encode _, fun _ => by rw [immField_encode]; rfl⟩

theorem Fields.binner128 : Fields.Statement .binner128 :=
  ⟨opField_encode _, argField_encode _, immField_encode _, fun _ => by rw [immField_encode]; rfl⟩

theorem Fields.peakDetect : Fields.Statement .peakDetect :=
  ⟨opField_encode _, argField_encode _, immField_encode _, fun _ => by rw [immField_encode]; rfl⟩

theorem Fields.peakReset : Fields.Statement .peakReset :=
  ⟨opField_encode _, argField_encode _, immField_encode _, fun _ => by rw [immField_encode]; rfl⟩

theorem Fields.beatTrack : Fields.Statement .beatTrack :=
  ⟨opField_encode _, argField_encode _, immField_encode _, fun _ => by rw [immField_encode]; rfl⟩

end Sys2Proof.Laws
end

