-- ==== Sys2Proof/Laws/Step.lean ====
section
/-! SUPPORT. Laws of a host access and of a step: what a write to a location can change, and everything one step can
do. -/

namespace Sys2Proof.Machine

/-! ### Writes to a location -/

section WriteLoc

variable (s : State) (l : Loc) (v : Word)

@[simp] theorem State.writeLoc_vol : (s.writeLoc l v).vol = s.vol := by cases l <;> rfl

@[simp] theorem State.writeLoc_env : (s.writeLoc l v).env = s.env := by cases l <;> rfl

@[simp] theorem State.writeLoc_agc : (s.writeLoc l v).agc = s.agc := by cases l <;> rfl

@[simp] theorem State.writeLoc_beat : (s.writeLoc l v).beat = s.beat := by cases l <;> rfl

@[simp] theorem State.writeLoc_cond : (s.writeLoc l v).cond = s.cond := by cases l <;> rfl

@[simp] theorem State.writeLoc_chan : (s.writeLoc l v).chan = s.chan := by cases l <;> rfl

@[simp] theorem State.writeLoc_mrb : (s.writeLoc l v).mrb = s.mrb := by cases l <;> rfl

@[simp] theorem State.writeLoc_spec : (s.writeLoc l v).spec = s.spec := by cases l <;> rfl

@[simp] theorem State.writeLoc_io : (s.writeLoc l v).io = s.io := by cases l <;> rfl

@[simp] theorem State.writeLoc_phase : (s.writeLoc l v).ctl.phase = s.ctl.phase := by cases l <;> rfl

/-- A host write never changes `ABORT` (R41). -/
@[simp] theorem State.writeLoc_abort : (s.writeLoc l v).flag .abort = s.flag .abort := by
  cases l <;> try rfl
  simp [State.writeLoc, w1cMask, StatusBit.index]

/-- A host write changes the storage only through `RAW_IN`. -/
theorem State.writeLoc_mem :
    (s.writeLoc l v).mem = s.mem ∨
      ∃ i, l = .rawIn i ∧ (s.writeLoc l v).mem = Memory.writeWord s.mem (rawBase + 4 * i) v := by
  cases l with
  | rawIn i => exact .inr ⟨i, rfl, rfl⟩
  | _ => exact .inl rfl

end WriteLoc

/-- Above the single registers only the arrays are left (R71). -/
theorem locOf_of_ge {a : Nat} (h : 0x1A8 ≤ a) : locOf a = locOfArray a := by
  unfold locOf
  split <;> first | rfl | omega

/-- A choice of locations whose first is not the one found: it is found in what follows. -/
theorem Loc.of_skip {c : Prop} [Decidable c] {x y z : Loc} (h : (if c then x else y) = z) (hx : x ≠ z) : y = z := by
  by_cases hc : c
  · exact absurd ((if_pos hc).symm.trans h) hx
  · exact (if_neg hc).symm.trans h

/-- Among the arrays, a word of `RAW_IN` stands at `RAW_IN`'s own addresses only (R56): eight arrays lie below it in
the map and two above. -/
theorem locOfArray_rawIn {a i : Nat} (h : locOfArray a = .rawIn i) :
    (0x1000 ≤ a ∧ a < 0x1800) ∧ i = (a - 0x1000) / 4 := by
  unfold locOfArray at h
  iterate 8 replace h := Loc.of_skip h nofun
  by_cases hr : 0x1000 ≤ a ∧ a < 0x1800
  · rw [if_pos hr] at h
    exact ⟨hr, (Loc.rawIn.inj h).symm⟩
  · rw [if_neg hr] at h
    iterate 2 replace h := Loc.of_skip h nofun
    cases h

/-- The index of a `RAW_IN` word is below 512 (R56, R71). -/
theorem locOf_rawIn {a i : Nat} (h : locOf a = .rawIn i) : i < 512 ∧ a - a % 4 = rawBase + 4 * i := by
  have ha : locOfArray a = .rawIn i := by
    unfold locOf at h
    split at h <;> first | cases h | exact h
  have := locOfArray_rawIn ha
  simp only [rawBase]
  omega

/-! ### One step -/

/-- Everything one step can do when it goes on: nothing (no access pending); or, with the pending access taken off the
bus (`s₀`), a read, a command, an illegal word, a write to another register or array, or power-on reset. -/
theorem step_next {s t : State} (h : step s = .next t) :
    (s.io.bus = [] ∧ t = s) ∨
    ∃ op rest, s.io.bus = op :: rest ∧ ∃ s₀ : State, s₀ = { s with io := { s.io with bus := rest } } ∧
      ((∃ a, a.toNat % 4 = 0 ∧ op = .read a 4 ∧ t = busRead a s₀) ∨
       (∃ w i, op = .write cmdAddr 4 w ∧ decode w = .ok i ∧ exec i s₀ = .next t) ∨
       (∃ w e, op = .write cmdAddr 4 w ∧ decode w = .error e ∧ t = s₀.raise .illegalCommand) ∨
       (∃ a v, a.toNat % 4 = 0 ∧ a ≠ cmdAddr ∧ op = .write a 4 v ∧ t = s₀.writeLoc (locOf a.toNat) v) ∨
       (op = .powerOn ∧ t = powerOn s₀)) := by
  unfold step nextAccess at h
  split at h
  · rename_i hb
    exact .inl ⟨hb, (Host.Outcome.next.inj h).symm⟩
  · rename_i op rest hb
    refine .inr ⟨op, rest, hb, _, rfl, ?_⟩
    cases op with
    | read a n =>
      simp only [access] at h
      split_ifs at h with h1 h2
      exact .inl ⟨a, by omega, by simp_all, (Host.Outcome.next.inj h).symm⟩
    | write a n v =>
      simp only [access] at h
      split_ifs at h with h1 h2
      have hn : n = 4 := by simpa using h1
      subst hn
      unfold busWrite at h
      split_ifs at h with h3
      · subst h3
        unfold issue at h
        split at h
        · rename_i i hd; exact .inr (.inl ⟨v, i, rfl, hd, h⟩)
        · rename_i e hd; exact .inr (.inr (.inl ⟨v, e, rfl, hd, (Host.Outcome.next.inj h).symm⟩))
      · exact .inr (.inr (.inr (.inl ⟨a, v, by omega, h3, rfl, (Host.Outcome.next.inj h).symm⟩)))
    | powerOn => exact .inr (.inr (.inr (.inr ⟨rfl, (Host.Outcome.next.inj h).symm⟩)))

end Sys2Proof.Machine
end

