-- ==== Sys2Proof/Tests/Slice0.lean ====
section
/-! SUPPORT. Tests.  Expected values are those of `spec/95_test_vectors.md` (a vector's name V-… stands in the
docstring), computed there by hand from the rules under illustrative parameters, and words written out from the
encoding of R100 to R103.  The second part shows, for each statement with hypotheses, a state and operands that meet
them. -/

namespace Sys2Proof.Tests

open Sys2Proof Sys2Proof.Machine

-- One test after another: a hundred at once would each take a thread of their own.
set_option Elab.async false

/-! ### The illustrative parameters of 95_test_vectors.md, section 0 (no values of the hardware) -/

/-- `P_EX`. -/
def presetEx : Preset :=
  { decay := F32.ofRatio 99 100, zoneLow := F32.ofNat 32, zoneHigh := F32.ofNat 240, zoneStop := F32.ofNat 336,
    target0 := F32.ofNat 112, target1 := F32.ofNat 220, targetSwitch := F32.ofNat 88,
    followFast := F32.ofRatio 1 2, followSlow := F32.ofRatio 1 100, kp := F32.ofRatio 6 10, ki := F32.ofRatio 17 10,
    smooth := F32.ofRatio 125 1000 }

/-- The illustrative parameters; `FFT_FN` returns 7 in the bins 5 and 9, 100 in bin 0, and 0 elsewhere. -/
def paramsEx : Params :=
  { (default : Params) with
    tagLo := 12, tagBits := 4, dataLo := 0, dataBits := 12, fs := F32.ofNat 22050
    repairScale := F32.ofRatio 1 2, bpfB0 := F32.ofRatio 1 4, bpfB1 := F32.ofRatio 1 2, bpfB2 := F32.ofRatio 1 4
    outlierLimit := F32.ofNat 500, dcFastDiv := F32.ofNat 32, agcSilEnv := F32.ofNat 2, agcSilPeak := F32.one
    presetNormal := presetEx, presetVivid := presetEx, presetLazy := presetEx, limBigChange := F32.ofNat 50
    fftGate := F32.ofRatio 1 2, aggGate := F32.ofRatio 1 2, window := fun _ => F32.one
    fftFn := fun _ k => (if k = 5 ∨ k = 9 then F32.ofNat 7 else if k = 0 then F32.ofNat 100 else F32.zero, F32.zero)
    fftDownscale := F32.ofRatio 1 2, skipMag := F32.ofRatio 1 100, chSnap := F32.ofRatio 1 100
    windowComp := F32.ofNat 2, pink := fun _ => F32.ofRatio 3 2
    edgesBpf := fun c => { lo := c + 1, hi := c + 2 }, edgesNobpf := fun c => { lo := c + 1, hi := c + 2 }
    band15Damp := F32.ofRatio 1 2, postGain := fun _ => F32.ofNat 2, beatRatio := F32.ofRatio 3 2
    beatEstFrac := F32.ofRatio 1 2, cyclePeriodMs := 13 }

/-- The state an outcome goes on to; reset where it does not. -/
def nextOf (o : Host.Outcome State Fault Refusal) : State :=
  match o with
  | .next t => t
  | .fault _ => State.reset
  | .refused _ => State.reset

/-- The reset state in phase `p`. -/
def inPhase (p : BitVec 4) : State := State.reset.setPhase p

/-- The reset state with the given accesses pending. -/
def withBus (ops : List HostOp) : State := { State.reset with io := { Io.reset with bus := ops } }

/-- The block whose elements are given, the rest 0.0. -/
def block (l : List Nat) : Arr F32 512 :=
  Arr.tab 512 fun i => ⟨BitVec.ofNat 32 (l.getD i 0)⟩

/-! ### Well-formedness (smoke) -/

theorem test_wf_agcTick : WellFormed (.agcTick 65535) = true ∧ WellFormed (.agcTick 65536) = false := by decide

theorem test_wf_limit : WellFormed (.limit 65535) = true ∧ WellFormed (.limit 65536) = false := by decide

theorem test_wf_plain : WellFormed .nop = true ∧ WellFormed .binner128 = true := by decide

/-! ### Decoding: the word of every row, written out from R100 to R103 -/

theorem test_decode_nop : decode 0x00000000#32 = .ok .nop := by decide
theorem test_decode_cycleBegin : decode 0x01000000#32 = .ok .cycleBegin := by decide
theorem test_decode_reset : decode 0x0F000000#32 = .ok .reset := by decide
theorem test_decode_condRepair : decode 0x10000000#32 = .ok .condRepair := by decide
theorem test_decode_condNorm : decode 0x11000000#32 = .ok .condNorm := by decide
theorem test_decode_condBpf : decode 0x12000000#32 = .ok .condBpf := by decide
theorem test_decode_condMax : decode 0x13000000#32 = .ok .condMax := by decide
theorem test_decode_envSample : decode 0x20000000#32 = .ok .envSample := by decide
theorem test_decode_agcTick : decode 0x21000014#32 = .ok (.agcTick 20) := by decide
theorem test_decode_limit : decode 0x2200FFFF#32 = .ok (.limit 65535) := by decide
theorem test_decode_fftRun : decode 0x30000000#32 = .ok .fftRun := by decide
theorem test_decode_agg16 : decode 0x40000000#32 = .ok .agg16 := by decide
theorem test_decode_scale16 : decode 0x41000000#32 = .ok .scale16 := by decide
theorem test_decode_binner8 : decode 0x42030000#32 = .ok .binner8 := by decide
theorem test_decode_binner16 : decode 0x42040000#32 = .ok .binner16 := by decide
theorem test_decode_binner32 : decode 0x42050000#32 = .ok .binner32 := by decide
theorem test_decode_binner64 : decode 0x42060000#32 = .ok .binner64 := by decide
theorem test_decode_binner128 : decode 0x42070000#32 = .ok .binner128 := by decide
theorem test_decode_peakDetect : decode 0x50000000#32 = .ok .peakDetect := by decide
theorem test_decode_peakReset : decode 0x51000000#32 = .ok .peakReset := by decide
theorem test_decode_beatTrack : decode 0x52000000#32 = .ok .beatTrack := by decide

/-- V-CT5 to V-CT12: each kind of illegal word is rejected by name. -/
theorem test_decode_illegal :
    decode 0x02000000#32 = .error (.unassignedOpcode 0x02#8) ∧ decode 0xFF000000#32 = .error (.unassignedOpcode 0xFF#8) ∧
      decode 0x00000001#32 = .error (.nonzeroImm 1#16) ∧ decode 0x10010000#32 = .error (.nonzeroArg 1#8) ∧
      decode 0x21010005#32 = .error (.nonzeroArg 1#8) ∧ decode 0x42020000#32 = .error (.binnerArg 2#8) ∧
      decode 0x42080000#32 = .error (.binnerArg 8#8) ∧ decode 0x42030001#32 = .error (.nonzeroImm 1#16) := by decide

/-- A command is exactly one word (R100), little-endian in bytes (R75). -/
theorem test_decode_bytes :
    decodeBytes [0x14#8, 0x00#8, 0x00#8, 0x21#8] = .ok (.agcTick 20) ∧
      decodeBytes [0x14#8, 0x00#8, 0x00#8] = .error (.notOneWord 3) ∧
      decodeTableWord 32 0x42070000 = some .binner128 ∧ decodeTableWord 32 0x42080000 = none := by decide

/-! ### One step on a small state -/

/-- V-CT1. -/
theorem test_nop : (nextOf (exec .nop (State.reset.setStatus 1#8))).ctl.status = 1#8 := by decide

/-- V-CT2. -/
theorem test_cycleBegin :
    (nextOf (exec .cycleBegin (State.reset.setStatus 9#8))).ctl.status = 8#8 ∧
      (nextOf (exec .cycleBegin (State.reset.setStatus 9#8))).ctl.phase = 1#4 := by decide

/-- V-CT4. -/
def resetStart : State :=
  { (inPhase 8#4).setStatus 0x16#8 with
    agc := { AgcState.reset with mult := F32.ofNat 4 }, cfg := { ConfigRegs.reset with agcMode := 1#2 } }

theorem test_reset :
    (nextOf (exec .reset resetStart)).agc.mult.bits = 0x3F800000#32 ∧ (nextOf (exec .reset resetStart)).ctl.status = 0#8 ∧
      (nextOf (exec .reset resetStart)).ctl.phase = 0#4 ∧ (nextOf (exec .reset resetStart)).cfg.agcMode = 1#2 := by
  decide +kernel

/-- V-CD2, V-CD3. -/
theorem test_condRepair_shortRead :
    (nextOf (exec .condRepair (inPhase 1#4))).ctl.status = 9#8 ∧
      (nextOf (exec .condRepair (inPhase 1#4))).ctl.phase = 0#4 := by decide +kernel

/-- V-CD1: `RAW_IN[0]` = 0x00000A00 (tag 0), `RAW_IN[1]` = 0x00001A00 (tag 1). -/
def repairStart : State :=
  { inPhase 1#4 with
    ctl := { Control.reset with phase := 1#4, blockCount := 512#32, chanKnown := true }
    mem := [(0x1001, 0x0A#8), (0x1005, 0x1A#8)] }

theorem test_condRepair :
    ((performCondRepair paramsEx repairStart).spec.vreal.nth 0).bits = 0x44000000#32 ∧
      ((performCondRepair paramsEx repairStart).spec.vreal.nth 1).bits = 0x43800000#32 ∧
      ((performCondRepair paramsEx repairStart).spec.vreal.nth 2).bits = 0xC5000000#32 := by decide +kernel

/-- V-CD8: 512.0, 512.0. -/
theorem test_condNorm :
    let t := performCondNorm paramsEx { inPhase 2#4 with
      spec := { SpectrumBuffers.reset with vreal := block [0x44000000, 0x44000000] } }
    (t.spec.vreal.nth 0).bits = 0x42C00000#32 ∧ (t.spec.vreal.nth 1).bits = 0x43000000#32 := by decide +kernel

/-- V-CD11: 100.0, 100.0. -/
theorem test_condBpf :
    let t := performCondBpf paramsEx { inPhase 3#4 with
      spec := { SpectrumBuffers.reset with vreal := block [0x42C80000, 0x42C80000] } }
    (t.spec.vreal.nth 0).bits = 0x41C38000#32 ∧ (t.spec.vreal.nth 1).bits = 0x4291867B#32 := by decide +kernel

/-- V-CD13: 10.0, −40.0, 600.0. -/
theorem test_condMax :
    (([F32.ofNat 10, (F32.ofNat 40).neg, F32.ofNat 600, F32.zero].foldl (maxSample paramsEx) F32.zero).bits
      = 0x42200000#32) := by decide +kernel

/-- V-EN1. -/
def envStart : State :=
  { inPhase 5#4 with
    env := { EnvelopeState.reset with maxSample := F32.ofNat 40 }
    cfg := { ConfigRegs.reset with squelch := 5#8, sampleGain := 40#8, inputLevel := 128#8, agcMode := 1#2 } }

theorem test_envSample :
    let t := (performEnvSample paramsEx envStart).env
    t.dcLevel.bits = 0x3B555555#32 ∧ t.envRaw.bits = 0x421FFCAB#32 ∧ t.envSmooth.bits = 0x40FFFAAB#32 ∧
      t.sampleRaw.bits = 0x4107FD2B#32 ∧ t.sampleMax.bits = 0x407FFAAB#32 ∧ t.sampleAvg.bits = 0x3F07FD2B#32 := by
  decide +kernel

/-- V-EN3: at or below the squelch. -/
theorem test_envSample_squelch :
    let t := (performEnvSample paramsEx { envStart with cfg := { envStart.cfg with squelch := 8#8 } }).env
    t.envRaw = F32.zero ∧ t.envSmooth = F32.zero := by decide +kernel

/-- V-AGC1. -/
def agcStart : State :=
  { inPhase 5#4 with
    env := { EnvelopeState.reset with envSmooth := F32.ofNat 50, sampleMax := F32.ofNat 40 }
    agc := { AgcState.reset with lastPreset := 1#2 }
    cfg := { ConfigRegs.reset with squelch := 5#8, agcMode := 1#2 } }

theorem test_agcTick :
    let t := performAgcTick paramsEx 5 agcStart
    t.agc.mult.bits = 0x3F816265#32 ∧ t.vol.volumeRaw = 50#8 ∧ t.agc.agcElapsed = 0#32 := by decide +kernel

/-- V-AGC2: silence; the integrator 0.5 is bled to 0.455, the multiplier is 0x3F8BB439. -/
theorem test_agcTick_silence :
    let t := performAgcTick paramsEx 2 { agcStart with
      env := { EnvelopeState.reset with envSmooth := F32.one, sampleMax := F32.one }
      agc := { agcStart.agc with intErr := F32.ofRatio 1 2, agcSmooth := F32.ofNat 4 } }
    t.agc.mult.bits = 0x3F8BB439#32 ∧ t.agc.agcSample = F32.zero ∧ t.agc.agcSmooth.bits = 0x40000000#32 := by
  decide +kernel

/-- V-LM1, V-LM2. -/
theorem test_limit :
    let c := { ConfigRegs.reset with limiterEn := 1#1, attackMs := 100#16 }
    (limited paramsEx c 10 (F32.ofNat 100) F32.zero).bits = 0x40A00000#32 ∧
      (limited paramsEx { c with attackMs := 0#16, decayMs := 200#16 } 20 F32.zero (F32.ofNat 100)).bits
        = 0x42BE0000#32 := by decide +kernel

/-- V-LM5, V-LM4: the elapsed time is clamped. -/
theorem test_limit_clamped :
    let c := { ConfigRegs.reset with limiterEn := 1#1, attackMs := 100#16 }
    (limited paramsEx c 5000 (F32.ofNat 100) F32.zero).bits = 0x42C80000#32 ∧
      (limited paramsEx c 0 (F32.ofNat 100) F32.zero).bits = 0x3F000000#32 := by decide +kernel

/-- V-FFT1: the skip path. -/
theorem test_fftRun_skip :
    let t := performFftRun paramsEx (inPhase 5#4)
    t.vol.fftMagnitude = F32.ofRatio 1 100 ∧ t.vol.peakFrequency = F32.one ∧ t.flag .gateFft = false := by
  decide +kernel

/-- R222: bin 0 is never dominant, and of equal maxima (bins 5 and 9) the lower is; its frequency is
5 × 22050 / 512 Hz. -/
theorem test_fftRun_dominant :
    let t := performFftRun paramsEx { inPhase 5#4 with env := { EnvelopeState.reset with sampleAvg := F32.one } }
    t.vol.fftMagnitude = F32.ofNat 7 ∧ t.vol.peakFrequency = F32.ofRatio (5 * 22050) 512 ∧
      t.vol.magnitudeScaled = F32.ofRatio 7 2 ∧ t.flag .gateFft = true := by decide +kernel

/-- R240 example: `FFT_CALC[0]` = 63.75, `FFT_AVG[0]` = 47.8125. -/
theorem test_agg16 :
    let t := performAgg16 paramsEx { inPhase 6#4 with
      env := { EnvelopeState.reset with sampleAvg := F32.one }
      cfg := { ConfigRegs.reset with sampleGain := 40#8, inputLevel := 128#8, decayMs := 500#16 }
      spec := { SpectrumBuffers.reset with vreal := block [0, 0x41200000, 0x41F00000] } }
    (t.chan.fftCalc.nth 0).bits = 0x427F0000#32 ∧ (t.chan.fftAvg.nth 0).bits = 0x423F4000#32 ∧
      t.flag .gateAgg = true := by decide +kernel

/-- V-AGG4 with every `PINK[c]` = 1.0e9, so that the product 1.0e39 overflows: the clamp makes it 1023.0, and the
average rises to 767.25; a second identical command raises it to 959.0625. -/
def aggMaxParams : Params := { paramsEx with pink := fun _ => F32.ofNat (10 ^ 9), windowComp := F32.one }

def aggMaxStart : State :=
  { inPhase 6#4 with
    env := { EnvelopeState.reset with sampleAvg := F32.one }
    spec := { SpectrumBuffers.reset with vreal := block (List.replicate 256 0x7149F2CA) } }

theorem test_agg16_max :
    let t := performAgg16 aggMaxParams aggMaxStart
    (t.chan.fftCalc.nth 0).bits = 0x447FC000#32 ∧ (t.chan.fftCalc.nth 15).bits = 0x447FC000#32 ∧
      (t.chan.fftAvg.nth 15).bits = 0x443FD000#32 ∧
      ((performAgg16 aggMaxParams t).chan.fftAvg.nth 15).bits = 0x446FC400#32 := by decide +kernel

/-- R243: with the gate closed, 100.0 decays to 85.0 and 0.01 snaps to 0.0. -/
theorem test_agg16_closed :
    (channelDecay paramsEx (F32.ofNat 100)).bits = 0x42AA0000#32 ∧
      channelDecay paramsEx (F32.ofRatio 1 100) = F32.zero := by decide +kernel

/-- V-SC1: magnitude 512 at channel 0, modes 0, 2 and 3. -/
theorem test_scale16 :
    scale paramsEx ConfigRegs.reset (F32.ofNat 512) 0 = 127#8 ∧
      scale paramsEx { ConfigRegs.reset with scaleMode := 2#2 } (F32.ofNat 512) 0 = 31#8 ∧
      scale paramsEx { ConfigRegs.reset with scaleMode := 3#2 } (F32.ofNat 512) 0 = 46#8 := by decide +kernel

/-- V-SC1 mode 1, with the binary32 logarithm of 207.04 (0x40AAA6F5) as the value of `LN_FN`. -/
theorem test_scale16_mode1 :
    scale { paramsEx with lnFn := fun _ => ⟨0x40AAA6F5#32⟩ } { ConfigRegs.reset with scaleMode := 1#2 }
      (F32.ofNat 512) 0 = 51#8 := by decide +kernel

/-- R270 example: every band is bin 1, 544.0, and output 0 is the byte 33. -/
def binnerStart : State :=
  { inPhase 6#4 with
    cfg := { ConfigRegs.reset with
      sampleGain := 40#8, inputLevel := 128#8, scaleMode := 2#2, mrbStart := 1#8, mrbEnd := 1#8 }
    spec := { SpectrumBuffers.reset with vreal := block [0, 0x44000000] } }

theorem test_binner8 :
    (performBinner { paramsEx with windowComp := F32.one } .k8 binnerStart).mrb.mrb8.nth 0 = 33#8 := by decide +kernel

theorem test_binner16 :
    (performBinner { paramsEx with windowComp := F32.one } .k16 binnerStart).mrb.mrb16.nth 0 = 33#8 := by decide +kernel

theorem test_binner32 :
    (performBinner { paramsEx with windowComp := F32.one } .k32 binnerStart).mrb.mrb32.nth 1 = 33#8 := by decide +kernel

theorem test_binner64 :
    (performBinner { paramsEx with windowComp := F32.one } .k64 binnerStart).mrb.mrb64.nth 3 = 33#8 := by decide +kernel

theorem test_binner128 :
    (performBinner { paramsEx with windowComp := F32.one } .k128 binnerStart).mrb.mrb128.nth 7 = 33#8 := by
  decide +kernel

/-- R271: exact edges, at powers where a rounded computation could fall on either side. -/
theorem test_logEdge :
    logEdge 8 1 255 0 = 1 ∧ logEdge 8 1 255 8 = 255 ∧ logEdge 8 1 255 4 = 15 ∧ logEdge 16 4 64 8 = 16 := by
  decide +kernel

/-- R280 example. -/
def peakStart : State :=
  { inPhase 6#4 with
    ctl := { Control.reset with phase := 6#4, nowMs := 1000#32 }
    env := { EnvelopeState.reset with sampleAvg := F32.ofNat 5 }
    cfg := { ConfigRegs.reset with peakThresh := 20#16, peakBin := 3#16 }
    peak := { PeakState.reset with lastPeakMs := 850#32 }
    spec := { SpectrumBuffers.reset with vreal := block [0, 0, 0, 0x41C80000] } }

theorem test_peakDetect :
    (nextOf (exec .peakDetect peakStart)).peak = { peakActive := true, extPeak := true, lastPeakMs := 1000#32 } := by
  decide +kernel

/-- 99 ms after the last firing. -/
theorem test_peakDetect_gap :
    (nextOf (exec .peakDetect { peakStart with peak := { PeakState.reset with lastPeakMs := 901#32 } })).peak
      = { PeakState.reset with lastPeakMs := 901#32 } := by decide +kernel

/-- R282 example: at 1050 the peak ends, at 1049 nothing changes. -/
theorem test_peakReset :
    let s := fun n : Word => { inPhase 1#4 with
      ctl := { Control.reset with phase := 1#4, nowMs := n }
      peak := { peakActive := true, extPeak := true, lastPeakMs := 1000#32 } }
    (nextOf (exec .peakReset (s 1050#32))).peakFlagsWord = 0#32 ∧
      (nextOf (exec .peakReset (s 1049#32))).peakFlagsWord = 3#32 := by decide +kernel

/-- V-BT1. -/
def beatStart : State :=
  { inPhase 8#4 with
    ctl := { Control.reset with phase := 8#4, nowMs := 1000#32 }
    beat := { BeatState.reset with beatAvg := F32.ofNat 10, lastBeatMs := 500#32 }
    chan := { ChannelArray.reset with fftResult := fill 16 200#8 } }

theorem test_beatTrack :
    let t := performBeatTrack paramsEx beatStart
    t.beat.beatAvg.bits = 0x413E6666#32 ∧ t.beat.bpm = F32.ofNat 120 ∧ t.beat.intervalEst = F32.ofNat 250 ∧
      t.beat.animDurationMs = 500#32 ∧ t.flag .beatAccept = true := by decide +kernel

/-- V-BT3: 700 ms is rejected, but restarts the interval. -/
theorem test_beatTrack_rejected :
    let t := performBeatTrack paramsEx { beatStart with beat := { beatStart.beat with lastBeatMs := 300#32 } }
    t.beat.lastBeatMs = 1000#32 ∧ t.beat.beatValid = false ∧ t.flag .beatAccept = false := by decide +kernel

/-- V-CT23, V-CT24: write-1-to-clear. -/
theorem test_status_write :
    (nextOf (access (.write 0x0004#16 4 0xA#32) (State.reset.setStatus 0x1E#8))).ctl.status = 0x14#8 ∧
      (nextOf (access (.write 0x0004#16 4 0xFFFFFFFF#32) (State.reset.setStatus 0x21#8))).ctl.status = 0x21#8 := by
  decide +kernel

/-- V-CT27: a misaligned read is a host fault. -/
theorem test_misaligned :
    (match access (.read 0x0006#16 4) State.reset with | .fault r => r == .misaligned 0x0006#16 | _ => false) = true := by
  decide +kernel

/-- A word placed by `withFetchWord` is the next step's command. -/
theorem test_withFetchWord : (nextOf (step (State.reset.withFetchWord 32 0x01000000))).ctl.phase = 1#4 := by
  decide +kernel

/-- Binary32 at its edges: 1 + 2^-24 ties to 1.0; the greatest value doubled is an infinity (R17); the square root
of 2; 1/3; the least subnormal halved ties to 0. -/
theorem test_float :
    (F32.one.add ⟨0x33800000#32⟩).bits = 0x3F800000#32 ∧
      (F32.mul ⟨0x7F7FFFFF#32⟩ (F32.ofNat 2)).bits = 0x7F800000#32 ∧ (F32.ofNat 2).sqrt.bits = 0x3FB504F3#32 ∧
      (F32.one.div (F32.ofNat 3)).bits = 0x3EAAAAAB#32 ∧
      (F32.mul ⟨0x00000001#32⟩ (F32.ofRatio 1 2)).bits = 0x00000000#32 := by decide +kernel

/-- R24, R305: the greatest value doubled is left as a finite value, and the infinity of an infinite input as it is. -/
theorem test_settle :
    (settle [⟨0x7F7FFFFF#32⟩, F32.ofNat 2] 0x2000 (F32.mul ⟨0x7F7FFFFF#32⟩ (F32.ofNat 2))).isFinite = true ∧
      settle [⟨0x7F800000#32⟩] 0x2000 ⟨0x7F800000#32⟩ = ⟨0x7F800000#32⟩ :=
  ⟨isFinite_settle (by decide +kernel) _ _, by decide⟩

/-! ### Witnesses: a state and operands that meet the hypotheses of each statement -/

theorem witness_DecodeEncodeAgree : WellFormed (.agcTick 65535) = true ∧ WellFormed (.limit 0) = true := by decide

/-- One word for each clause of `illegal`, at the edges of `BINNER`'s range, and legal words beside them. -/
theorem witness_IllegalWordsOnlySetIllegal :
    (0x53000000 / 2 ^ 24 ∉ [0x00, 0x01, 0x0F, 0x10, 0x11, 0x12, 0x13, 0x20, 0x21, 0x22, 0x30, 0x40, 0x41, 0x42,
        0x50, 0x51, 0x52]) ∧
      (0x21010000 / 2 ^ 24 ≠ 0x42 ∧ 0x21010000 / 2 ^ 16 % 256 ≠ 0) ∧ (0x10000001 / 2 ^ 24 ≠ 0x21 ∧ 0x10000001 % 65536 ≠ 0) ∧
      (0x42020000 / 2 ^ 16 % 256 < 3) ∧ (7 < 0x42080000 / 2 ^ 16 % 256) ∧
      (withBus [.write 0x0000#16 4 0x53000000#32]).io.bus = .write 0x0000#16 4 0x53000000#32 :: [] ∧
      (decode 0x42030000#32).isOk = true ∧ (decode 0x42070000#32).isOk = true := by decide

theorem witness_StepRunsTheDecodedCommand :
    decode 0x01000000#32 = .ok .cycleBegin ∧
      (withBus [.write 0x0000#16 4 0x01000000#32]).io.bus = .write 0x0000#16 4 0x01000000#32 :: [] ∧
      State.reset.io.bus = [] := by decide

theorem witness_AbortGateIgnoresStageCommands :
    (State.reset.setStatus 1#8).flag .abort = true ∧ Instr.fftRun ≠ .nop ∧ Instr.fftRun ≠ .cycleBegin ∧
      Instr.fftRun ≠ .reset := by decide

/-- Out of phase at each boundary of R134: below 5, below 6, below 1, and beside the one phase. -/
theorem witness_OutOfPhaseOnlySetsSeqErr :
    (inPhase 4#4).flag .abort = false ∧ (inPhase 4#4).ctl.phase.toNat < 5 ∧ (inPhase 5#4).ctl.phase.toNat < 6 ∧
      (inPhase 0#4).ctl.phase = 0#4 ∧ (inPhase 2#4).ctl.phase ≠ 1#4 ∧ (inPhase 7#4).ctl.phase ≠ 8#4 := by decide

theorem witness_CommandsKeepHostRegisters : exec .nop State.reset = .next State.reset := rfl

/-- `RESET` changes every bit of `STATUS` = 0xFF; a short read sets `ABORT` and `SHORT_READ`; a command out of phase
sets `SEQ_ERR`. -/
theorem witness_CommandsChangeOnlyTheirStatusBits :
    (nextOf (exec .reset (State.reset.setStatus 0xFF#8))).ctl.status = 0#8 ∧
      (nextOf (exec .condRepair (inPhase 1#4))).ctl.status = 9#8 ∧
      (nextOf (exec .fftRun State.reset)).ctl.status = 4#8 := by decide +kernel

theorem witness_ShortReadAbortsTheCycle :
    let s := { inPhase 1#4 with ctl := { Control.reset with phase := 1#4, blockCount := 511#32 } }
    s.flag .abort = false ∧ s.ctl.phase = 1#4 ∧ s.ctl.blockCount.toNat < 512 := by decide

/-- Holes inside the map and outside it, read-only words at the edges of their ranges. -/
theorem witness_ReadsAndIgnoredWrites :
    inRegisterMap 0x018 = false ∧ inRegisterMap 0x07C = false ∧ inRegisterMap 0x3F8 = false ∧
      inRegisterMap 0xFFFC = false ∧ readOnlyForHost 0x008 = true ∧ readOnlyForHost 0x164 = true ∧
      readOnlyForHost 0x2FFC = true ∧
      (withBus [.read 0x0FFC#16 4]).io.bus = .read 0x0FFC#16 4 :: [] ∧ (0x0FFC#16).toNat % 4 = 0 ∧
      (withBus [.write 0x0FFC#16 4 7#32]).io.bus = .write 0x0FFC#16 4 7#32 :: [] := by decide

theorem witness_BusErrorsAreHostFaults :
    (withBus [.read 0x0006#16 4]).io.bus = .read 0x0006#16 4 :: [] ∧ (0x0006#16).toNat % 4 ≠ 0 ∧
      (withBus [.write 0x0004#16 2 0#32]).io.bus = .write 0x0004#16 2 0#32 :: [] ∧ (2 : Nat) ≠ 4 := by decide

theorem witness_StatusWriteClearsWrittenBits :
    (withBus [.write 0x0004#16 4 0xA#32]).io.bus = .write 0x0004#16 4 0xA#32 :: [] := by decide

theorem witness_ConfigWritesAreTruncated :
    (withBus [.write (BitVec.ofNat 16 0x040) 4 7#32]).io.bus = .write (BitVec.ofNat 16 0x040) 4 7#32 :: [] ∧
      (withBus [.write (BitVec.ofNat 16 0x078) 4 7#32]).io.bus = .write (BitVec.ofNat 16 0x078) 4 7#32 :: [] := by decide

theorem witness_ControlRegisterWrites :
    (withBus [.write 0x000C#16 4 7#32]).io.bus = .write 0x000C#16 4 7#32 :: [] ∧
      (withBus [.write 0x0010#16 4 7#32]).io.bus = .write 0x0010#16 4 7#32 :: [] ∧
      (withBus [.write 0x0014#16 4 7#32]).io.bus = .write 0x0014#16 4 7#32 :: [] ∧
      (withBus [.write 0x0160#16 4 7#32]).io.bus = .write 0x0160#16 4 7#32 :: [] := by decide

/-- The first and the last word of `RAW_IN`. -/
theorem witness_RawInWritesOneWord :
    Memory.wf (withBus []).mem = true ∧
      (withBus [.write (BitVec.ofNat 16 (0x1000 + 4 * 0)) 4 7#32]).io.bus
        = .write (BitVec.ofNat 16 (0x1000 + 4 * 0)) 4 7#32 :: [] ∧
      (withBus [.write (BitVec.ofNat 16 (0x1000 + 4 * 511)) 4 7#32]).io.bus
        = .write (BitVec.ofNat 16 (0x1000 + 4 * 511)) 4 7#32 :: [] := by decide

theorem witness_ResetValues : (withBus [.powerOn]).io.bus = .powerOn :: [] := by decide

theorem witness_NopDoesNothing : (0x00010000#32).toNat / 2 ^ 24 = 0 ∧ 0x00010000#32 ≠ 0#32 := by decide

/-- 512 samples are the least that are no short read. -/
theorem witness_CondRepairRepairsTheBlock :
    repairStart.flag .abort = false ∧ repairStart.ctl.phase = 1#4 ∧ 512 ≤ repairStart.ctl.blockCount.toNat := by
  decide

/-- `ID` = 1 and every sample 0, so with tag 0. -/
theorem witness_RepairStopsAfterTheRunLimit :
    let s := { repairStart with
      ctl := { repairStart.ctl with chanId := 1#8 }, mem := [] }
    512 ≤ s.ctl.blockCount.toNat ∧ s.ctl.chanKnown = true ∧ s.cond.badRun = 0#32 ∧
      ∀ i < 512, sampleTag paramsEx (s.rawIn i) ≠ s.ctl.chanId.toNat % 2 ^ paramsEx.tagBits :=
  ⟨by decide, by decide, by decide, fun i _ => by
    have h : State.rawIn { repairStart with ctl := { repairStart.ctl with chanId := 1#8 }, mem := [] } i = 0#32 :=
      Memory.readWord_nil _
    rw [h]; decide⟩

theorem witness_CondNormFiltersTheBlock : (inPhase 2#4).flag .abort = false ∧ (inPhase 2#4).ctl.phase = 2#4 := by decide

/-- The filter is on after reset; off with `BPF_EN` = 0. -/
theorem witness_CondBpfFiltersTheBlock :
    (inPhase 3#4).flag .abort = false ∧ (inPhase 3#4).ctl.phase = 3#4 ∧ (inPhase 3#4).cfg.bpfEn = 1#1 ∧
      State.cfg { inPhase 3#4 with cfg := { ConfigRegs.reset with bpfEn := 0#1 } }
        = { ConfigRegs.reset with bpfEn := 0#1 } := by decide

theorem witness_CondMaxFindsTheLargest : (inPhase 4#4).flag .abort = false ∧ (inPhase 4#4).ctl.phase = 4#4 := by decide

theorem witness_EnvSampleFollowsTheRule : envStart.flag .abort = false ∧ 5 ≤ envStart.ctl.phase.toNat := by decide

theorem witness_AgcOffPublishesTheUnweightedPath :
    (inPhase 5#4).flag .abort = false ∧ 5 ≤ (inPhase 5#4).ctl.phase.toNat ∧ (inPhase 5#4).cfg.agcMode = 0#2 := by decide

theorem witness_AgcTickFollowsTheRule :
    agcStart.flag .abort = false ∧ 5 ≤ agcStart.ctl.phase.toNat ∧ agcStart.cfg.agcMode ≠ 0#2 ∧ (65535 : Nat) < 65536 := by
  decide

/-- A changed mode, on a tick that is not effective (`AGC_ELAPSED` + dt = 1). -/
theorem witness_PresetChangeResetsTheIntegrator :
    envStart.flag .abort = false ∧ 5 ≤ envStart.ctl.phase.toNat ∧ envStart.cfg.agcMode ≠ envStart.agc.lastPreset ∧
      envStart.agc.agcElapsed.toNat + 1 < 2 := by decide

theorem witness_SilenceNeverGrowsTheIntegrator :
    agcStart.cfg.agcMode ≠ 0#2 ∧ agcStart.agc.intErr.isNaN = false ∧
      State.env { agcStart with env := EnvelopeState.reset } = EnvelopeState.reset ∧
      EnvelopeState.reset.envSmooth.lt paramsEx.agcSilEnv = true ∧
      EnvelopeState.reset.sampleMax.lt paramsEx.agcSilPeak = true := by decide +kernel

theorem witness_LimitFollowsTheRule :
    (inPhase 5#4).flag .abort = false ∧ 5 ≤ (inPhase 5#4).ctl.phase.toNat ∧ (65535 : Nat) < 65536 := by decide

theorem witness_LimiterElapsedTimeIsClamped :
    (inPhase 8#4).flag .abort = false ∧ 5 ≤ (inPhase 8#4).ctl.phase.toNat := by decide

/-- Rising, falling and equal. -/
theorem witness_LimiterNeverOvershoots :
    F32.zero.lt paramsEx.limBigChange = true ∧ (F32.ofNat 100).isFinite = true ∧ F32.zero.isFinite = true ∧
      F32.zero.le (F32.ofNat 100) = true ∧ F32.zero.le F32.zero = true := by decide +kernel

theorem witness_FftRunFollowsTheRule : (inPhase 5#4).flag .abort = false ∧ (inPhase 5#4).ctl.phase = 5#4 := by decide

/-- One bin, and the whole array. -/
theorem witness_BandMeanIsTheRule : (3 ≤ 3 ∧ 3 < 512) ∧ (0 ≤ 511 ∧ 511 < 512) := by decide

theorem witness_AggregatorFollowsTheRule : (inPhase 6#4).flag .abort = false ∧ (inPhase 6#4).ctl.phase = 6#4 := by decide

theorem witness_ScaleCommandScalesTheChannels :
    (inPhase 7#4).flag .abort = false ∧ (inPhase 7#4).ctl.phase = 7#4 := by decide

theorem witness_ZeroInputGivesByteZero :
    (15 : Nat) < 16 ∧ binnerStart.cfg.scaleMode ≠ 0#2 := by decide

theorem witness_BinnersFollowTheRule : binnerStart.flag .abort = false ∧ 6 ≤ binnerStart.ctl.phase.toNat := by decide

theorem witness_LogEdgeIsExact :
    8 ∈ [8, 16, 32, 64, 128] ∧ 128 ∈ [8, 16, 32, 64, 128] ∧ 1 ≤ 1 ∧ 1 ≤ 255 ∧ 255 ≤ 255 ∧ 128 ≤ 128 := by decide

/-- The degenerate range of the last clause, and a first band that is not the last. -/
theorem witness_BinnerBandsCoverTheRange :
    (8 ∈ [8, 16, 32, 64, 128] ∧ 7 < 8 ∧ 0 + 1 < 8) ∧ binnerStart.cfg.mrbEnd.toNat ≤ binnerStart.cfg.mrbStart.toNat := by
  decide

theorem witness_PeakDetectFollowsTheRule : peakStart.flag .abort = false ∧ 6 ≤ peakStart.ctl.phase.toNat := by decide

theorem witness_PeakResetFollowsTheRule :
    (inPhase 1#4).flag .abort = false ∧ 1 ≤ (inPhase 1#4).ctl.phase.toNat := by decide

theorem witness_BeatTrackFollowsTheRule : beatStart.flag .abort = false ∧ beatStart.ctl.phase = 8#4 := by decide

theorem witness_ReaderNeverGoesBackward :
    Reader.read [State.reset] Reader.fresh 0x060 0 = some (1#32, { seen := [(0x060, 0)] }) ∧
      0x060 % 4 = 0 ∧ 0x060 < 65536 ∧ Reader.fresh.floor 0x060 ≤ 0 ∧ 0 < [State.reset].length := by
  refine ⟨rfl, ?_⟩
  decide

/-- A state with a command pending, other than the reset state, that has both invariants and takes a step. -/
def invStart : State :=
  { withBus [.write 0x0000#16 4 0x01000000#32] with ctl := { Control.reset with nowMs := 7#32 } }

theorem witness_StepKeepsTheInvariant :
    Inv invStart ∧ ∃ t, step invStart = .next t ∧ t.ctl.phase = 1#4 := by
  refine ⟨⟨by decide, by decide, by decide, by decide, by decide, by decide +kernel, by decide +kernel,
    by decide +kernel, by decide, fun c hc => ?_, fun c hc => ?_, by decide, by decide, by decide, by decide,
    by decide, fun i hi => ?_⟩, _, rfl, rfl⟩
  · have h : invStart.chan.fftCalc.nth c = resetF0 := nth_fill 16 resetF0 c hc
    rw [h]; decide +kernel
  · have h : invStart.chan.fftAvg.nth c = resetF0 := nth_fill 16 resetF0 c hc
    rw [h]; decide +kernel
  · exact nth_fill 512 resetF0 i hi

/-- With an interval already accepted, so that the bounds say something. -/
theorem witness_StepKeepsTheBeatBounds :
    let s := { invStart with beat := { BeatState.reset with
      beatValid := true, meanInterval := F32.ofNat 426, bpm := (F32.ofNat 60000).div (F32.ofNat 426),
      animDurationMs := 426#32 } }
    BeatInv s ∧ ∃ t, step s = .next t :=
  ⟨⟨fun _ => by decide +kernel, fun _ => by decide +kernel, fun _ => by decide⟩, _, rfl⟩

/-- A tie: 2^24 + 1 lies midway between 2^24 and 2^24 + 2. -/
theorem witness_AdditionRoundsToNearest :
    let a : F32 := ⟨0x4B800000#32⟩
    let x : F32 := ⟨0x4B800001#32⟩
    a.isFinite = true ∧ F32.one.isFinite = true ∧ (a.add F32.one).isFinite = true ∧ x.isFinite = true ∧
      x.value ≠ (a.add F32.one).value ∧
      ((a.add F32.one).value - (a.value + F32.one.value)).natAbs = (x.value - (a.value + F32.one.value)).natAbs := by
  decide +kernel

/-- A tie: the least subnormal times 0.5 lies midway between 0 and it. -/
theorem witness_MultiplicationRoundsToNearest :
    let a : F32 := ⟨0x00000001#32⟩
    let b : F32 := ⟨0x3F000000#32⟩
    a.isFinite = true ∧ b.isFinite = true ∧ (a.mul b).isFinite = true ∧ a.value ≠ (a.mul b).value ∧
      ((a.mul b).value * 2 ^ 149 - a.value * b.value).natAbs = (a.value * 2 ^ 149 - a.value * b.value).natAbs := by
  decide +kernel

/-- A tie: the least subnormal divided by 2. -/
theorem witness_DivisionRoundsToNearest :
    let a : F32 := ⟨0x00000001#32⟩
    let b : F32 := ⟨0x40000000#32⟩
    a.isFinite = true ∧ b.isFinite = true ∧ b.isZero = false ∧ (a.div b).isFinite = true ∧
      a.value ≠ (a.div b).value ∧
      ((a.div b).value * b.value - a.value * 2 ^ 149).natAbs = (a.value * b.value - a.value * 2 ^ 149).natAbs := by
  decide +kernel

/-- The root of 2, with a smaller and a greater value beside it. -/
theorem witness_SquareRootRoundsToNearest :
    (F32.ofNat 2).isFinite = true ∧ (F32.ofNat 2).sign = false ∧ F32.one.sign = false ∧
      F32.one.scaled < (F32.ofNat 2).sqrt.scaled ∧ (F32.ofNat 2).sqrt.scaled < (F32.ofNat 2).scaled := by
  decide +kernel

/-- A tie at 2^24 + 1, and what is finite, infinite and no NaN. -/
theorem witness_ComparisonsAndConversionsFollowTheRule :
    F32.one.isFinite = true ∧ F32.zero.lt F32.one = true ∧ F32.isNaN ⟨0xFF800000#32⟩ = false ∧
      (F32.ofNat (2 ^ 24 + 1)).isFinite = true ∧ (F32.ofNat (2 ^ 24 + 1)).value = 2 ^ 24 * 2 ^ 149 ∧
      (F32.ofInt (-3)).bits = 0xC0400000#32 := by decide +kernel

/-- The illustrative parameters with a transform of zeros, the identity in the place of `LN_FN`, and `POSTGAIN(L)` =
L / 128. -/
def paramsOkEx : Params :=
  { paramsEx with
    fftFn := fun _ _ => (F32.zero, F32.zero), lnFn := fun x => x, postGain := fun l => F32.ofRatio l 128 }

/-- The constraints on the parameters can be met together. -/
theorem witness_ParamsOk : ParamsOk paramsOkEx where
  dataBits := by decide
  tagBits := by decide
  fieldsInWord := by decide
  fieldsApart := by decide
  outlierLimit := by decide +kernel
  dcFastDiv := by decide +kernel
  agcSilEnv := by decide +kernel
  agcSilPeak := by decide +kernel
  limBigChange := by decide +kernel
  fftDownscale := by decide +kernel
  skipMag := by decide +kernel
  chSnap := by decide +kernel
  band15Damp := by decide +kernel
  pink := by decide +kernel
  windowComp := by decide +kernel
  postGain := by decide +kernel
  postGainBelowUnity := by decide +kernel
  postGainAffine := ⟨0, 1, 128, by decide, by
    have h : ∀ n : Nat, n < 256 → 0 ≤ (0 : Int) + 1 * n ∧ (F32.ofRatio n 128).isFinite = true ∧
      (F32.ofRatio n 128).feq (F32.ofRatio ((0 : Int) + 1 * n).toNat 128) = true := by decide +kernel
    exact fun n _ hn => h n (by omega)⟩
  beatRatio := by decide +kernel
  beatEstFrac := by decide +kernel
  cyclePeriodMs := by decide
  edgesBpf := by decide
  edgesNobpf := by decide
  contiguousBpf := by decide
  contiguousNobpf := by decide
  lnIncreasing := fun _ _ _ h => F32.le_of_lt h
  fftOfZeros := fun _ _ => rfl

/-- They are all finite. -/
theorem witness_ParamsFinite : ParamsFinite paramsOkEx where
  scalars := by decide +kernel
  window := fun _ _ => (by decide : F32.one.isFinite = true)
  pink := fun _ _ => (by decide +kernel : (F32.ofRatio 3 2).isFinite = true)
  postGain := by decide +kernel
  ln := fun _ h _ => h
  fft := fun _ _ _ _ => have h : F32.zero.isFinite = true := by decide
    ⟨h, h⟩

/-- The parameters above and a finite state; a value that `settle` leaves, one it leaves for its input's sake and one it
replaces; a NaN, an infinity and a zero, the values around 2^31, and a negative one. -/
theorem witness_SpecialValuesFollowTheRule :
    (paramsOkEx.dataBits ≤ 24 ∧ F32.zero.lt paramsOkEx.limBigChange = true ∧ ParamsFinite paramsOkEx ∧ (withBus []).AllFinite) ∧
    F32.isFinite ⟨0x7F800000#32⟩ = false ∧ (∀ y ∈ [F32.one], y.isFinite = true) ∧ F32.isInf ⟨0xFF800000#32⟩ = true ∧ F32.one.isFinite = true ∧ F32.zero.isZero = true ∧
    F32.isNaN ⟨0x7FC00000#32⟩ = true ∧ F32.one.isNaN = false ∧ F32.zero.lt F32.one = true ∧
      F32.sign ⟨0xBF800000#32⟩ = true ∧ F32.le ⟨0x4F000000#32⟩ ⟨0x4F000000#32⟩ = true ∧
      F32.sign ⟨0x4EFFFFFF#32⟩ = false ∧ F32.lt ⟨0x4EFFFFFF#32⟩ ⟨0x4F000000#32⟩ = true :=
  ⟨⟨by decide, witness_ParamsOk.limBigChange, witness_ParamsFinite, by decide +kernel⟩, by decide +kernel⟩

end Sys2Proof.Tests
end

section
/-! ## Correct rounding
What R17's operations answer, as the value nearest to the exact result: said once of `roundMag` and of a rounded value
of either sign, and cited for each operation. -/

namespace Sys2Proof

@[simp] theorem F32.value_ofMag (neg : Bool) {m : Nat} (hm : m < 2 ^ 31) :
    (F32.ofMag neg m).value = if neg then -(magUnits m : Int) else (magUnits m : Int) := by
  rw [F32.value, F32.scaled_eq, F32.magBits_ofMag neg hm, F32.sign_ofMag neg hm]

theorem F32.natAbs_value (x : F32) : x.value.natAbs = x.scaled := by
  unfold F32.value; split <;> omega

theorem F32.value_eq_zero_iff (x : F32) : x.value = 0 ↔ x.magBits = 0 := by
  rw [← Int.natAbs_eq_zero, F32.natAbs_value, F32.scaled_eq]
  exact magUnits_strictMono.injective.eq_iff' magUnits_zero

theorem F32.isZero_iff (x : F32) : x.isZero = true ↔ x.magBits = 0 := by simp [F32.isZero]

theorem F32.isFinite_iff (x : F32) : x.isFinite = true ↔ x.magBits < 0x7F800000 := by simp [F32.isFinite]

/-- A rounded value is never a NaN. -/
theorem F32.isNaN_ofMag_roundMag (neg : Bool) (n d : Nat) : (F32.ofMag neg (roundMag n d)).isNaN = false := by
  have := roundMag_le_inf n d
  rw [F32.isNaN, F32.magBits_ofMag neg (by omega)]
  simpa using this

/-- The lowest bit of a pattern is that of its magnitude bits. -/
theorem F32.bits_mod_two (x : F32) : x.bits.toNat % 2 = x.magBits % 2 := by
  unfold F32.magBits; omega

/-- No magnitude is nearer to `n / d` than the rounded one, and of two that are equally near the even one is taken.
Distances are multiplied by `d`. -/
theorem roundMag_nearest (n : Nat) {d : Nat} (hd : 0 < d) (hr : roundMag n d < 0x7F800000) (m : Nat) :
    ((magUnits (roundMag n d) * d : Int) - n).natAbs ≤ ((magUnits m * d : Int) - n).natAbs ∧
      (m ≠ roundMag n d → ((magUnits (roundMag n d) * d : Int) - n).natAbs = ((magUnits m * d : Int) - n).natAbs →
        roundMag n d % 2 = 0) := by
  obtain ⟨above, aboveEven, below, belowEven⟩ := roundMag_spec n hd
  have units_mul_lt : ∀ {i j : Nat}, i < j → magUnits i * d < magUnits j * d := fun h =>
    Nat.mul_lt_mul_of_pos_right (magUnits_strictMono h) hd
  have units_mul_le : ∀ {i j : Nat}, i ≤ j → magUnits i * d ≤ magUnits j * d := fun h =>
    Nat.mul_le_mul_right d (magUnits_strictMono.monotone h)
  simp only [Nat.add_mul] at above aboveEven below belowEven
  generalize roundMag n d = r at *
  rcases Nat.lt_trichotomy m r with h | rfl | h
  · -- the magnitude just below `r` is the nearest of those below
    obtain ⟨j, rfl⟩ : ∃ j, r = j + 1 := ⟨r - 1, by omega⟩
    have hj := below j (by omega)
    have hjEven := belowEven j rfl
    have hmj := units_mul_le (show m ≤ j by omega)
    have hmr := units_mul_lt h
    exact ⟨by omega, fun _ _ => by omega⟩
  · exact ⟨le_rfl, fun hne => absurd rfl hne⟩
  · -- the magnitude just above `r` is the nearest of those above
    have hu := above hr
    have huEven := aboveEven hr
    have hmu := units_mul_le (show r + 1 ≤ m by omega)
    have hrm := units_mul_lt h
    exact ⟨by omega, fun _ _ => by omega⟩

/-- The distance of a value from `z / d`, multiplied by `d`, in units of 2^-149. -/
def F32.dist (z : Int) (d : Nat) (y : F32) : Nat := (y.value * d - z).natAbs

/-- `r` is a binary32 value nearest to `z / d`, and the even one where two are. -/
def F32.IsNearest (z : Int) (d : Nat) (r : F32) : Prop :=
  ∀ x : F32, x.isFinite = true →
    r.dist z d ≤ x.dist z d ∧ (x.value ≠ r.value → r.dist z d = x.dist z d → r.bits.toNat % 2 = 0)

/-- The distance from a number of the same sign is that of the magnitudes. -/
theorem F32.dist_of_sign_eq {neg : Bool} {x : F32} (h : x.sign = neg) (n d : Nat) :
    x.dist (if neg then -(n : Int) else n) d = ((magUnits x.magBits * d : Int) - n).natAbs := by
  subst h
  rw [F32.dist, F32.value, F32.scaled_eq]
  cases x.sign
  · rfl
  · simp only [if_true, Int.neg_mul]; omega

/-- The distance from a number of the other sign is the sum of the magnitudes. -/
theorem F32.dist_of_sign_ne {neg : Bool} {x : F32} (h : x.sign = !neg) (n d : Nat) :
    x.dist (if neg then -(n : Int) else n) d = magUnits x.magBits * d + n := by
  rw [F32.dist, F32.value, F32.scaled_eq, h]
  cases neg <;> simp only [Bool.not_true, Bool.not_false, Bool.false_eq_true, if_true, if_false, Int.neg_mul] <;>
    norm_cast <;> omega

/-- A finite value of sign `neg` rounded from `n / d` is nearest to `n / d` with that sign. -/
theorem F32.isNearest_ofMag_roundMag (neg : Bool) (n : Nat) {d : Nat} (hd : 0 < d)
    (hfin : (F32.ofMag neg (roundMag n d)).isFinite = true) :
    (F32.ofMag neg (roundMag n d)).IsNearest (if neg then -(n : Int) else n) d := by
  have hm : roundMag n d < 2 ^ 31 := by have := roundMag_le_inf n d; omega
  have hr : roundMag n d < 0x7F800000 := by rwa [F32.isFinite_iff, F32.magBits_ofMag neg hm] at hfin
  have hdist := F32.dist_of_sign_eq (F32.sign_ofMag neg hm) n d
  rw [F32.magBits_ofMag neg hm] at hdist
  intro x _
  rw [F32.bits_mod_two, F32.magBits_ofMag neg hm, hdist]
  by_cases hs : x.sign = neg
  · rw [F32.dist_of_sign_eq hs]
    refine ⟨(roundMag_nearest n hd hr _).1, fun hne => (roundMag_nearest n hd hr _).2 fun hmag => hne ?_⟩
    rw [← F32.ofMag_magBits x, hs, hmag]
  · -- a value of the other sign is no nearer than zero is
    have h0 := roundMag_nearest n hd hr 0
    simp only [magUnits_zero, Nat.cast_zero, Int.zero_mul] at h0
    obtain ⟨hle, heven⟩ := h0
    rw [F32.dist_of_sign_ne (by cases neg <;> simpa using hs)]
    refine ⟨by omega, fun hne heq => heven (fun h => hne ?_) (by omega)⟩
    have hx : magUnits x.magBits * d = 0 := by omega
    have hx : magUnits x.magBits = 0 := (Nat.mul_eq_zero.1 hx).resolve_right (by omega)
    rw [F32.value_ofMag neg hm, ← h, magUnits_zero]
    rw [F32.value, F32.scaled_eq, hx]
    simp

/-- `r` is `z / d` rounded as R17 has it: finite exactly below the rounding boundary of the greatest finite value, no
NaN, and nearest where finite. -/
structure F32.Rounds (z : Int) (d : Nat) (r : F32) : Prop where
  isFinite_iff : r.isFinite = true ↔ 2 * z.natAbs < (2 ^ 25 - 1) * 2 ^ 253 * d
  notNaN : r.isNaN = false
  nearest : r.isFinite = true → r.IsNearest z d

/-- The magnitude of `z / d` rounded, with the sign of `z`, is `z / d` rounded.  (Of a `z` of 0 either zero is.) -/
theorem F32.rounds_ofMag_roundMag {neg : Bool} {z : Int} {n d : Nat} (hd : 0 < d)
    (hz : z = if neg then -(n : Int) else n) : (F32.ofMag neg (roundMag n d)).Rounds z d := by
  have hn : z.natAbs = n := by rw [hz]; split <;> omega
  refine ⟨?_, F32.isNaN_ofMag_roundMag neg n d, fun h => hz ▸ F32.isNearest_ofMag_roundMag neg n hd h⟩
  rw [hn]
  exact F32.isFinite_ofMag_roundMag neg n hd

theorem roundMag_zero {d : Nat} (hd : 0 < d) : roundMag 0 d = 0 := by
  simpa using roundMag_exact (m := 0) hd (by omega)

/-- A sum of finite values has the exact sum's sign; an exact sum of zero is negative only of two negative operands. -/
theorem F32.add_eq_ofMag {a b : F32} (ha : a.isFinite = true) (hb : b.isFinite = true) :
    a.add b = F32.ofMag (if a.value + b.value = 0 then a.sign && b.sign else decide (a.value + b.value < 0))
      (roundMag (a.value + b.value).natAbs 1) := by
  rw [F32.add_of_finite ha hb]
  split_ifs with h
  · rw [h, Int.natAbs_zero, roundMag_zero one_pos]
  · rfl

/-- A sum of finite values is the exact sum rounded (R17). -/
theorem F32.rounds_add {a b : F32} (ha : a.isFinite = true) (hb : b.isFinite = true) :
    (a.add b).Rounds (a.value + b.value) 1 := by
  rw [F32.add_eq_ofMag ha hb]
  apply F32.rounds_ofMag_roundMag one_pos
  by_cases h0 : a.value + b.value = 0
  · simp [h0]
  · rw [if_neg h0]
    simp only [decide_eq_true_eq]
    split <;> omega

theorem F32.sign_add {a b : F32} (ha : a.isFinite = true) (hb : b.isFinite = true) :
    (a.add b).sign = if a.value + b.value = 0 then a.sign && b.sign else decide (a.value + b.value < 0) := by
  have := roundMag_le_inf (a.value + b.value).natAbs 1
  rw [F32.add_eq_ofMag ha hb, F32.sign_ofMag _ (by omega)]

/-- A value is its magnitude with its sign; so is a product. -/
theorem F32.value_mul_value (a b : F32) :
    a.value * b.value =
      if F32.signXor a b then -((a.scaled * b.scaled : Nat) : Int) else (a.scaled * b.scaled : Nat) := by
  rw [F32.value, F32.value, F32.signXor]
  cases a.sign <;> cases b.sign <;> simp

/-- A product of finite values is the exact product, in units of 2^-298, rounded (R17). -/
theorem F32.rounds_mul {a b : F32} (ha : a.isFinite = true) (hb : b.isFinite = true) :
    (a.mul b).Rounds (a.value * b.value) (2 ^ 149) := by
  rw [F32.mul_of_finite ha hb]
  exact F32.rounds_ofMag_roundMag (by positivity) (F32.value_mul_value a b)

theorem F32.sign_mul {a b : F32} (ha : a.isFinite = true) (hb : b.isFinite = true) :
    (a.mul b).sign = (a.sign != b.sign) := by
  have := roundMag_le_inf (a.scaled * b.scaled) (2 ^ 149)
  rw [F32.mul_of_finite ha hb, F32.sign_ofMag _ (by omega), F32.signXor]

/-- The sign of a divisor moves into the dividend. -/
def F32.dividend (a b : F32) : Int :=
  if F32.signXor a b then -((a.scaled * 2 ^ 149 : Nat) : Int) else (a.scaled * 2 ^ 149 : Nat)

theorem F32.natAbs_mul_value_sub (y : Int) (a b : F32) :
    (y * b.value - a.value * 2 ^ 149).natAbs = (y * b.scaled - F32.dividend a b).natAbs := by
  rw [F32.dividend, F32.value, F32.value, F32.signXor]
  cases a.sign <;> cases b.sign <;> simp <;> omega

theorem F32.natAbs_dividend (a b : F32) : (F32.dividend a b).natAbs = (a.value * 2 ^ 149).natAbs := by
  rw [F32.dividend, Int.natAbs_mul, F32.natAbs_value]
  split <;> simp only [Int.natAbs_neg, Int.natAbs_natCast] <;> rfl

/-- A quotient of finite values, the divisor not zero, is the exact quotient rounded (R17). -/
theorem F32.rounds_div {a b : F32} (ha : a.isFinite = true) (hb : b.isFinite = true) (h0 : b.isZero = false) :
    (a.div b).Rounds (F32.dividend a b) b.scaled := by
  rw [F32.div_of_finite ha hb h0]
  refine F32.rounds_ofMag_roundMag ?_ rfl
  have hb0 : b.magBits ≠ 0 := by rw [Ne, ← F32.isZero_iff, h0]; decide
  rw [F32.scaled_eq, ← magUnits_zero]
  exact magUnits_strictMono (by omega)

theorem F32.sign_div {a b : F32} (ha : a.isFinite = true) (hb : b.isFinite = true) (h0 : b.isZero = false) :
    (a.div b).sign = (a.sign != b.sign) := by
  have := roundMag_le_inf (a.scaled * 2 ^ 149) b.scaled
  rw [F32.div_of_finite ha hb h0, F32.sign_ofMag _ (by omega), F32.signXor]

/-- Settles O55: a sum is the exact sum rounded. -/
theorem additionRoundsToNearest : Obligations.AdditionRoundsToNearest := by
  intro a b ha hb
  obtain ⟨hfin, hnan, hnear⟩ := F32.rounds_add ha hb
  refine ⟨by simpa only [Nat.mul_one] using hfin, hnan, F32.sign_add ha hb, fun hf x hx => ?_⟩
  simpa only [F32.dist, Nat.cast_one, Int.mul_one] using hnear hf x hx

/-- Settles O56: a product is the exact product rounded. -/
theorem multiplicationRoundsToNearest : Obligations.MultiplicationRoundsToNearest := by
  intro a b ha hb
  obtain ⟨hfin, hnan, hnear⟩ := F32.rounds_mul ha hb
  exact ⟨hfin, F32.sign_mul ha hb, hnan, fun hf x hx => hnear hf x hx⟩

/-- Settles O57: a quotient is the exact quotient rounded. -/
theorem divisionRoundsToNearest : Obligations.DivisionRoundsToNearest := by
  intro a b ha hb h0
  obtain ⟨hfin, hnan, hnear⟩ := F32.rounds_div ha hb h0
  simp only [F32.natAbs_mul_value_sub, ← F32.natAbs_dividend a b, F32.natAbs_value]
  exact ⟨hfin, F32.sign_div ha hb h0, hnan, fun hf x hx => hnear hf x hx⟩

end Sys2Proof
end

section
/-! ## Square roots
The root of a finite positive value is the significand that the bit search finds, rounded up past the midpoint. -/

namespace Sys2Proof

/-- The bit search for the root of `r` at the spacing `2^k` that suits it: a significand of 24 bits whose spacing the
root lies in. -/
theorem sqrt_significand {r : Nat} (hr : 2 ^ 149 ≤ r) :
    ∃ k q, k = r.log2 / 2 - 23 ∧ q = bitSearch (fun c => decide ((c * 2 ^ k) ^ 2 ≤ r)) 24 0 ∧
      2 ^ 23 ≤ q ∧ q < 2 ^ 24 ∧ (q * 2 ^ k) ^ 2 ≤ r ∧ r < ((q + 1) * 2 ^ k) ^ 2 := by
  have hlog : 149 ≤ r.log2 := (Nat.le_log2 (by omega)).2 hr
  obtain ⟨k, hk⟩ : ∃ k, k = r.log2 / 2 - 23 := ⟨_, rfl⟩
  have hlow : (2 ^ 23 * 2 ^ k) ^ 2 ≤ r := by
    rw [← Nat.pow_add, ← Nat.pow_mul]
    exact (Nat.pow_le_pow_right (by omega) (by omega)).trans (Nat.log2_self_le (by omega))
  have hhigh : r < (2 ^ 24 * 2 ^ k) ^ 2 := by
    rw [← Nat.pow_add, ← Nat.pow_mul]
    exact Nat.lt_log2_self.trans_le (Nat.pow_le_pow_right (by omega) (by omega))
  obtain ⟨-, hlt, hok, hfail⟩ :=
    bitSearch_spec (ok := fun c => decide ((c * 2 ^ k) ^ 2 ≤ r)) 24 0 (by simp) (by simpa using hhigh)
  simp only [decide_eq_true_eq, decide_eq_false_iff_not, Nat.not_le] at hok hfail
  refine ⟨k, _, hk, rfl, ?_, by simpa using hlt, hok, hfail⟩
  by_contra hc
  have hmono := Nat.pow_le_pow_left (Nat.mul_le_mul_right (2 ^ k) (Nat.lt_of_not_le hc)) 2
  exact absurd (hfail.trans_le hmono) (Nat.not_lt.2 hlow)

/-- Two magnitudes' midpoint, compared with a root through its square. -/
theorem midpoint_sq_le {x s c r : Nat} (h : x + s ≤ c) (hc : c ^ 2 ≤ r) : (x + s) ^ 2 ≤ r :=
  (Nat.pow_le_pow_left h 2).trans hc

theorem le_midpoint_sq {x s c r : Nat} (h : c ≤ x + s) (hc : r ≤ c ^ 2) : r ≤ (x + s) ^ 2 :=
  hc.trans (Nat.pow_le_pow_left h 2)

/-- The magnitude of a root: the significand below the root, or the next one where the root is at or past their
midpoint. -/
theorem sqrtMag_significand {n : Nat} (h0 : 0 < n) (hn : n < 2 ^ 277) :
    ∃ k q, k < 190 ∧ 2 ^ 23 ≤ q ∧ q < 2 ^ 24 ∧
      (q * 2 ^ k) ^ 2 ≤ n * 2 ^ 149 ∧ n * 2 ^ 149 < ((q + 1) * 2 ^ k) ^ 2 ∧
      (sqrtMag n = k * 2 ^ 23 + (q + 1) ∧ ((2 * q + 1) * 2 ^ k) ^ 2 ≤ 4 * (n * 2 ^ 149) ∨
        sqrtMag n = k * 2 ^ 23 + q ∧ 4 * (n * 2 ^ 149) ≤ ((2 * q + 1) * 2 ^ k) ^ 2) := by
  obtain ⟨k, q, hk, hq, hq23, hq24, hle, hlt⟩ := sqrt_significand (r := n * 2 ^ 149) (by omega)
  have hlog : (n * 2 ^ 149).log2 < 426 := (Nat.log2_lt (by omega)).2 (by omega)
  refine ⟨k, q, by omega, hq23, hq24, hle, hlt, ?_⟩
  simp only [sqrtMag, ← hk, ← hq, Bool.or_eq_true, Bool.and_eq_true, decide_eq_true_eq, beq_iff_eq]
  split_ifs with hup
  · exact .inl ⟨rfl, by omega⟩
  · exact .inr ⟨rfl, by omega⟩

/-- The magnitude of a root is finite, and every other magnitude's midpoint with it is on that other magnitude's side
of the root. -/
theorem sqrtMag_spec {n : Nat} (h0 : 0 < n) (hn : n < 2 ^ 277) :
    sqrtMag n < 0x7F800000 ∧
    (∀ m < sqrtMag n, (magUnits m + magUnits (sqrtMag n)) ^ 2 ≤ 4 * (n * 2 ^ 149)) ∧
    (∀ m, sqrtMag n < m → 4 * (n * 2 ^ 149) ≤ (magUnits m + magUnits (sqrtMag n)) ^ 2) := by
  obtain ⟨k, q, hk, hq23, hq24, hle, hlt, hcase⟩ := sqrtMag_significand h0 hn
  have hfin : k * 2 ^ 23 + (q + 1) < 0x7F800000 := by clear hle hlt hcase; omega
  have hU : magUnits (k * 2 ^ 23 + q) = q * 2 ^ k := magUnits_of_significand (.inr hq23) (by omega)
  have hU1 : magUnits (k * 2 ^ 23 + (q + 1)) = (q + 1) * 2 ^ k := magUnits_of_significand (.inr (by omega)) (by omega)
  have hmid : (2 * q + 1) * 2 ^ k = q * 2 ^ k + (q + 1) * 2 ^ k := by ring
  have mono : ∀ {i j : Nat}, i ≤ j → magUnits i ≤ magUnits j := fun h => magUnits_strictMono.monotone h
  rcases hcase with ⟨hmag, hmid4⟩ | ⟨hmag, hmid4⟩
  · rw [hmag, hU1]
    refine ⟨hfin, fun m hm => ?_, fun m hm => ?_⟩
    · have := mono (show m ≤ k * 2 ^ 23 + q by omega)
      exact midpoint_sq_le (by omega) hmid4
    · have := mono hm.le
      refine le_midpoint_sq (c := 2 * ((q + 1) * 2 ^ k)) (by omega) ?_
      rw [Nat.mul_pow]; exact Nat.mul_le_mul_left 4 hlt.le
  · rw [hmag, hU]
    refine ⟨(Nat.lt_succ_self _).trans hfin, fun m hm => ?_, fun m hm => ?_⟩
    · have := mono hm.le
      refine midpoint_sq_le (c := 2 * (q * 2 ^ k)) (by omega) ?_
      rw [Nat.mul_pow]; exact Nat.mul_le_mul_left 4 hle
    · have := mono (show k * 2 ^ 23 + (q + 1) ≤ m by omega)
      exact le_midpoint_sq (by omega) hmid4

theorem F32.sqrt_of_isZero {x : F32} (h : x.isZero = true) : x.sqrt = x := by
  have : x.magBits = 0 := by simpa [F32.isZero] using h
  simp [F32.sqrt, F32.isNaN, h, this]

/-- The root of a finite positive value. -/
theorem F32.sqrt_of_pos {x : F32} (hf : x.isFinite = true) (hs : x.sign = false) (h0 : x.isZero = false) :
    x.sqrt = F32.ofMag false (sqrtMag x.scaled) := by
  have hn := F32.isNaN_eq_false_of_isFinite hf
  have hi : x.isInf = false := by
    have := (F32.isFinite_iff x).1 hf
    simp [F32.isInf]; omega
  simp [F32.sqrt, hn, h0, hs, hi]

/-- The greatest finite value is below 2^277 units. -/
theorem F32.scaled_lt_of_isFinite {x : F32} (h : x.isFinite = true) : x.scaled < 2 ^ 277 :=
  (magUnits_strictMono ((F32.isFinite_iff x).1 h)).trans_le (by decide +kernel)

theorem F32.scaled_lt_iff (x y : F32) : x.scaled < y.scaled ↔ x.magBits < y.magBits :=
  magUnits_strictMono.lt_iff_lt

/-- Settles O58: the midpoint with any other value is on that value's side of the root. -/
theorem squareRootRoundsToNearest : Obligations.SquareRootRoundsToNearest := by
  intro a x ha hs _ _
  cases h0 : a.isZero with
  | true =>
    have hm : a.magBits = 0 := by simpa [F32.isZero] using h0
    have hz : a.scaled = 0 := by rw [F32.scaled_eq, hm, magUnits_zero]
    rw [F32.sqrt_of_isZero h0, hz]
    exact ⟨ha, hs, by omega, by omega⟩
  | false =>
    have hm : a.magBits ≠ 0 := by simpa [F32.isZero] using h0
    have hpos : 0 < a.scaled := by
      rw [F32.scaled_eq]; exact magUnits_zero ▸ magUnits_strictMono (Nat.pos_of_ne_zero hm)
    obtain ⟨hfin, below, above⟩ := sqrtMag_spec hpos (F32.scaled_lt_of_isFinite ha)
    have hmag : a.sqrt.magBits = sqrtMag a.scaled := by
      rw [F32.sqrt_of_pos ha hs h0, F32.magBits_ofMag _ (by omega)]
    have hunits : a.sqrt.scaled = magUnits (sqrtMag a.scaled) := by rw [F32.scaled_eq, hmag]
    rw [F32.scaled_lt_iff, F32.scaled_lt_iff, F32.isFinite_iff, hunits, hmag, F32.scaled_eq x]
    refine ⟨hfin, ?_, below _, above _⟩
    rw [F32.sqrt_of_pos ha hs h0, F32.sign_ofMag _ (by omega)]

end Sys2Proof
end

section
/-! ## Order, signs and conversions
How the order, the sign operations and the conversions from integers read as values. -/

namespace Sys2Proof

/-! ### Order -/

theorem F32.lt_eq_not_le {x y : F32} (hx : x.isNaN = false) (hy : y.isNaN = false) : x.lt y = !y.le x := by
  simp only [F32.lt, F32.le, hx, hy, Bool.not_false, Bool.true_and, ← decide_not, Int.not_le]

theorem F32.feq_eq_le_and_le {x y : F32} (hx : x.isNaN = false) (hy : y.isNaN = false) :
    x.feq y = (x.le y && y.le x) := by
  simp only [F32.feq, F32.le, hx, hy, Bool.not_false, Bool.true_and, ← Bool.decide_and]
  exact decide_eq_decide.2 (by omega)

/-- On finite values the order is that of what they stand for. -/
theorem F32.le_eq_decide_value {x y : F32} (hx : x.isFinite = true) (hy : y.isFinite = true) :
    x.le y = decide (x.value ≤ y.value) := by
  simp [F32.le, F32.isNaN_eq_false_of_isFinite hx, F32.isNaN_eq_false_of_isFinite hy, F32.ord_le_iff_value_le]

theorem F32.lt_eq_decide_value {x y : F32} (hx : x.isFinite = true) (hy : y.isFinite = true) :
    x.lt y = decide (x.value < y.value) := by
  rw [F32.lt_eq_not_le (F32.isNaN_eq_false_of_isFinite hx) (F32.isNaN_eq_false_of_isFinite hy),
    F32.le_eq_decide_value hy hx]
  simp only [← decide_not, Int.not_le]

theorem F32.feq_eq_decide_value {x y : F32} (hx : x.isFinite = true) (hy : y.isFinite = true) :
    x.feq y = decide (x.value = y.value) := by
  rw [F32.feq_eq_le_and_le (F32.isNaN_eq_false_of_isFinite hx) (F32.isNaN_eq_false_of_isFinite hy),
    F32.le_eq_decide_value hx hy, F32.le_eq_decide_value hy hx, ← Bool.decide_and]
  exact decide_eq_decide.2 (by omega)

theorem F32.value_fmax {x y : F32} (hx : x.isFinite = true) (hy : y.isFinite = true) :
    (x.fmax y).value = max x.value y.value := by
  obtain ⟨heq, hlx, hly⟩ := F32.fmax_spec (F32.isNaN_eq_false_of_isFinite hx) (F32.isNaN_eq_false_of_isFinite hy)
  obtain ⟨-, -, hlx⟩ := F32.le_iff.1 hlx
  obtain ⟨-, -, hly⟩ := F32.le_iff.1 hly
  rw [F32.ord_le_iff_value_le] at hlx hly
  rcases heq with h | h <;> rw [h] at hlx hly ⊢ <;> omega

theorem F32.value_fmin {x y : F32} (hx : x.isFinite = true) (hy : y.isFinite = true) :
    (x.fmin y).value = min x.value y.value := by
  obtain ⟨heq, hlx, hly⟩ := F32.fmin_spec (F32.isNaN_eq_false_of_isFinite hx) (F32.isNaN_eq_false_of_isFinite hy)
  obtain ⟨-, -, hlx⟩ := F32.le_iff.1 hlx
  obtain ⟨-, -, hly⟩ := F32.le_iff.1 hly
  rw [F32.ord_le_iff_value_le] at hlx hly
  rcases heq with h | h <;> rw [h] at hlx hly ⊢ <;> omega

/-- `fmax` and `fmin` of two values of which one is less. -/
theorem F32.fmax_fmin_of_lt {x y : F32} (h : x.lt y = true) :
    x.fmax y = y ∧ y.fmax x = y ∧ x.fmin y = x ∧ y.fmin x = x := by
  obtain ⟨hx, hy, hlt⟩ := F32.lt_iff.1 h
  simp [F32.fmax, F32.fmin, hx, hy, hlt, Int.lt_asymm hlt]

/-- A value between two finite values is finite. -/
theorem F32.isFinite_of_le_of_le {lo x hi : F32} (hlo : lo.isFinite = true) (hhi : hi.isFinite = true)
    (h1 : lo.le x = true) (h2 : x.le hi = true) : x.isFinite = true := by
  obtain ⟨-, -, h1⟩ := F32.le_iff.1 h1
  obtain ⟨-, -, h2⟩ := F32.le_iff.1 h2
  rw [F32.isFinite_iff] at *
  simp only [F32.ord] at h1 h2
  split_ifs at h1 h2 <;> omega

/-- Every finite value lies strictly between the infinities. -/
theorem F32.lt_inf {x : F32} (h : x.isFinite = true) :
    F32.lt ⟨0xFF800000#32⟩ x = true ∧ x.lt ⟨0x7F800000#32⟩ = true := by
  have hn := F32.isNaN_eq_false_of_isFinite h
  have hlo : F32.ord ⟨0xFF800000#32⟩ = -0x7F800000 := by decide
  have hhi : F32.ord ⟨0x7F800000#32⟩ = 0x7F800000 := by decide
  rw [F32.isFinite_iff] at h
  have hord : -0x7F800000 < x.ord ∧ x.ord < 0x7F800000 := by
    simp only [F32.ord]; split_ifs <;> omega
  rw [F32.lt_iff, F32.lt_iff, hlo, hhi]
  exact ⟨⟨by decide, hn, hord.1⟩, hn, by decide, hord.2⟩

/-! ### Signs -/

@[simp] theorem F32.value_neg (x : F32) : x.neg.value = -x.value := by
  rw [F32.value, F32.value, F32.scaled_eq, F32.scaled_eq, F32.magBits_neg, F32.sign_neg]
  cases x.sign <;> simp

@[simp] theorem F32.ord_neg (x : F32) : x.neg.ord = -x.ord := by
  rw [F32.ord, F32.ord, F32.magBits_neg, F32.sign_neg]
  cases x.sign <;> simp

@[simp] theorem F32.neg_le_neg (x y : F32) : x.neg.le y.neg = y.le x := by
  simp [F32.le, Bool.and_comm]

@[simp] theorem F32.value_fabs (x : F32) : x.fabs.value = x.value.natAbs := by
  rw [F32.natAbs_value, F32.value, F32.sign_fabs, F32.scaled_eq, F32.magBits_fabs, F32.scaled_eq]
  rfl

theorem F32.fabs_bits (x : F32) : x.fabs.bits.toNat = x.bits.toNat % 2 ^ 31 := by
  have h : (0x7FFFFFFF#32 : Word).toNat = 2 ^ 31 - 1 := by decide
  rw [F32.fabs, BitVec.toNat_and, h, Nat.and_two_pow_sub_one_eq_mod]

/-- Flipping the highest bit adds it without carry. -/
theorem F32.neg_bits (x : F32) : x.neg.bits.toNat = (x.bits.toNat + 2 ^ 31) % 2 ^ 32 := by
  have hmag : x.neg.bits.toNat % 2 ^ 31 = x.bits.toNat % 2 ^ 31 := F32.magBits_neg x
  have hsign := F32.sign_neg x
  rw [F32.sign, F32.sign, BitVec.msb_eq_decide, BitVec.msb_eq_decide, ← decide_not, decide_eq_decide] at hsign
  have hx := x.bits.isLt
  have hy := x.neg.bits.isLt
  by_cases h : 2 ^ (32 - 1) ≤ x.bits.toNat
  · have := (not_congr hsign).2 (not_not.2 h)
    omega
  · have := hsign.2 h
    omega

/-! ### Integers -/

/-- An integer of at most 24 bits is a binary32 value. -/
theorem exists_magUnits_eq {n : Nat} (h : n ≤ 2 ^ 24) : ∃ m < 0x7F800000, magUnits m = n * 2 ^ 149 := by
  rcases Nat.eq_zero_or_pos n with rfl | hpos
  · exact ⟨0, by omega, by simp⟩
  obtain ⟨e, he, hlow, hhigh⟩ : ∃ e ≤ 23, 2 ^ e ≤ n ∧ n ≤ 2 ^ (e + 1) := by
    rcases Nat.lt_or_ge n (2 ^ 24) with hlt | hge
    · exact ⟨n.log2, Nat.le_of_lt_succ ((Nat.log2_lt (by omega)).2 hlt), Nat.log2_self_le (by omega),
        Nat.lt_log2_self.le⟩
    · exact ⟨23, le_rfl, by omega, h⟩
  have hq : 2 ^ 23 ≤ n * 2 ^ (23 - e) ∧ n * 2 ^ (23 - e) ≤ 2 ^ 24 := by
    have h1 := Nat.mul_le_mul_right (2 ^ (23 - e)) hlow
    have h2 := Nat.mul_le_mul_right (2 ^ (23 - e)) hhigh
    rw [← Nat.pow_add, show e + (23 - e) = 23 by omega] at h1
    rw [← Nat.pow_add, show e + 1 + (23 - e) = 24 by omega] at h2
    exact ⟨h1, h2⟩
  refine ⟨(126 + e) * 2 ^ 23 + n * 2 ^ (23 - e), by omega, ?_⟩
  rw [magUnits_of_significand (.inr hq.1) hq.2, Nat.mul_assoc, ← Nat.pow_add, show 23 - e + (126 + e) = 149 by omega]

theorem F32.ofInt_natCast (n : Nat) : F32.ofInt n = F32.ofNat n := by
  have h : ¬ (n : Int) < 0 := by omega
  simp [F32.ofInt, F32.ofNat, h]

/-- A converted integer is the integer rounded (R17). -/
theorem F32.rounds_ofInt (z : Int) : (F32.ofInt z).Rounds (z * 2 ^ 149) 1 := by
  apply F32.rounds_ofMag_roundMag one_pos
  simp only [decide_eq_true_eq]
  split <;> omega

theorem F32.sign_ofInt (z : Int) : (F32.ofInt z).sign = decide (z < 0) := by
  have := roundMag_le_inf (z.natAbs * 2 ^ 149) 1
  rw [F32.ofInt, F32.sign_ofMag _ (by omega)]

/-- An integer of at most 24 bits is converted exactly. -/
theorem F32.value_ofInt {z : Int} (h : z.natAbs ≤ 2 ^ 24) : (F32.ofInt z).value = z * 2 ^ 149 := by
  obtain ⟨m, hm, hunits⟩ := exists_magUnits_eq h
  have hround : roundMag (z.natAbs * 2 ^ 149) 1 = m := by
    rw [← hunits]; simpa using roundMag_exact (m := m) one_pos hm.le
  rw [F32.ofInt, hround, F32.value_ofMag _ (by omega), hunits]
  simp only [decide_eq_true_eq]
  split <;> omega

theorem F32.isFinite_ofInt {z : Int} (h : z.natAbs ≤ 2 ^ 24) : (F32.ofInt z).isFinite = true := by
  rw [(F32.rounds_ofInt z).isFinite_iff]
  omega

theorem F32.value_ofNat {n : Nat} (h : n ≤ 2 ^ 24) : (F32.ofNat n).value = n * 2 ^ 149 := by
  rw [← F32.ofInt_natCast]; exact F32.value_ofInt h

theorem F32.isFinite_ofNat {n : Nat} (h : n ≤ 2 ^ 24) : (F32.ofNat n).isFinite = true := by
  rw [← F32.ofInt_natCast]; exact F32.isFinite_ofInt h

theorem F32.sign_ofNat (n : Nat) : (F32.ofNat n).sign = false := by
  rw [← F32.ofInt_natCast, F32.sign_ofInt]; simp

/-- A natural number other than 0 does not become a zero. -/
theorem F32.isZero_ofNat {n : Nat} (h : n ≤ 2 ^ 24) (h0 : 0 < n) : (F32.ofNat n).isZero = false := by
  rw [← Bool.not_eq_true, F32.isZero_iff, ← F32.value_eq_zero_iff, F32.value_ofNat h]
  omega

/-- All that R148 and R17 say of a converted integer. -/
theorem F32.ofInt_spec (z : Int) :
    ((F32.ofInt z).isFinite = true ↔ 2 * (z * 2 ^ 149).natAbs < (2 ^ 25 - 1) * 2 ^ 253) ∧
      (F32.ofInt z).isNaN = false ∧ (F32.ofInt z).sign = decide (z < 0) ∧
      (z.natAbs ≤ 2 ^ 24 → (F32.ofInt z).value = z * 2 ^ 149) ∧
      ((F32.ofInt z).isFinite = true → ∀ x : F32, x.isFinite = true →
        ((F32.ofInt z).value - z * 2 ^ 149).natAbs ≤ (x.value - z * 2 ^ 149).natAbs ∧
        (x.value ≠ (F32.ofInt z).value →
          ((F32.ofInt z).value - z * 2 ^ 149).natAbs = (x.value - z * 2 ^ 149).natAbs →
            (F32.ofInt z).bits.toNat % 2 = 0)) := by
  obtain ⟨hfin, hnan, hnear⟩ := F32.rounds_ofInt z
  refine ⟨by simpa only [Nat.mul_one] using hfin, hnan, F32.sign_ofInt z, F32.value_ofInt, fun hf x hx => ?_⟩
  simpa only [F32.dist, Nat.cast_one, Int.mul_one] using hnear hf x hx

/-- Settles O60, clause by clause from the laws above. -/
theorem comparisonsAndConversionsFollowTheRule : Obligations.ComparisonsAndConversionsFollowTheRule := by
  unfold Obligations.ComparisonsAndConversionsFollowTheRule
  intro nearest
  refine ⟨fun x y hx hy => ?_, fun x hx => F32.lt_inf hx, fun x y hx hy => ?_,
    fun x _ => ⟨F32.fabs_bits x, F32.neg_bits x⟩, fun x _ => ⟨F32.value_fabs x, F32.value_neg x⟩, fun _ _ => rfl, fun _ _ _ => rfl, fun _ _ _ _ _ => rfl,
    fun n => F32.ofInt_natCast n ▸ F32.ofInt_spec n, F32.ofInt_spec⟩
  · have hxn := F32.isNaN_eq_false_of_isFinite hx
    have hyn := F32.isNaN_eq_false_of_isFinite hy
    exact ⟨F32.lt_eq_decide_value hx hy, F32.le_eq_decide_value hx hy, F32.feq_eq_decide_value hx hy,
      (F32.fmax_spec hxn hyn).1, F32.value_fmax hx hy, (F32.fmin_spec hxn hyn).1, F32.value_fmin hx hy⟩
  · exact ⟨F32.feq_eq_le_and_le hx hy, F32.lt_eq_not_le hx hy, F32.fmax_fmin_of_lt⟩

end Sys2Proof
end

section
/-! ## Constants, gains and the limiter -/

namespace Sys2Proof

/-- Settles O54, by evaluating the rounding of each literal. -/
theorem constantsAreNearest : Obligations.ConstantsAreNearest := by
  unfold Obligations.ConstantsAreNearest
  decide +kernel

namespace Machine

theorem elapsed_eq (a b : Word) : elapsed a b = (a.toNat + 2 ^ 32 - b.toNat) % 2 ^ 32 := by
  rw [elapsed, BitVec.toNat_sub]
  congr 1
  have := b.isLt
  omega

theorem gainFloor_eq : Const.gainFloor = ⟨0x3D800000#32⟩ := by decide +kernel

/-- R239, with the gain floor as its pattern. -/
theorem channelGain_eq (s : State) : s.channelGain =
    if s.cfg.agcMode = 0#2 then
      (((((F32.ofNat s.cfg.sampleGain.toNat).div (F32.ofNat 40)).mul (F32.ofNat s.cfg.inputLevel.toNat)).div
        (F32.ofNat 128)).add ⟨0x3D800000#32⟩)
    else s.agc.mult := by
  rw [State.channelGain, manualGain, gainFloor_eq]
  exact ite_not _ _ _

/-- Settles O28. -/
theorem presetGainAndElapsedTime : Obligations.PresetGainAndElapsedTime :=
  ⟨fun _ => ⟨rfl, rfl, rfl, rfl⟩, channelGain_eq, elapsed_eq⟩

end Machine

/-! ### Bounds of a sum

A representable bound of an exact sum or difference bounds the rounded one, and the other way round. -/

/-- Rounding is symmetric in the sign. -/
theorem F32.ord_neg_add_neg {a b : F32} (ha : a.isFinite = true) (hb : b.isFinite = true) :
    (a.neg.add b.neg).ord = -(a.add b).ord := by
  have hsum : a.neg.value + b.neg.value = -(a.value + b.value) := by rw [F32.value_neg, F32.value_neg]; omega
  have hlt : roundMag (a.value + b.value).natAbs 1 < 2 ^ 31 := by
    have := roundMag_le_inf (a.value + b.value).natAbs 1
    omega
  rw [F32.add_eq_ofMag ha hb, F32.add_eq_ofMag (by simpa using ha) (by simpa using hb), hsum, Int.natAbs_neg]
  simp only [F32.ord, F32.magBits_ofMag _ hlt, F32.sign_ofMag _ hlt]
  generalize a.value + b.value = z
  rcases Int.lt_trichotomy z 0 with h | rfl | h
  · simp [h, Int.ne_of_lt h, Int.lt_asymm h]
  · simp [roundMag_zero]
  · simp [h, Int.ne_of_gt h, Int.lt_asymm h]

theorem F32.isNaN_add {a b : F32} (ha : a.isFinite = true) (hb : b.isFinite = true) : (a.add b).isNaN = false :=
  (F32.rounds_add ha hb).notNaN

/-- A rounded sum keeps a representable lower bound of the exact sum. -/
theorem F32.le_add {a b c : F32} (ha : a.isFinite = true) (hb : b.isFinite = true) (hc : c.isFinite = true)
    (h : c.value ≤ a.value + b.value) : c.le (a.add b) = true := by
  have hneg : (a.neg.add b.neg).le c.neg = true :=
    F32.add_le (by simpa using ha) (by simpa using hb) (by simpa using hc) (by simp only [F32.value_neg]; omega)
  obtain ⟨-, -, hord⟩ := F32.le_iff.1 hneg
  rw [F32.ord_neg_add_neg ha hb, F32.ord_neg] at hord
  exact F32.le_iff.2 ⟨F32.isNaN_eq_false_of_isFinite hc, F32.isNaN_add ha hb, by omega⟩

theorem F32.not_lt_of_le {x y : F32} (h : x.le y = true) : ¬ y.lt x = true := by
  obtain ⟨hx, hy, -⟩ := F32.le_iff.1 h
  rw [F32.lt_eq_not_le hy hx, h]
  decide

/-- What is less than a rounded sum is at most the exact sum. -/
theorem F32.value_le_of_lt_add {a b c : F32} (ha : a.isFinite = true) (hb : b.isFinite = true) (hc : c.isFinite = true)
    (h : c.lt (a.add b) = true) : c.value ≤ a.value + b.value := by
  by_contra hlt
  exact F32.not_lt_of_le (F32.add_le ha hb hc (by omega)) h

/-- What is greater than a rounded sum is at least the exact sum. -/
theorem F32.value_le_of_add_lt {a b c : F32} (ha : a.isFinite = true) (hb : b.isFinite = true) (hc : c.isFinite = true)
    (h : (a.add b).lt c = true) : a.value + b.value ≤ c.value := by
  by_contra hlt
  exact F32.not_lt_of_le (F32.le_add ha hb hc (by omega)) h

/-! ### Positive products and quotients -/

@[simp] theorem F32.ord_zero : F32.zero.ord = 0 := by decide

@[simp] theorem F32.value_zero : F32.zero.value = 0 := by decide

/-- A value above zero has no sign and is no zero. -/
theorem F32.zero_lt_iff {x : F32} :
    F32.zero.lt x = true ↔ x.isNaN = false ∧ x.sign = false ∧ x.isZero = false := by
  have hn : F32.zero.isNaN = false := by decide
  rw [F32.lt_iff, F32.ord_zero, F32.ord, F32.isZero, beq_eq_false_iff_ne]
  cases x.sign <;> simp [hn]
  omega

/-- A value without a sign that is no NaN is at least zero. -/
theorem F32.zero_le_of_sign {x : F32} (hn : x.isNaN = false) (hs : x.sign = false) : F32.zero.le x = true := by
  refine F32.le_iff.2 ⟨by decide, hn, ?_⟩
  rw [F32.ord_zero, F32.ord, hs]
  exact Int.natCast_nonneg _

theorem F32.isInf_of_not_finite {x : F32} (hn : x.isNaN = false) (hf : ¬ x.isFinite = true) : x.isInf = true := by
  rw [F32.isFinite_iff] at hf
  simp only [F32.isNaN, F32.isInf, decide_eq_false_iff_not, beq_iff_eq] at *
  omega

theorem F32.isInf_eq_false_of_isFinite {x : F32} (h : x.isFinite = true) : x.isInf = false := by
  rw [F32.isFinite_iff] at h
  simp only [F32.isInf, beq_eq_false_iff_ne]
  omega

/-- A positive value, an infinity included, times a positive finite one has no sign and is no NaN. -/
theorem F32.mul_of_pos {a b : F32} (ha : F32.zero.lt a = true) (hb : F32.zero.lt b = true) (hbf : b.isFinite = true) :
    (a.mul b).isNaN = false ∧ (a.mul b).sign = false := by
  obtain ⟨han, has, ha0⟩ := F32.zero_lt_iff.1 ha
  obtain ⟨hbn, hbs, hb0⟩ := F32.zero_lt_iff.1 hb
  by_cases haf : a.isFinite = true
  · exact ⟨(F32.rounds_mul haf hbf).notNaN, by rw [F32.sign_mul haf hbf, has, hbs]; rfl⟩
  · have hinf := F32.isInf_of_not_finite han haf
    have : a.mul b = ⟨0x7F800000#32⟩ := by
      simp [F32.mul, han, hbn, hinf, ha0, hb0, F32.signXor, has, hbs, F32.ofMag]
    rw [this]; decide

/-- A value without a sign, an infinity included, over a positive finite one has no sign and is no NaN. -/
theorem F32.div_of_pos {a b : F32} (han : a.isNaN = false) (has : a.sign = false) (hb : F32.zero.lt b = true)
    (hbf : b.isFinite = true) : (a.div b).isNaN = false ∧ (a.div b).sign = false := by
  obtain ⟨hbn, hbs, hb0⟩ := F32.zero_lt_iff.1 hb
  by_cases haf : a.isFinite = true
  · exact ⟨(F32.rounds_div haf hbf hb0).notNaN, by rw [F32.sign_div haf hbf hb0, has, hbs]; rfl⟩
  · have hinf := F32.isInf_of_not_finite han haf
    have : a.div b = ⟨0x7F800000#32⟩ := by
      simp [F32.div, han, hbn, hinf, F32.isInf_eq_false_of_isFinite hbf, F32.signXor, has, hbs, F32.ofMag]
    rw [this]; decide

theorem F32.zero_lt_ofNat {n : Nat} (h : n ≤ 2 ^ 24) (h0 : 0 < n) : F32.zero.lt (F32.ofNat n) = true :=
  F32.zero_lt_iff.2 ⟨F32.isNaN_eq_false_of_isFinite (F32.isFinite_ofNat h), F32.sign_ofNat n, F32.isZero_ofNat h h0⟩

/-- A value from zero up that is less than some value is finite. -/
theorem F32.isFinite_of_zero_le_of_lt {x d : F32} (h0 : F32.zero.le x = true) (h : x.lt d = true) :
    x.isFinite = true := by
  obtain ⟨-, hxn, hx0⟩ := F32.le_iff.1 h0
  obtain ⟨-, hdn, hlt⟩ := F32.lt_iff.1 h
  rw [F32.isFinite_iff]
  simp only [F32.isNaN, decide_eq_false_iff_not] at hdn
  rw [F32.ord_zero] at hx0
  simp only [F32.ord] at hx0 hlt
  split_ifs at hx0 hlt <;> omega

theorem F32.lt_neg_comm (x y : F32) : x.lt y.neg = y.lt x.neg := by
  simp only [F32.lt, F32.isNaN_neg, F32.ord_neg, Bool.and_comm (!x.isNaN)]
  congr 1
  exact decide_eq_decide.2 (by omega)

/-! ### The limiter -/

namespace Machine

/-- R10: with a positive `LIM_BIG_CHANGE` the limiter's step is never negative. -/
theorem zero_le_limitStep {p : Params} (hp : F32.zero.lt p.limBigChange = true) (dt : Nat) {tau : BitVec 16}
    (ht : tau ≠ 0#16) : F32.zero.le (limitStep p dt tau) = true := by
  have hdt : 0 < limitDt dt ∧ limitDt dt ≤ 2 ^ 24 := by
    simp only [limitDt, Const.limDtMin, Const.limDtMax]; omega
  have htau : 0 < tau.toNat ∧ tau.toNat ≤ 2 ^ 24 := by
    have := tau.isLt
    have : tau.toNat ≠ 0 := fun h => ht (BitVec.eq_of_toNat_eq h)
    omega
  obtain ⟨hn, hs⟩ := F32.mul_of_pos hp (F32.zero_lt_ofNat hdt.2 hdt.1) (F32.isFinite_ofNat hdt.2)
  obtain ⟨hn', hs'⟩ := F32.div_of_pos hn hs (F32.zero_lt_ofNat htau.2 htau.1) (F32.isFinite_ofNat htau.2)
  exact F32.zero_le_of_sign hn' hs'

/-- Everything that the limiter can answer: the target; or, where the target is further than a step away, the present
value moved by that step (R205). -/
theorem limited_cases {p : Params} (hp : F32.zero.lt p.limBigChange = true) (c : ConfigRegs) (dt : Nat)
    (tgt cur : F32) :
    limited p c dt tgt cur = tgt ∨
    (∃ up, F32.zero.le up = true ∧ up.lt (tgt.sub cur) = true ∧ limited p c dt tgt cur = cur.add up) ∨
    (∃ dn, F32.zero.le dn = true ∧ (tgt.sub cur).lt dn.neg = true ∧ limited p c dt tgt cur = cur.sub dn) := by
  unfold limited
  by_cases hoff : c.limiterEn = 0#1
  · exact .inl (if_pos hoff)
  simp only [if_neg hoff, Bool.and_eq_true, bne_iff_ne]
  split_ifs with hup hstep hdn hstep
  · exact .inr (.inl ⟨_, zero_le_limitStep hp dt hup.2, hstep, rfl⟩)
  · exact .inl rfl
  · exact .inr (.inr ⟨_, zero_le_limitStep hp dt hdn.2, hstep, rfl⟩)
  · exact .inl rfl
  · exact .inl rfl

/-- A step up that is less than the rounded distance ends between the present value and the target. -/
theorem step_up_between {tgt cur up : F32} (ht : tgt.isFinite = true) (hc : cur.isFinite = true)
    (h0 : F32.zero.le up = true) (h : up.lt (tgt.sub cur) = true) :
    cur.le (cur.add up) = true ∧ (cur.add up).le tgt = true := by
  have hf := F32.isFinite_of_zero_le_of_lt h0 h
  have hpos : 0 ≤ up.value := by
    obtain ⟨-, -, hord⟩ := F32.le_iff.1 h0
    simpa only [F32.value_zero] using (F32.ord_le_iff_value_le F32.zero up).1 hord
  have hdist := F32.value_le_of_lt_add ht (by simpa using hc) hf h
  rw [F32.value_neg] at hdist
  exact ⟨F32.le_add hc hf hc (by omega), F32.add_le hc hf ht (by omega)⟩

/-- A step down that is less than the rounded distance ends between the target and the present value. -/
theorem step_down_between {tgt cur dn : F32} (ht : tgt.isFinite = true) (hc : cur.isFinite = true)
    (h0 : F32.zero.le dn = true) (h : (tgt.sub cur).lt dn.neg = true) :
    tgt.le (cur.sub dn) = true ∧ (cur.sub dn).le cur = true := by
  have hf : dn.neg.isFinite = true := by
    rw [F32.isFinite_neg]; exact F32.isFinite_of_zero_le_of_lt h0 (F32.lt_neg_comm _ _ ▸ h)
  have hpos : 0 ≤ dn.value := by
    obtain ⟨-, -, hord⟩ := F32.le_iff.1 h0
    simpa only [F32.value_zero] using (F32.ord_le_iff_value_le F32.zero dn).1 hord
  have hdist := F32.value_le_of_add_lt ht (by simpa using hc) hf h
  have hneg := F32.value_neg dn
  rw [F32.value_neg] at hdist
  exact ⟨F32.le_add hc hf ht (by omega), F32.add_le hc hf hc (by omega)⟩

/-- The limiter moves up only towards a target above, and never past it. -/
theorem limited_between_of_le {p : Params} (hp : F32.zero.lt p.limBigChange = true) (c : ConfigRegs) (dt : Nat)
    {tgt cur : F32} (ht : tgt.isFinite = true) (hc : cur.isFinite = true) (hle : cur.le tgt = true) :
    cur.le (limited p c dt tgt cur) = true ∧ (limited p c dt tgt cur).le tgt = true := by
  rcases limited_cases hp c dt tgt cur with h | ⟨up, h0, hup, h⟩ | ⟨dn, h0, hdn, -⟩
  · rw [h]; exact ⟨hle, F32.le_refl (F32.isNaN_eq_false_of_isFinite ht)⟩
  · rw [h]; exact step_up_between ht hc h0 hup
  · -- the distance is not negative
    obtain ⟨-, -, hord⟩ := F32.le_iff.1 hle
    have hvalue := (F32.ord_le_iff_value_le cur tgt).1 hord
    have hdist : F32.zero.le (tgt.sub cur) = true :=
      F32.le_add ht (by simpa using hc) (by decide) (by rw [F32.value_zero, F32.value_neg]; omega)
    have hdn0 : dn.neg.le F32.zero = true := F32.le_trans ((F32.neg_le_neg dn F32.zero).trans h0) (by decide)
    exact absurd hdn (F32.not_lt_of_le (F32.le_trans hdn0 hdist))

/-- The limiter moves down only towards a target below, and never past it. -/
theorem limited_between_of_ge {p : Params} (hp : F32.zero.lt p.limBigChange = true) (c : ConfigRegs) (dt : Nat)
    {tgt cur : F32} (ht : tgt.isFinite = true) (hc : cur.isFinite = true) (hle : tgt.le cur = true) :
    tgt.le (limited p c dt tgt cur) = true ∧ (limited p c dt tgt cur).le cur = true := by
  rcases limited_cases hp c dt tgt cur with h | ⟨up, h0, hup, -⟩ | ⟨dn, h0, hdn, h⟩
  · rw [h]; exact ⟨F32.le_refl (F32.isNaN_eq_false_of_isFinite ht), hle⟩
  · -- the distance is not positive
    obtain ⟨-, -, hord⟩ := F32.le_iff.1 hle
    have hvalue := (F32.ord_le_iff_value_le tgt cur).1 hord
    have hdist : (tgt.sub cur).le F32.zero = true :=
      F32.add_le ht (by simpa using hc) (by decide) (by rw [F32.value_zero, F32.value_neg]; omega)
    exact absurd hup (F32.not_lt_of_le (F32.le_trans hdist h0))
  · rw [h]; exact step_down_between ht hc h0 hdn

/-- Settles O36, one direction at a time. -/
theorem limiterNeverOvershoots : Obligations.LimiterNeverOvershoots := fun _ c dt _ _ hp ht hc =>
  ⟨limited_between_of_le hp c dt ht hc, limited_between_of_ge hp c dt ht hc⟩

/-- The limited volume is finite where the present value and the target are (R305). -/
theorem isFinite_limited {p : Params} (hp : F32.zero.lt p.limBigChange = true) (c : ConfigRegs) (dt : Nat)
    {tgt cur : F32} (ht : tgt.isFinite = true) (hc : cur.isFinite = true) :
    (limited p c dt tgt cur).isFinite = true := by
  rcases Int.le_total cur.ord tgt.ord with h | h
  · obtain ⟨hlo, hhi⟩ := limited_between_of_le hp c dt ht hc
      (F32.le_iff.2 ⟨F32.isNaN_eq_false_of_isFinite hc, F32.isNaN_eq_false_of_isFinite ht, h⟩)
    exact F32.isFinite_of_le_of_le hc ht hlo hhi
  · obtain ⟨hlo, hhi⟩ := limited_between_of_ge hp c dt ht hc
      (F32.le_iff.2 ⟨F32.isNaN_eq_false_of_isFinite ht, F32.isNaN_eq_false_of_isFinite hc, h⟩)
    exact F32.isFinite_of_le_of_le ht hc hlo hhi

end Machine

end Sys2Proof
end

section
/-! ## Special values
What the operations answer on NaNs, infinities and zeros (R18, R24). -/

namespace Sys2Proof

/-! ### NaNs -/

theorem F32.add_of_isNaN {x y : F32} (h : x.isNaN = true ∨ y.isNaN = true) : x.add y = F32.qNaN := by
  rcases h with h | h <;> simp [F32.add, h]

theorem F32.mul_of_isNaN {x y : F32} (h : x.isNaN = true ∨ y.isNaN = true) : x.mul y = F32.qNaN := by
  rcases h with h | h <;> simp [F32.mul, h]

theorem F32.div_of_isNaN {x y : F32} (h : x.isNaN = true ∨ y.isNaN = true) : x.div y = F32.qNaN := by
  rcases h with h | h <;> simp [F32.div, h]

/-- A NaN makes every comparison false and every operation's result the one NaN. -/
theorem F32.nan_propagates {x y : F32} (h : x.isNaN = true ∨ y.isNaN = true) :
    x.lt y = false ∧ x.le y = false ∧ x.feq y = false ∧ x.add y = ⟨0x7FC00000#32⟩ ∧
      x.sub y = ⟨0x7FC00000#32⟩ ∧ x.mul y = ⟨0x7FC00000#32⟩ ∧ x.div y = ⟨0x7FC00000#32⟩ := by
  refine ⟨?_, ?_, ?_, F32.add_of_isNaN h, F32.add_of_isNaN (by simpa using h), F32.mul_of_isNaN h, F32.div_of_isNaN h⟩
  · rcases h with h | h <;> simp [F32.lt, h]
  · rcases h with h | h <;> simp [F32.le, h]
  · rcases h with h | h <;> simp [F32.feq, h]

/-- `fmax` and `fmin` pass one NaN over. -/
theorem F32.fmax_fmin_of_isNaN {x y : F32} (hx : x.isNaN = true) (hy : y.isNaN = false) :
    x.fmax y = y ∧ y.fmax x = y ∧ x.fmin y = y ∧ y.fmin x = y := by
  simp [F32.fmax, F32.fmin, hx, hy]

theorem F32.clamp_of_isNaN {x lo hi : F32} (hx : x.isNaN = true) (h : lo.lt hi = true) : x.clamp lo hi = lo := by
  obtain ⟨hlo, -, -⟩ := F32.lt_iff.1 h
  obtain ⟨-, -, hmin, -⟩ := F32.fmax_fmin_of_lt h
  rw [F32.clamp, F32.fmax_of_isNaN hx hlo, hmin]

theorem F32.isFinite_eq_false_of_isNaN {x : F32} (h : x.isNaN = true) : x.isFinite = false := by
  rw [← Bool.not_eq_true]
  intro hf
  rw [F32.isNaN_eq_false_of_isFinite hf] at h
  exact Bool.noConfusion h

/-! ### Truncation -/

/-- 2^31 in units of 2^-149. -/
theorem F32.scaled_two_pow_31 : F32.scaled ⟨0x4F000000#32⟩ = 2 ^ 31 * 2 ^ 149 := by decide +kernel

theorem F32.ord_two_pow_31 : F32.ord ⟨0x4F000000#32⟩ = 0x4F000000 := by decide

theorem F32.trunc_of_not_finite {x : F32} (h : x.isFinite = false) : x.trunc = 0 := by simp [F32.trunc, h]

theorem F32.trunc_of_sign {x : F32} (h : x.sign = true) : x.trunc = 0 := by simp [F32.trunc, h]

/-- 2^31 and everything beyond is truncated to 0 (R24). -/
theorem F32.trunc_of_ge {x : F32} (h : F32.le ⟨0x4F000000#32⟩ x = true) : x.trunc = 0 := by
  obtain ⟨-, -, hord⟩ := F32.le_iff.1 h
  rw [F32.ord_two_pow_31, F32.ord] at hord
  have hmag : 0x4F000000 ≤ x.magBits := by split_ifs at hord <;> omega
  have hunits : 2 ^ 31 * 2 ^ 149 ≤ x.scaled := by
    rw [← F32.scaled_two_pow_31]; exact magUnits_strictMono.monotone hmag
  rw [F32.trunc, if_neg]
  rw [Bool.and_eq_true, decide_eq_true_eq]
  exact fun hlt => Nat.not_lt.2 hunits hlt.2

/-- A value in [0, 2^31) is truncated toward zero (R18). -/
theorem F32.trunc_of_lt {x : F32} (hs : x.sign = false) (h : x.lt ⟨0x4F000000#32⟩ = true) :
    x.trunc = x.scaled / 2 ^ 149 := by
  obtain ⟨-, -, hord⟩ := F32.lt_iff.1 h
  rw [F32.ord_two_pow_31, F32.ord, hs] at hord
  have hmag : x.magBits < 0x4F000000 := by simpa using hord
  have hf : x.isFinite = true := by rw [F32.isFinite_iff]; omega
  have hunits : x.scaled < 2 ^ 31 * 2 ^ 149 := by
    rw [← F32.scaled_two_pow_31]; exact magUnits_strictMono hmag
  rw [F32.trunc, if_pos]
  rw [hf, hs, Bool.and_eq_true, decide_eq_true_eq]
  exact ⟨rfl, hunits⟩

theorem F32.trunc_spec {x : F32} (hs : x.sign = false) (h : x.lt ⟨0x4F000000#32⟩ = true) :
    x.trunc * 2 ^ 149 ≤ x.scaled ∧ x.scaled < (x.trunc + 1) * 2 ^ 149 := by
  rw [F32.trunc_of_lt hs h]
  omega

/-! ### Infinities and zeros -/

theorem F32.isNaN_eq_false_of_isInf {x : F32} (h : x.isInf = true) : x.isNaN = false := by
  simp only [F32.isInf, beq_iff_eq] at h
  simp [F32.isNaN, h]

/-- A pattern with the magnitude of an infinity or of a zero. -/
theorem F32.isInf_ofMag_inf (neg : Bool) : (F32.ofMag neg 0x7F800000).isInf = true := by
  rw [F32.isInf, F32.magBits_ofMag neg (by omega)]; rfl

theorem F32.isZero_ofMag_zero (neg : Bool) : (F32.ofMag neg 0).isZero = true := by
  rw [F32.isZero, F32.magBits_ofMag neg (by omega)]; rfl

theorem F32.sign_ofMag_inf (neg : Bool) : (F32.ofMag neg 0x7F800000).sign = neg := F32.sign_ofMag neg (by omega)

theorem F32.isZero_eq_false_of_isInf {x : F32} (h : x.isInf = true) : x.isZero = false := by
  simp only [F32.isInf, beq_iff_eq] at h
  simp [F32.isZero, h]

theorem F32.mul_comm (x y : F32) : x.mul y = y.mul x := by
  have hsign : F32.signXor x y = F32.signXor y x := by
    simp only [F32.signXor]; cases x.sign <;> cases y.sign <;> rfl
  simp only [F32.mul, hsign, Nat.mul_comm x.scaled, Bool.or_comm x.isNaN, Bool.or_comm x.isInf, Bool.or_comm x.isZero]

theorem F32.mul_of_isInf {x y : F32} (hx : x.isInf = true) (hy : y.isNaN = false) :
    x.mul y = if y.isZero = true then F32.qNaN else F32.ofMag (F32.signXor x y) 0x7F800000 := by
  simp [F32.mul, hx, hy, F32.isNaN_eq_false_of_isInf hx, F32.isZero_eq_false_of_isInf hx]

theorem F32.inf_div {x y : F32} (hx : x.isInf = true) (hy : y.isFinite = true) :
    x.div y = F32.ofMag (F32.signXor x y) 0x7F800000 := by
  simp [F32.div, hx, F32.isNaN_eq_false_of_isInf hx, F32.isNaN_eq_false_of_isFinite hy,
    F32.isInf_eq_false_of_isFinite hy]

theorem F32.div_inf {x y : F32} (hx : x.isFinite = true) (hy : y.isInf = true) :
    x.div y = F32.ofMag (F32.signXor x y) 0 := by
  simp [F32.div, hy, F32.isNaN_eq_false_of_isInf hy, F32.isNaN_eq_false_of_isFinite hx,
    F32.isInf_eq_false_of_isFinite hx]

theorem F32.div_zero {x y : F32} (hx : x.isFinite = true) (hy : y.isZero = true) :
    x.div y = if x.isZero = true then F32.qNaN else F32.ofMag (F32.signXor x y) 0x7F800000 := by
  have hyf : y.isFinite = true := by
    have : y.magBits = 0 := by simpa [F32.isZero] using hy
    simp [F32.isFinite, this]
  simp [F32.div, hy, F32.isNaN_eq_false_of_isFinite hx, F32.isInf_eq_false_of_isFinite hx,
    F32.isNaN_eq_false_of_isFinite hyf, F32.isInf_eq_false_of_isFinite hyf]

/-- An infinity and a finite value (R24). -/
theorem F32.inf_with_finite {x y : F32} (hx : x.isInf = true) (hy : y.isFinite = true) :
    x.add y = x ∧ y.add x = x ∧ (x.mul y).isNaN = y.isZero ∧ (y.isZero = false → (x.mul y).isInf = true) ∧
      x.mul y = y.mul x ∧ (x.div y).isInf = true ∧ (y.div x).isZero = true ∧
      (y.isZero = false → (x.mul y).sign = (x.sign != y.sign)) ∧
      (x.div y).sign = (x.sign != y.sign) ∧ (y.div x).sign = (y.sign != x.sign) := by
  have hxn := F32.isNaN_eq_false_of_isInf hx
  have hyn := F32.isNaN_eq_false_of_isFinite hy
  have hyi := F32.isInf_eq_false_of_isFinite hy
  rw [← F32.mul_comm x y, F32.mul_of_isInf hx hyn, F32.inf_div hx hy, F32.div_inf hy hx]
  refine ⟨by simp [F32.add, hx, hxn, hyn, hyi], by simp [F32.add, hx, hxn, hyn, hyi], ?_, fun h0 => ?_, rfl,
    F32.isInf_ofMag_inf _, F32.isZero_ofMag_zero _, fun h0 => ?_, F32.sign_ofMag_inf _, F32.sign_ofMag _ (by omega)⟩
  · cases y.isZero
    · exact F32.isNaN_eq_false_of_isInf (F32.isInf_ofMag_inf _)
    · rw [if_pos rfl]; decide
  · rw [h0]; exact F32.isInf_ofMag_inf _
  · rw [h0]; exact F32.sign_ofMag_inf _

/-- Two infinities (R24). -/
theorem F32.inf_with_inf {x y : F32} (hx : x.isInf = true) (hy : y.isInf = true) :
    x.add y = (if x.sign = y.sign then x else ⟨0x7FC00000#32⟩) ∧ x.div y = ⟨0x7FC00000#32⟩ ∧
      (x.mul y).isInf = true ∧ (x.mul y).sign = (x.sign != y.sign) := by
  have hxn := F32.isNaN_eq_false_of_isInf hx
  have hyn := F32.isNaN_eq_false_of_isInf hy
  have hmul : x.mul y = F32.ofMag (F32.signXor x y) 0x7F800000 := by
    rw [F32.mul_of_isInf hx hyn, F32.isZero_eq_false_of_isInf hy]; rfl
  rw [hmul]
  refine ⟨?_, by simp [F32.div, hx, hy, hxn, hyn, F32.qNaN], F32.isInf_ofMag_inf _, F32.sign_ofMag_inf _⟩
  by_cases hs : x.sign = y.sign <;> simp [F32.add, hx, hy, hxn, hyn, F32.signXor, hs, F32.qNaN]

/-- A finite value over a zero (R24). -/
theorem F32.div_zero_spec {x y : F32} (hx : x.isFinite = true) (hy : y.isZero = true) :
    if x.isZero = true then x.div y = ⟨0x7FC00000#32⟩
    else (x.div y).isInf = true ∧ (x.div y).sign = (x.sign != y.sign) := by
  rw [F32.div_zero hx hy]
  split
  · rfl
  · exact ⟨F32.isInf_ofMag_inf _, F32.sign_ofMag_inf _⟩

theorem F32.sqrt_of_sign {x : F32} (hn : x.isNaN = false) (hs : x.sign = true) :
    x.sqrt = if x.isZero = true then x else ⟨0x7FC00000#32⟩ := by
  simp [F32.sqrt, hn, hs, F32.qNaN]

end Sys2Proof
end

section
/-! ## Finite states stay finite
R305: no command leaves a non-finite value in a register, from finite registers and parameters.  A command leaves a
value in one of four ways: settled, clamped between finite bounds, taken from a register or parameter, or by a
conversion or decay that cannot overflow; each group of registers is finite by these. -/

namespace Sys2Proof

/-! ### Operations that cannot overflow -/

theorem F32.isFinite_zero : F32.zero.isFinite = true := by decide

theorem F32.isFinite_one : F32.one.isFinite = true := by decide

/-- A bound that is no NaN is at most the greater of it and anything else. -/
theorem F32.le_fmax_right (v : F32) {lo : F32} (h : lo.isNaN = false) : lo.le (v.fmax lo) = true := by
  cases hv : v.isNaN
  · exact (F32.fmax_spec hv h).2.2
  · rw [F32.fmax_of_isNaN hv h]; exact F32.le_refl h

/-- A value clamped between finite bounds is finite, in whatever order the bounds are. -/
theorem F32.isFinite_clamp (v : F32) {lo hi : F32} (hlo : lo.isFinite = true) (hhi : hi.isFinite = true) :
    (v.clamp lo hi).isFinite = true := by
  have hle := F32.le_fmax_right v (F32.isNaN_eq_false_of_isFinite hlo)
  obtain ⟨-, hn, -⟩ := F32.le_iff.1 hle
  obtain ⟨heq, -, hmin⟩ := F32.fmin_spec hn (F32.isNaN_eq_false_of_isFinite hhi)
  rcases heq with h | h
  · rw [h] at hmin
    rw [F32.clamp, h]
    exact F32.isFinite_of_le_of_le hlo hhi hle hmin
  · rw [F32.clamp, h]; exact hhi

/-- A finite value times a factor of at most 1 in magnitude is finite. -/
theorem F32.isFinite_mul_of_le_one {a b : F32} (ha : a.isFinite = true) (hb : b.magBits ≤ 0x3F800000)
    (hb0 : b.magBits ≠ 0) : (a.mul b).isFinite = true := by
  have hle := F32.fabs_mul_le (F32.isNaN_eq_false_of_isFinite ha) hb hb0
  rw [← F32.isFinite_fabs]
  refine F32.isFinite_of_le_of_le F32.isFinite_zero (by simpa using ha) (F32.zero_le_of_sign ?_ (F32.sign_fabs _)) hle
  exact (F32.le_iff.1 hle).1

/-- Half of a finite value is finite. -/
theorem F32.isFinite_div_two {a : F32} (ha : a.isFinite = true) : (a.div (F32.ofNat 2)).isFinite = true := by
  have hb : (F32.ofNat 2).isFinite = true := F32.isFinite_ofNat (by omega)
  have hunits : (F32.ofNat 2).scaled = 2 ^ 150 := by decide +kernel
  have hmax : magUnits 0x7F7FFFFF = (2 ^ 24 - 1) * 2 ^ 253 := by decide +kernel
  have hle : a.scaled ≤ (2 ^ 24 - 1) * 2 ^ 253 := by
    rw [← hmax]
    exact magUnits_strictMono.monotone (Nat.le_of_lt_succ ((F32.isFinite_iff a).1 ha))
  rw [(F32.rounds_div ha hb (F32.isZero_ofNat (by omega) (by omega))).isFinite_iff, F32.natAbs_dividend, Int.natAbs_mul,
    F32.natAbs_value, show (2 ^ 149 : Int).natAbs = 2 ^ 149 from rfl, hunits]
  omega

/-! ### Arrays and loops -/

/-- What holds of every element, by index. -/
theorem Arr.forall_elems_iff {α : Type} [Inhabited α] {n : Nat} {P : α → Prop} (v : Arr α n) :
    (∀ x ∈ v.elems, P x) ↔ ∀ i < n, P (v.nth i) := by
  rw [Arr.elems_eq_map_nth]
  simp

/-- A property that every iteration over the array's own elements keeps holds of the carried state throughout. -/
theorem Arr.carry_induct_nth {σ α β : Type} [Inhabited α] {n : Nat} {P : σ → Prop} (f : σ → α → β × σ) (s : σ)
    (v : Arr α n) (h0 : P s) (hs : ∀ i < n, ∀ st, P st → P (f st (v.nth i)).2) : ∀ i ≤ n, P (v.carry f s i) := by
  intro i
  induction i with
  | zero => intro _; simpa using h0
  | succ i ih =>
    intro hi
    rw [Arr.carry_succ f s v i (by omega)]
    exact hs i (by omega) _ (ih (by omega))

namespace Machine

/-- Every element of an array is finite. -/
abbrev ArrFinite {n : Nat} (v : Arr F32 n) : Prop := ∀ x ∈ v.elems, x.isFinite = true

theorem arrFinite_fill {n : Nat} {x : F32} (h : x.isFinite = true) : ArrFinite (fill n x) := by
  intro y hy
  rw [List.eq_of_mem_replicate hy]
  exact h

theorem arrFinite_tab {n : Nat} {f : Nat → F32} (h : ∀ i < n, (f i).isFinite = true) : ArrFinite (Arr.tab n f) :=
  (Arr.forall_elems_iff _).2 fun i hi => by rw [Arr.nth_tab _ _ _ hi]; exact h i hi

theorem arrFinite_settleVreal {inputs : List F32} (h : ∀ y ∈ inputs, y.isFinite = true) (v : Arr F32 512) :
    ArrFinite (settleVreal inputs v) :=
  (Arr.forall_elems_iff _).2 fun i hi => by rw [nth_settleVreal _ _ _ hi]; exact isFinite_settle h _ _

/-! ### The groups of registers

One structure per group of `State`, so that a command's proof speaks of the group that it changes. -/

structure VolumeOutputs.AreFinite (v : VolumeOutputs) : Prop where
  volumeSmoothed : v.volumeSmoothed.isFinite = true
  magnitudeScaled : v.magnitudeScaled.isFinite = true
  peakFrequency : v.peakFrequency.isFinite = true
  fftMagnitude : v.fftMagnitude.isFinite = true

structure EnvelopeState.AreFinite (v : EnvelopeState) : Prop where
  envRaw : v.envRaw.isFinite = true
  dcLevel : v.dcLevel.isFinite = true
  envSmooth : v.envSmooth.isFinite = true
  sampleMax : v.sampleMax.isFinite = true
  sampleRaw : v.sampleRaw.isFinite = true
  sampleAvg : v.sampleAvg.isFinite = true
  maxSample : v.maxSample.isFinite = true

structure AgcState.AreFinite (g : AgcState) : Prop where
  mult : g.mult.isFinite = true
  intErr : g.intErr.isFinite = true
  agcSample : g.agcSample.isFinite = true
  agcSmooth : g.agcSmooth.isFinite = true
  volTarget : g.volTarget.isFinite = true

structure BeatState.AreFinite (b : BeatState) : Prop where
  beatAvg : b.beatAvg.isFinite = true
  intervalEst : b.intervalEst.isFinite = true
  meanInterval : b.meanInterval.isFinite = true
  bpm : b.bpm.isFinite = true
  thresholdAvg : b.thresholdAvg.isFinite = true

structure ConditionerState.AreFinite (c : ConditionerState) : Prop where
  lastGood : c.lastGood.isFinite = true
  lpfPrev : c.lpfPrev.isFinite = true
  firH1 : c.firH1.isFinite = true
  firH2 : c.firH2.isFinite = true
  iirLp : c.iirLp.isFinite = true

structure ChannelArray.AreFinite (c : ChannelArray) : Prop where
  fftCalc : ArrFinite c.fftCalc
  fftAvg : ArrFinite c.fftAvg

structure SpectrumBuffers.AreFinite (b : SpectrumBuffers) : Prop where
  vreal : ArrFinite b.vreal
  vimag : ArrFinite b.vimag

/-- The registers of a state are finite, group by group. -/
structure State.AreFinite (s : State) : Prop where
  vol : s.vol.AreFinite
  env : s.env.AreFinite
  agc : s.agc.AreFinite
  beat : s.beat.AreFinite
  cond : s.cond.AreFinite
  chan : s.chan.AreFinite
  spec : s.spec.AreFinite

/-- The groups together are every f32 register and array element. -/
theorem State.allFinite_iff (s : State) : s.AllFinite ↔ s.AreFinite := by
  constructor
  · intro h
    have reg : ∀ {x : F32}, x ∈ s.floats → x.isFinite = true := fun hx => h _ hx
    simp only [State.floats, List.mem_append] at reg
    exact
      { vol := ⟨reg (by simp), reg (by simp), reg (by simp), reg (by simp)⟩
        env := ⟨reg (by simp), reg (by simp), reg (by simp), reg (by simp), reg (by simp), reg (by simp), reg (by simp)⟩
        agc := ⟨reg (by simp), reg (by simp), reg (by simp), reg (by simp), reg (by simp)⟩
        beat := ⟨reg (by simp), reg (by simp), reg (by simp), reg (by simp), reg (by simp)⟩
        cond := ⟨reg (by simp), reg (by simp), reg (by simp), reg (by simp), reg (by simp)⟩
        chan := ⟨fun _ hx => reg (by simp [hx]), fun _ hx => reg (by simp [hx])⟩
        spec := ⟨fun _ hx => reg (by simp [hx]), fun _ hx => reg (by simp [hx])⟩ }
  · rintro ⟨⟨_, _, _, _⟩, ⟨_, _, _, _, _, _, _⟩, ⟨_, _, _, _, _⟩, ⟨_, _, _, _, _⟩, ⟨_, _, _, _, _⟩, ⟨hcalc, havg⟩,
      ⟨hre, him⟩⟩
    simp only [State.AllFinite, State.floats, List.forall_mem_append, List.forall_mem_cons]
    refine ⟨⟨⟨⟨?_, hcalc⟩, havg⟩, hre⟩, him⟩
    simp [*]

theorem State.AreFinite.setStatus {s : State} (h : s.AreFinite) (v : BitVec 8) : (s.setStatus v).AreFinite :=
  { h with }

theorem State.areFinite_reset : State.reset.AreFinite where
  vol := by constructor <;> decide
  env := by constructor <;> decide
  agc := by constructor <;> decide
  beat := by constructor <;> decide
  cond := by constructor <;> decide
  chan := ⟨arrFinite_fill F32.isFinite_zero, arrFinite_fill F32.isFinite_zero⟩
  spec := ⟨arrFinite_fill F32.isFinite_zero, arrFinite_fill F32.isFinite_zero⟩

end Machine
end Sys2Proof
end

section
/-! ## Every command keeps a state finite
One lemma per command that changes an f32 register; O59 is assembled from them and from the laws of the special
values. -/

namespace Sys2Proof.Machine

theorem State.AreFinite.putFlag {s : State} (h : s.AreFinite) (b : StatusBit) (v : Bool) : (s.putFlag b v).AreFinite :=
  h.setStatus _

theorem State.AreFinite.raise {s : State} (h : s.AreFinite) (c : Condition) : (s.raise c).AreFinite := h.setStatus _

theorem State.AreFinite.ite {c : Prop} [Decidable c] {s t : State} (hs : s.AreFinite) (ht : t.AreFinite) :
    (if c then s else t).AreFinite :=
  iteInduction (motive := State.AreFinite) (fun _ => hs) fun _ => ht

theorem BeatState.AreFinite.ite {c : Prop} [Decidable c] {a b : BeatState} (ha : a.AreFinite) (hb : b.AreFinite) :
    (if c then a else b).AreFinite :=
  iteInduction (motive := BeatState.AreFinite) (fun _ => ha) fun _ => hb

theorem State.AreFinite.withIo {s : State} (h : s.AreFinite) (io : Io) : State.AreFinite { s with io := io } :=
  { h with }

theorem State.AreFinite.withRepair {s : State} (h : s.AreFinite) (ctl : Control) (lastGood : F32) (badRun : Word)
    {vreal : Arr F32 512} (hl : lastGood.isFinite = true) (hv : ArrFinite vreal) : State.AreFinite { s with
      ctl := ctl
      cond := { s.cond with lastGood := lastGood, badRun := badRun }
      spec := { s.spec with vreal := vreal } } :=
  { h with cond := { h.cond with lastGood := hl }, spec := { h.spec with vreal := hv } }

theorem State.AreFinite.withBeat {s : State} (h : s.AreFinite) {b : BeatState} (hb : b.AreFinite) :
    State.AreFinite { s with beat := b } :=
  { h with beat := hb }

theorem isFinite_of_mem_presetOf {p : Params} (hp : ParamsFinite p) (m : BitVec 2) :
    ∀ x ∈ Preset.floats (presetOf p m), x.isFinite = true := by
  intro x hx
  unfold presetOf at hx
  split at hx <;> exact hp.scalars x (by simp [Params.floats, hx])

theorem isFinite_f255 : Const.f255.isFinite = true := F32.isFinite_ofNat (by omega)

theorem isFinite_f1023 : Const.f1023.isFinite = true := F32.isFinite_ofNat (by omega)

theorem areFinite_performReset {s : State} : (performReset s).AreFinite := { State.areFinite_reset with }

/-! ### Sample conditioner -/

/-- R148: a sample's data field of at most 24 bits is converted exactly. -/
theorem isFinite_sampleSigned {p : Params} (hd : p.dataBits ≤ 24) (r : Word) : (sampleSigned p r).isFinite = true := by
  apply F32.isFinite_ofInt
  have hdata : sampleData p r < 2 ^ p.dataBits := Nat.mod_lt _ (Nat.two_pow_pos _)
  have hwidth : 2 ^ p.dataBits ≤ 2 ^ 24 := Nat.pow_le_pow_right (by omega) hd
  have hhalf : 2 ^ (p.dataBits - 1) ≤ 2 ^ 24 := Nat.pow_le_pow_right (by omega) (by omega)
  generalize 2 ^ (p.dataBits - 1) = half at hhalf ⊢
  omega

/-- A repaired sample is settled, a good one is converted; the last good sample is finite again. -/
theorem isFinite_repairSample {p : Params} (hp : ParamsFinite p) (hd : p.dataBits ≤ 24) (id : BitVec 8) {a : RepairAcc}
    (ha : a.lastGood.isFinite = true) (r : Word) :
    (repairSample p id a r).1.isFinite = true ∧ (repairSample p id a r).2.lastGood.isFinite = true := by
  unfold repairSample
  split
  · refine ⟨isFinite_settle ?_ _ _, ?_⟩
    · simp [ha, hp.scalars p.repairScale (by simp [Params.floats])]
    · exact iteInduction (motive := fun b : RepairAcc => b.lastGood.isFinite = true) (fun _ => ha) fun _ => ha
  · exact ⟨isFinite_sampleSigned hd r, isFinite_sampleSigned hd r⟩

theorem areFinite_performCondRepair {p : Params} (hp : ParamsFinite p) (hd : p.dataBits ≤ 24) {s : State}
    (h : s.AreFinite) : (performCondRepair p s).AreFinite := by
  have hcarry := Arr.carry_induct (P := fun a : RepairAcc => a.lastGood.isFinite = true) (repairSample p s.ctl.chanId)
    s.repairStart s.rawBlock h.cond.lastGood fun a r ha => (isFinite_repairSample hp hd s.ctl.chanId ha r).2
  have hout : ArrFinite (s.rawBlock.scanOut (repairSample p s.ctl.chanId) s.repairStart) :=
    (Arr.forall_elems_iff _).2 fun i hi => by
      rw [Arr.nth_scanOut _ _ _ _ hi]
      exact (isFinite_repairSample hp hd _ (hcarry i hi.le) _).1
  have hend : (s.rawBlock.scanEnd (repairSample p s.ctl.chanId) s.repairStart).lastGood.isFinite = true := by
    rw [Arr.scanEnd_eq_carry]; exact hcarry 512 le_rfl
  unfold performCondRepair
  split
  · exact h.raise _
  · unfold repairBlock
    exact .ite ((h.withRepair _ _ _ hend hout).raise _) (h.withRepair _ _ _ hend hout)

theorem areFinite_performCondNorm (p : Params) {s : State} (h : s.AreFinite) : (performCondNorm p s).AreFinite := by
  have hin : ∀ y ∈ s.normInputs, y.isFinite = true := List.forall_mem_cons.2 ⟨h.cond.lpfPrev, h.spec.vreal⟩
  exact { h with
    cond := { h.cond with lpfPrev := isFinite_settle hin _ _ }
    spec := { h.spec with vreal := arrFinite_settleVreal hin _ } }

/-- What the filter carries of its inputs is an input or what it started with (R160). -/
theorem isFinite_bpfHistory (p : Params) {s : State} (h : s.AreFinite) :
    (s.spec.vreal.scanEnd (bpfSample p) s.bpfStart).h1.isFinite = true ∧
      (s.spec.vreal.scanEnd (bpfSample p) s.bpfStart).h2.isFinite = true := by
  rw [Arr.scanEnd_eq_carry]
  refine Arr.carry_induct_nth (P := fun a : BpfAcc => a.h1.isFinite = true ∧ a.h2.isFinite = true) _ _ _
    ⟨h.cond.firH1, h.cond.firH2⟩ (fun i hi a ha => ⟨?_, ha.1⟩) 512 le_rfl
  exact (Arr.forall_elems_iff _).1 h.spec.vreal i hi

theorem areFinite_performCondBpf {p : Params} (hp : ParamsFinite p) {s : State} (h : s.AreFinite) :
    (performCondBpf p s).AreFinite := by
  unfold performCondBpf
  split
  · exact h
  · have hin : ∀ y ∈ s.bpfInputs p, y.isFinite = true := by
      refine List.forall_mem_append.2 ⟨?_, h.spec.vreal⟩
      have hb0 := hp.scalars p.bpfB0 (by simp [Params.floats])
      have hb1 := hp.scalars p.bpfB1 (by simp [Params.floats])
      have hb2 := hp.scalars p.bpfB2 (by simp [Params.floats])
      simp [h.cond.firH1, h.cond.firH2, h.cond.iirLp, hb0, hb1, hb2]
    obtain ⟨h1, h2⟩ := isFinite_bpfHistory p h
    exact { h with
      cond := { h.cond with firH1 := h1, firH2 := h2, iirLp := isFinite_settle hin _ _ }
      spec := { h.spec with vreal := arrFinite_settleVreal hin _ } }

/-- The greatest magnitude of finite samples is finite (R165). -/
theorem isFinite_foldl_maxSample (p : Params) :
    ∀ (l : List F32) (m : F32), (∀ x ∈ l, x.isFinite = true) → m.isFinite = true →
      (l.foldl (maxSample p) m).isFinite = true
  | [], _, _, hm => hm
  | v :: l, m, hl, hm => by
    obtain ⟨hv, hl⟩ := List.forall_mem_cons.1 hl
    refine isFinite_foldl_maxSample p l _ hl ?_
    unfold maxSample
    split
    · rw [F32.isFinite_fabs]; exact hv
    · exact hm

theorem areFinite_performCondMax (p : Params) {s : State} (h : s.AreFinite) : (performCondMax p s).AreFinite :=
  { h with env := { h.env with maxSample := isFinite_foldl_maxSample p _ _ h.spec.vreal F32.isFinite_zero } }

/-! ### Envelope, gain control, limiter -/

theorem isFinite_of_mem_envInputs {p : Params} (hp : ParamsFinite p) (c : ConfigRegs) {mult : F32}
    (hm : mult.isFinite = true) {v : EnvelopeState} (h : v.AreFinite) :
    ∀ y ∈ envInputs p c mult v, y.isFinite = true := by
  have preset := isFinite_of_mem_presetOf hp c.agcMode
  have hstop := preset (presetOf p c.agcMode).zoneStop (by simp [Preset.floats])
  have hdecay := preset (presetOf p c.agcMode).decay (by simp [Preset.floats])
  have hdiv := hp.scalars p.dcFastDiv (by simp [Params.floats])
  simp [envInputs, h.maxSample, h.dcLevel, h.envSmooth, h.sampleMax, h.sampleAvg, hm, hstop, hdecay, hdiv]

theorem areFinite_performEnvSample {p : Params} (hp : ParamsFinite p) {s : State} (h : s.AreFinite) :
    (performEnvSample p s).AreFinite := by
  have settled := isFinite_settle (isFinite_of_mem_envInputs hp s.cfg h.agc.mult h.env)
  have settled_fabs : ∀ a x, (settle (envInputs p s.cfg s.agc.mult s.env) a x).fabs.isFinite = true := fun a x =>
    (F32.isFinite_fabs _).trans (settled a x)
  exact { h with
    env := { h.env with
      dcLevel := settled _ _
      envRaw := settled_fabs _ _
      envSmooth := settled_fabs _ _
      sampleRaw := F32.isFinite_clamp _ F32.isFinite_zero isFinite_f255
      sampleMax := settled _ _
      sampleAvg := settled_fabs _ _ } }

theorem areFinite_presetChange (m : BitVec 2) {g : AgcState} (h : g.AreFinite) : (presetChange m g).AreFinite := by
  unfold presetChange
  split
  · exact { h with intErr := F32.isFinite_zero }
  · exact h

theorem isFinite_of_mem_agcInputs {p : Params} (hp : ParamsFinite p) (c : ConfigRegs) {v : EnvelopeState}
    (hv : v.AreFinite) {g : AgcState} (hg : g.AreFinite) : ∀ y ∈ agcInputs p c v g, y.isFinite = true := by
  refine List.forall_mem_append.2 ⟨?_, isFinite_of_mem_presetOf hp c.agcMode⟩
  have henv := hp.scalars p.agcSilEnv (by simp [Params.floats])
  have hpeak := hp.scalars p.agcSilPeak (by simp [Params.floats])
  simp [hv.envSmooth, hv.sampleMax, hg.mult, hg.intErr, hg.agcSmooth, henv, hpeak]

theorem isFinite_clampMult (v : F32) : (clampMult v).isFinite = true :=
  F32.isFinite_clamp v (by decide +kernel) (F32.isFinite_ofNat (by omega))

theorem areFinite_agcControl {p : Params} (c : ConfigRegs) (v : EnvelopeState) (dt : Nat) {g : AgcState}
    (hin : ∀ y ∈ agcInputs p c v g, y.isFinite = true) (h : g.AreFinite) : (agcControl p c v dt g).AreFinite := by
  unfold agcControl
  split
  · exact { h with intErr := isFinite_settle hin _ _, mult := isFinite_clampMult _ }
  · exact { h with }

theorem areFinite_agcOutputs {p : Params} (c : ConfigRegs) (v : EnvelopeState) {inputs : List F32} {g : AgcState}
    (hin : ∀ y ∈ inputs, y.isFinite = true) (h : g.AreFinite) : (agcOutputs p c v inputs g).AreFinite :=
  have smooth : ∀ x, (settle inputs 0x150 x).fabs.isFinite = true := fun x =>
    (F32.isFinite_fabs _).trans (isFinite_settle hin _ x)
  { h with
    agcSample := F32.isFinite_clamp _ F32.isFinite_zero isFinite_f255
    agcSmooth := smooth _
    volTarget := smooth _ }

theorem areFinite_performAgcTick {p : Params} (hp : ParamsFinite p) (dt : Nat) {s : State} (h : s.AreFinite) :
    (performAgcTick p dt s).AreFinite := by
  have hg := areFinite_presetChange s.cfg.agcMode h.agc
  have hin := isFinite_of_mem_agcInputs hp s.cfg h.env hg
  unfold performAgcTick
  split
  · exact { h with agc := { hg with volTarget := h.env.sampleAvg }, vol := { h.vol with } }
  · exact { h with
      agc := areFinite_agcOutputs _ _ hin (areFinite_agcControl _ _ dt hin hg), vol := { h.vol with } }

theorem areFinite_performLimit {p : Params} (hp : F32.zero.lt p.limBigChange = true) (dt : Nat) {s : State}
    (h : s.AreFinite) : (performLimit p dt s).AreFinite :=
  { h with vol := { h.vol with
      volumeSmoothed := isFinite_limited hp s.cfg dt h.agc.volTarget h.vol.volumeSmoothed } }

/-! ### FFT engine -/

theorem isFinite_of_mem_fftInputs {p : Params} (hp : ParamsFinite p) {v : Arr F32 512} (hv : ArrFinite v) :
    ∀ y ∈ fftInputs p v, y.isFinite = true := by
  unfold fftInputs
  simp only [List.forall_mem_append, List.cons_append, List.forall_mem_cons]
  refine ⟨hp.scalars _ (by simp [Params.floats]), ⟨hv, ?_⟩, ?_⟩
  · intro y hy
    obtain ⟨n, hn, rfl⟩ := List.mem_map.1 hy
    exact hp.window n (List.mem_range.1 hn)
  · split
    next hfin =>
      intro y hy
      obtain ⟨k, hk, hy⟩ := List.mem_flatMap.1 hy
      have hk512 : k < 512 := (List.mem_range.1 hk).trans (by decide)
      obtain ⟨hre, him⟩ := hp.fft _ (List.all_eq_true.1 hfin) k hk512
      rcases List.mem_pair.1 hy with rfl | rfl
      · exact hre
      · exact him
    next => exact fun y hy => absurd hy List.not_mem_nil

theorem areFinite_publishSpectrum {p : Params} {inputs : List F32} (hin : ∀ y ∈ inputs, y.isFinite = true)
    (v : Arr F32 512) (mag : F32) {freq : F32} (hf : freq.isFinite = true) (gate : Bool) {s : State} (h : s.AreFinite) :
    (publishSpectrum p inputs v mag freq gate s).AreFinite := by
  apply State.AreFinite.putFlag
  exact { h with
    spec := ⟨arrFinite_settleVreal hin _, arrFinite_fill F32.isFinite_zero⟩
    vol := { h.vol with
      fftMagnitude := isFinite_settle hin _ _
      peakFrequency := hf
      magnitudeScaled := isFinite_settle hin _ _ } }

theorem isFinite_binFrequency {p : Params} (hp : ParamsFinite p) (k : Nat) : (binFrequency p k).isFinite = true :=
  F32.isFinite_clamp _ F32.isFinite_one (F32.isFinite_div_two (hp.scalars _ (by simp [Params.floats])))

theorem areFinite_performFftRun {p : Params} (hp : ParamsFinite p) {s : State} (h : s.AreFinite) :
    (performFftRun p s).AreFinite := by
  unfold performFftRun
  split
  · exact areFinite_publishSpectrum (isFinite_of_mem_fftInputs hp h.spec.vreal) _ _ (isFinite_binFrequency hp _) _
      (h.withIo _)
  · have hskip := hp.scalars p.skipMag (by simp [Params.floats])
    have hscale := hp.scalars p.fftDownscale (by simp [Params.floats])
    exact areFinite_publishSpectrum (by simp [hskip, hscale]) _ _ F32.isFinite_one _ h

/-! ### Aggregator and beat tracker -/

theorem isFinite_channelDecay (p : Params) {old : F32} (h : old.isFinite = true) :
    (channelDecay p old).isFinite = true := by
  unfold channelDecay
  split
  · exact F32.isFinite_zero
  · exact F32.isFinite_mul_of_le_one h (by decide +kernel) (by decide +kernel)

theorem arrFinite_channelsNext (p : Params) {s : State} (h : s.AreFinite) : ArrFinite (channelsNext p s) := by
  unfold channelsNext
  split
  · exact arrFinite_tab fun _ _ => F32.isFinite_clamp _ F32.isFinite_zero isFinite_f1023
  · exact (Arr.forall_elems_iff _).2 fun i hi => by
      rw [Arr.nth_map _ _ _ hi]
      exact isFinite_channelDecay p ((Arr.forall_elems_iff _).1 h.chan.fftCalc i hi)

theorem areFinite_performAgg16 (p : Params) {s : State} (h : s.AreFinite) : (performAgg16 p s).AreFinite := by
  apply State.AreFinite.putFlag
  exact { h with chan := {
    fftCalc := arrFinite_channelsNext p h
    fftAvg := arrFinite_tab fun _ _ => F32.isFinite_clamp _ F32.isFinite_zero isFinite_f1023 } }

theorem areFinite_beatAccepted {p : Params} {inputs : List F32} (hin : ∀ y ∈ inputs, y.isFinite = true) {b : BeatState}
    (h : b.AreFinite) (el : Nat) : (beatAccepted p inputs b el).AreFinite :=
  { h with
    meanInterval := isFinite_settle hin _ _
    bpm := isFinite_settle hin _ _
    intervalEst := isFinite_settle hin _ _ }

theorem areFinite_performBeatTrack {p : Params} (hp : ParamsFinite p) {s : State} (h : s.AreFinite) :
    (performBeatTrack p s).AreFinite := by
  have hratio := hp.scalars p.beatRatio (by simp [Params.floats])
  have hfrac := hp.scalars p.beatEstFrac (by simp [Params.floats])
  have hin : ∀ y ∈ beatInputs p s.beat, y.isFinite = true := by
    simp [beatInputs, h.beat.beatAvg, h.beat.intervalEst, h.beat.meanInterval, hratio, hfrac]
  have havg : ∀ (avg thr : F32) (last : Word), BeatState.AreFinite { s.beat with
      beatAvg := settle (beatInputs p s.beat) 0x170 avg
      thresholdAvg := settle (beatInputs p s.beat) 0x184 thr
      lastBeatMs := last } := fun _ _ _ =>
    { h.beat with beatAvg := isFinite_settle hin _ _, thresholdAvg := isFinite_settle hin _ _ }
  apply State.AreFinite.putFlag
  apply h.withBeat
  apply BeatState.AreFinite.ite
  · exact areFinite_beatAccepted hin (.ite (havg _ _ _) (havg _ _ _)) _
  · exact .ite (havg _ _ _) (havg _ _ _)

/-! ### All commands -/

/-- R305: every command keeps a finite state finite. -/
theorem areFinite_performWith {p : Params} (hd : p.dataBits ≤ 24) (hl : F32.zero.lt p.limBigChange = true)
    (hp : ParamsFinite p) (i : Instr) {s : State} (h : s.AreFinite) : (performWith p i s).AreFinite := by
  cases i with
  | nop => exact h
  | cycleBegin => exact h.putFlag _ _
  | reset => exact areFinite_performReset
  | condRepair => exact areFinite_performCondRepair hp hd h
  | condNorm => exact areFinite_performCondNorm p h
  | condBpf => exact areFinite_performCondBpf hp h
  | condMax => exact areFinite_performCondMax p h
  | envSample => exact areFinite_performEnvSample hp h
  | agcTick dt => exact areFinite_performAgcTick hp dt h
  | limit dt => exact areFinite_performLimit hl dt h
  | fftRun => exact areFinite_performFftRun hp h
  | agg16 => exact areFinite_performAgg16 p h
  | scale16 => exact { h with chan := { h.chan with } }
  | binner8 => exact { h with }
  | binner16 => exact { h with }
  | binner32 => exact { h with }
  | binner64 => exact { h with }
  | binner128 => exact { h with }
  | peakDetect => exact .ite { h with } h
  | peakReset => exact .ite { h with } h
  | beatTrack => exact areFinite_performBeatTrack hp h

/-- What `settle` leaves, case by case (R305, log entry 22). -/
theorem settle_spec (inputs : List F32) (a : Nat) (x : F32) :
    if x.isFinite = true ∨ ∃ y ∈ inputs, y.isFinite = false then settle inputs a x = x
    else (settle inputs a x).isFinite = true ∧ (x.isInf = true → (settle inputs a x).sign = x.sign) := by
  rcases settle_cases inputs a x with ⟨hc, heq⟩ | ⟨⟨hx, hin⟩, hsettled⟩
  · rw [if_pos hc]; exact heq
  · rw [if_neg]
    · exact hsettled
    · rintro (hf | ⟨y, hy, hf⟩)
      · simp [hx] at hf
      · simp [hin y hy] at hf

/-- Settles O59: finite states stay finite, what `settle` leaves, and the special values in turn. -/
theorem specialValuesFollowTheRule : Obligations.SpecialValuesFollowTheRule := by
  unfold Obligations.SpecialValuesFollowTheRule
  refine ⟨exec_eq_command, fun p i s hd hl hp h => ?_, settle_spec, fun _ _ => F32.nan_propagates,
    fun _ _ => F32.fmax_fmin_of_isNaN, fun _ _ _ => F32.clamp_of_isNaN, fun x hx => ?_, fun x hx => ?_,
    fun _ => F32.trunc_spec, fun _ _ => F32.inf_with_finite, fun _ _ => F32.inf_with_inf, fun _ _ => F32.div_zero_spec,
    fun _ => F32.sqrt_of_sign, by decide⟩
  · exact (State.allFinite_iff _).2 (areFinite_performWith hd hl hp i ((State.allFinite_iff s).1 h))
  · exact ⟨F32.trunc_of_not_finite (F32.isFinite_eq_false_of_isNaN hx), (F32.isNaN_fabs x).trans hx,
      by rw [F32.sqrt, if_pos hx]; rfl⟩
  · exact hx.elim F32.trunc_of_sign F32.trunc_of_ge

end Sys2Proof.Machine
end

section
/-! ## What a command changes of the control registers
The registers and bytes that belong to the host (R43 to R46, R56), and the bits of `STATUS` (R307): one fact for each
command, and from them one for `exec`. -/

namespace Sys2Proof.Machine

/-! ### The host's side of the state -/

/-- `t` holds what the host wrote as `s` does; `CHAN_SEL.KNOWN` may have been cleared (R45, R152). -/
structure KeepsHostSide (s t : State) : Prop where
  cfg : t.cfg = s.cfg
  nowMs : t.ctl.nowMs = s.ctl.nowMs
  blockCount : t.ctl.blockCount = s.ctl.blockCount
  chanId : t.ctl.chanId = s.ctl.chanId
  chanKnown : t.ctl.chanKnown = true → s.ctl.chanKnown = true
  mem : t.mem = s.mem
  bus : t.io.bus = s.io.bus
  readData : t.io.readData = s.io.readData

theorem KeepsHostSide.refl (s : State) : KeepsHostSide s s := ⟨rfl, rfl, rfl, rfl, id, rfl, rfl, rfl⟩

theorem KeepsHostSide.raise {s t : State} (h : KeepsHostSide s t) (c : Condition) : KeepsHostSide s (t.raise c) :=
  { h with }

theorem KeepsHostSide.setPhase {s t : State} (h : KeepsHostSide s t) (ph : BitVec 4) :
    KeepsHostSide s (t.setPhase ph) :=
  { h with }

theorem KeepsHostSide.ite {c : Prop} [Decidable c] {s t u : State} (ht : KeepsHostSide s t) (hu : KeepsHostSide s u) :
    KeepsHostSide s (if c then t else u) :=
  iteInduction (motive := KeepsHostSide s) (fun _ => ht) fun _ => hu

/-- The repair loop only ever clears `KNOWN` (R152). -/
theorem known_of_known_scanEnd (p : Params) (s : State) :
    (s.rawBlock.scanEnd (repairSample p s.ctl.chanId) s.repairStart).known = true → s.ctl.chanKnown = true := by
  rw [Arr.scanEnd_eq_carry]
  refine Arr.carry_induct (P := fun a : RepairAcc => a.known = true → s.ctl.chanKnown = true) _ _ _ id
    (fun a r ha => ?_) 512 le_rfl
  unfold repairSample
  split_ifs
  · exact nofun
  · exact ha
  · exact ha

/-- What `COND_REPAIR` writes on a block that is not short. -/
theorem KeepsHostSide.withRepair (s : State) {known : Bool} (h : known = true → s.ctl.chanKnown = true)
    (cond : ConditionerState) (spec : SpectrumBuffers) :
    KeepsHostSide s { s with ctl := { s.ctl with chanKnown := known }, cond := cond, spec := spec } :=
  { refl s with chanKnown := h }

theorem KeepsHostSide.withFreeCount {s t : State} (h : KeepsHostSide s t) (n : Nat) :
    KeepsHostSide s { t with io := { t.io with freeCount := n } } :=
  { h with }

theorem KeepsHostSide.publishSpectrum {s t : State} (h : KeepsHostSide s t) (p : Params) (inputs : List F32)
    (v : Arr F32 512) (mag freq : F32) (gate : Bool) :
    KeepsHostSide s (publishSpectrum p inputs v mag freq gate t) :=
  { h with }

theorem keepsHostSide_performCondRepair (p : Params) (s : State) : KeepsHostSide s (performCondRepair p s) := by
  have hknown := known_of_known_scanEnd p s
  unfold performCondRepair
  split
  · exact (KeepsHostSide.refl s).raise _
  · unfold repairBlock
    exact .ite ((KeepsHostSide.withRepair s hknown _ _).raise _) (.withRepair s hknown _ _)

/-- No command writes what belongs to the host, whatever the parameters (R43 to R46, R56, R81). -/
theorem keepsHostSide_performWith (p : Params) (i : Instr) (s : State) : KeepsHostSide s (performWith p i s) := by
  have same := KeepsHostSide.refl s
  cases i with
  | condRepair => exact keepsHostSide_performCondRepair p s
  | condBpf => exact .ite same { same with }
  | agcTick dt => exact .ite { same with } { same with }
  | fftRun => exact .ite ((same.withFreeCount _).publishSpectrum ..) (same.publishSpectrum ..)
  | peakDetect => exact .ite { same with } same
  | peakReset => exact .ite { same with } same
  | _ => exact { same with }

theorem keepsHostSide_exec {i : Instr} {s t : State} (h : exec i s = .next t) : KeepsHostSide s t := by
  rcases exec_next h with ⟨-, -, rfl⟩ | ⟨-, -, rfl⟩ | ⟨-, -, rfl⟩
  · exact .refl _
  · exact (keepsHostSide_performWith _ _ _).setPhase _
  · exact (KeepsHostSide.refl _).raise _

/-- Settles O9: every command keeps the host's side of the state. -/
theorem commandsKeepHostRegisters : Obligations.CommandsKeepHostRegisters := by
  intro i s t h
  obtain ⟨hcfg, hnow, hcount, hid, hknown, hmem, hbus, hread⟩ := keepsHostSide_exec h
  exact ⟨hcfg, hnow, hcount, hid, hknown, fun a => by rw [hmem], hbus, hread⟩

/-! ### The bits of `STATUS` -/

/-- R307: the command `i` may change the bit `b`, leaving it at `v`. -/
inductive ChangesFlag : Instr → StatusBit → Bool → Prop where
  | reset (b : StatusBit) : ChangesFlag .reset b false
  | cycleBegin : ChangesFlag .cycleBegin .abort false
  | abort : ChangesFlag .condRepair .abort true
  | shortRead : ChangesFlag .condRepair .shortRead true
  | repairOff : ChangesFlag .condRepair .repairOff true
  | gateFft (v : Bool) : ChangesFlag .fftRun .gateFft v
  | gateAgg (v : Bool) : ChangesFlag .agg16 .gateAgg v
  | beatAccept (v : Bool) : ChangesFlag .beatTrack .beatAccept v
  | seqErr {i : Instr} (hnop : i ≠ .nop) (hbegin : i ≠ .cycleBegin) (hreset : i ≠ .reset) : ChangesFlag i .seqErr true

theorem State.flag_of_status {s t : State} (h : t.ctl.status = s.ctl.status) (b : StatusBit) : t.flag b = s.flag b :=
  congrArg (·.getLsbD b.index) h

/-- Every bit of `STATUS` that differs between `s` and `t` is one that `i` may change so. -/
def FlagsFollow (i : Instr) (s t : State) : Prop :=
  ∀ b : StatusBit, t.flag b = s.flag b ∨ ChangesFlag i b (t.flag b)

theorem FlagsFollow.of_status {i : Instr} {s t : State} (h : t.ctl.status = s.ctl.status) : FlagsFollow i s t :=
  fun b => .inl (State.flag_of_status h b)

theorem FlagsFollow.ite {i : Instr} {c : Prop} [Decidable c] {s t u : State} (ht : FlagsFollow i s t)
    (hu : FlagsFollow i s u) : FlagsFollow i s (if c then t else u) :=
  iteInduction (motive := FlagsFollow i s) (fun _ => ht) fun _ => hu

theorem FlagsFollow.putFlag {i : Instr} {b : StatusBit} {v : Bool} (hi : ChangesFlag i b v) {s t : State}
    (h : t.ctl.status = s.ctl.status) : FlagsFollow i s (t.putFlag b v) := by
  intro c
  rw [State.flag_putFlag]
  split_ifs with hc
  · subst hc; exact .inr hi
  · exact .inl (State.flag_of_status h c)

/-- The bits that each condition sets (R301 to R304). -/
theorem Condition.getLsbD_bits (c : Condition) (b : StatusBit) : c.bits.getLsbD b.index = true ↔
    (c, b) ∈ [(.illegalCommand, .illegal), (.sequenceError, .seqErr), (.transportShortRead, .shortRead),
      (.transportShortRead, .abort), (Condition.channelCorruption, StatusBit.repairOff)] := by
  cases c <;> cases b <;> decide

theorem FlagsFollow.raise {i : Instr} {c : Condition} (hi : ∀ b, c.bits.getLsbD b.index = true → ChangesFlag i b true)
    {s t : State} (h : t.ctl.status = s.ctl.status) : FlagsFollow i s (t.raise c) := by
  intro b
  rw [State.flag_raise]
  cases hb : c.bits.getLsbD b.index
  · rw [Bool.or_false]; exact .inl (State.flag_of_status h b)
  · rw [Bool.or_true]; exact .inr (hi b hb)

theorem flagsFollow_performCondRepair (p : Params) (s : State) : FlagsFollow .condRepair s (performCondRepair p s) := by
  have hshort : ∀ b, Condition.transportShortRead.bits.getLsbD b.index = true → ChangesFlag .condRepair b true := by
    intro b hb
    rw [Condition.getLsbD_bits] at hb
    obtain rfl | rfl : b = .shortRead ∨ b = .abort := by simpa using hb
    · exact .shortRead
    · exact .abort
  have hcorrupt : ∀ b, Condition.channelCorruption.bits.getLsbD b.index = true → ChangesFlag .condRepair b true := by
    intro b hb
    rw [Condition.getLsbD_bits] at hb
    obtain rfl : b = .repairOff := by simpa using hb
    exact .repairOff
  unfold performCondRepair
  split
  · exact .raise hshort rfl
  · unfold repairBlock
    exact .ite (.raise hcorrupt rfl) (.of_status rfl)

/-- R132: `RESET` clears every bit of `STATUS`. -/
@[simp] theorem flag_performReset (s : State) (b : StatusBit) : (performReset s).flag b = false := BitVec.getLsbD_zero

theorem flagsFollow_performReset (s : State) : FlagsFollow .reset s (performReset s) := by
  intro b
  rw [flag_performReset]
  exact .inr (.reset b)

theorem flagsFollow_performWith (p : Params) (i : Instr) (s : State) : FlagsFollow i s (performWith p i s) := by
  cases i with
  | cycleBegin => exact .putFlag .cycleBegin rfl
  | reset => exact flagsFollow_performReset s
  | condRepair => exact flagsFollow_performCondRepair p s
  | condBpf => exact .ite (.of_status rfl) (.of_status rfl)
  | agcTick dt => exact .ite (.of_status rfl) (.of_status rfl)
  | fftRun => exact .ite (.putFlag (.gateFft _) rfl) (.putFlag (.gateFft _) rfl)
  | agg16 => exact .putFlag (.gateAgg _) rfl
  | peakDetect => exact .ite (.of_status rfl) (.of_status rfl)
  | peakReset => exact .ite (.of_status rfl) (.of_status rfl)
  | beatTrack => exact .putFlag (.beatAccept _) rfl
  | _ => exact .of_status rfl

/-- A control command is never out of phase (R134). -/
theorem changesFlag_seqErr_of_outOfPhase {i : Instr} {ph : BitVec 4} (h : phaseOk i ph = false) :
    ChangesFlag i .seqErr true := by
  refine .seqErr ?_ ?_ ?_ <;> rintro rfl <;> exact absurd h nofun

theorem flagsFollow_exec {i : Instr} {s t : State} (h : exec i s = .next t) : FlagsFollow i s t := by
  rcases exec_next h with ⟨-, -, rfl⟩ | ⟨-, -, rfl⟩ | ⟨-, hphase, rfl⟩
  · exact .of_status rfl
  · exact flagsFollow_performWith _ _ _
  · refine .raise (fun b hb => ?_) rfl
    rw [Condition.getLsbD_bits] at hb
    obtain rfl : b = .seqErr := by simpa using hb
    exact changesFlag_seqErr_of_outOfPhase hphase

/-- Settles O10: a bit that differs is changed by one of R307's commands. -/
theorem commandsChangeOnlyTheirStatusBits : Obligations.CommandsChangeOnlyTheirStatusBits := by
  intro i s t h
  have changed : ∀ {b v}, t.flag b = v → v ≠ s.flag b → ChangesFlag i b v := by
    rintro b v rfl hne
    exact (flagsFollow_exec h b).resolve_left hne
  refine ⟨?_, ?_, ?_, ?_, ?_, ?_, ?_, ?_⟩
  -- The constructors of `ChangesFlag` for a bit are the commands in that bit's columns of R307.
  all_goals
    intro hne
    generalize ht : t.flag _ = v at hne ⊢
    cases changed ht hne
  all_goals simp [*]

end Sys2Proof.Machine
end

section
/-! ## The invariant
What one step keeps is what a command, an illegal word, a host write and power-on keep.  A command's part of `Inv` is
`RegInv`, the clauses on the registers and arrays that commands compute; `exec` adds the phase and the abort bit. -/

namespace Sys2Proof

/-- A product with a positive factor of at most 1 has the other factor's sign and no greater magnitude bits. -/
theorem F32.mul_factor {a b : F32} (ha : a.isFinite = true) (hb : b.magBits ≤ 0x3F800000) (hb0 : b.magBits ≠ 0)
    (hbs : b.sign = false) : (a.mul b).sign = a.sign ∧ (a.mul b).magBits ≤ a.magBits := by
  have hbf : b.isFinite = true := (F32.isFinite_iff b).2 (by omega)
  obtain ⟨-, -, hle⟩ := F32.le_iff.1 (F32.fabs_mul_le (F32.isNaN_eq_false_of_isFinite ha) hb hb0)
  constructor
  · rw [F32.sign_mul ha hbf, hbs, Bool.bne_false]
  · simpa [F32.ord] using hle

/-- Such a product lies between 0 and the other factor. -/
theorem F32.ord_mul_factor {a b : F32} (ha : a.isFinite = true) (hb : b.magBits ≤ 0x3F800000) (hb0 : b.magBits ≠ 0)
    (hbs : b.sign = false) :
    (0 ≤ a.ord → 0 ≤ (a.mul b).ord ∧ (a.mul b).ord ≤ a.ord) ∧
      (a.ord ≤ 0 → a.ord ≤ (a.mul b).ord ∧ (a.mul b).ord ≤ 0) := by
  obtain ⟨hsign, hmag⟩ := F32.mul_factor ha hb hb0 hbs
  simp only [F32.ord, hsign]
  split <;> omega

namespace Machine

theorem within_iff {lo hi x : F32} : within lo hi x = true ↔ lo.le x = true ∧ x.le hi = true := Bool.and_eq_true_iff

/-- Whatever is clamped is within the bounds (R18). -/
theorem within_clamp (v : F32) {lo hi : F32} (h : lo.le hi = true) : within lo hi (v.clamp lo hi) = true :=
  within_iff.2 (F32.clamp_within v h)

theorem isFinite_of_within {lo hi x : F32} (hlo : lo.isFinite = true) (hhi : hi.isFinite = true)
    (h : within lo hi x = true) : x.isFinite = true :=
  have ⟨h1, h2⟩ := within_iff.1 h
  F32.isFinite_of_le_of_le hlo hhi h1 h2

/-! ### The registers that commands compute -/

/-- The clauses of `Inv` on registers and arrays that commands compute. -/
structure RegInv (s : State) : Prop where
  badRun : s.cond.badRun.toNat ≤ 255
  mult : within Const.multMin Const.multMax s.agc.mult = true
  agcSample : within Const.f0 Const.f255 s.agc.agcSample = true
  sampleRaw : within Const.f0 Const.f255 s.env.sampleRaw = true
  agcElapsed : s.agc.agcElapsed.toNat < 2
  fftCalc : ∀ c < 16, within Const.f0 Const.f1023 (s.chan.fftCalc.nth c) = true
  fftAvg : ∀ c < 16, within Const.f0 Const.f1023 (s.chan.fftAvg.nth c) = true
  maxSample : s.env.maxSample.sign = false
  envRaw : s.env.envRaw.sign = false
  envSmooth : s.env.envSmooth.sign = false
  sampleAvg : s.env.sampleAvg.sign = false
  agcSmooth : s.agc.agcSmooth.sign = false
  vimag : ∀ i < 512, s.spec.vimag.nth i = F32.zero

theorem Inv.regInv {s : State} (h : Inv s) : RegInv s := { h with }

theorem RegInv.raise {s : State} (h : RegInv s) (c : Condition) : RegInv (s.raise c) := { h with }

theorem RegInv.putFlag {s : State} (h : RegInv s) (b : StatusBit) (v : Bool) : RegInv (s.putFlag b v) := { h with }

theorem RegInv.setPhase {s : State} (h : RegInv s) (ph : BitVec 4) : RegInv (s.setPhase ph) := { h with }

theorem RegInv.ite {c : Prop} [Decidable c] {s t : State} (hs : RegInv s) (ht : RegInv t) :
    RegInv (if c then s else t) :=
  iteInduction (motive := RegInv) (fun _ => hs) fun _ => ht

theorem f0_le_f255 : Const.f0.le Const.f255 = true := by decide +kernel

theorem f0_le_f1023 : Const.f0.le Const.f1023 = true := by decide +kernel

theorem multMin_le_multMax : Const.multMin.le Const.multMax = true := by decide +kernel

theorem RegInv.reset : RegInv State.reset where
  badRun := by decide
  mult := by decide +kernel
  agcSample := by decide +kernel
  sampleRaw := by decide +kernel
  agcElapsed := by decide
  fftCalc c hc := by
    have h0 : State.reset.chan.fftCalc.nth c = resetF0 := nth_fill 16 resetF0 c hc
    rw [h0]; decide +kernel
  fftAvg c hc := by
    have h0 : State.reset.chan.fftAvg.nth c = resetF0 := nth_fill 16 resetF0 c hc
    rw [h0]; decide +kernel
  maxSample := by decide
  envRaw := by decide
  envSmooth := by decide
  sampleAvg := by decide
  agcSmooth := by decide
  vimag i hi := nth_fill 512 resetF0 i hi

/-! ### Conditioner -/

/-- A run of bad samples is reset where it would reach 256 (R53, R152). -/
theorem badRun_repairSample (p : Params) (id : BitVec 8) {a : RepairAcc} (h : a.badRun.toNat ≤ 255) (r : Word) :
    (repairSample p id a r).2.badRun.toNat ≤ 255 := by
  unfold repairSample
  split_ifs with hbad hlimit
  · exact Nat.zero_le _
  · have hne : (a.badRun + 1#32).toNat ≠ 256 := fun h256 => hlimit (BitVec.eq_of_toNat_eq h256)
    change (a.badRun + 1#32).toNat ≤ 255
    rw [BitVec.toNat_add] at hne ⊢
    have : (1#32).toNat = 1 := rfl
    omega
  · exact Nat.zero_le _

theorem RegInv.withRepair {s : State} (h : RegInv s) (ctl : Control) (lastGood : F32) {badRun : Word}
    (hb : badRun.toNat ≤ 255) (vreal : Arr F32 512) : RegInv { s with
      ctl := ctl
      cond := { s.cond with lastGood := lastGood, badRun := badRun }
      spec := { s.spec with vreal := vreal } } :=
  { h with badRun := hb }

theorem regInv_performCondRepair (p : Params) {s : State} (h : RegInv s) : RegInv (performCondRepair p s) := by
  have hend : (s.rawBlock.scanEnd (repairSample p s.ctl.chanId) s.repairStart).badRun.toNat ≤ 255 := by
    rw [Arr.scanEnd_eq_carry]
    exact Arr.carry_induct (P := fun a : RepairAcc => a.badRun.toNat ≤ 255) _ _ _ h.badRun
      (fun a r ha => badRun_repairSample p _ ha r) 512 le_rfl
  unfold performCondRepair
  split
  · exact h.raise _
  · unfold repairBlock
    exact .ite ((h.withRepair _ _ hend _).raise _) (h.withRepair _ _ hend _)

/-- R165: the greatest magnitude has no sign. -/
theorem sign_foldl_maxSample (p : Params) (l : List F32) {m : F32} (hm : m.sign = false) :
    (l.foldl (maxSample p) m).sign = false := by
  induction l generalizing m with
  | nil => exact hm
  | cons v l ih =>
    refine ih ?_
    unfold maxSample
    split
    · exact F32.sign_fabs v
    · exact hm

/-! ### Envelope and gain control -/

theorem regInv_performEnvSample (p : Params) {s : State} (h : RegInv s) : RegInv (performEnvSample p s) :=
  { h with
    sampleRaw := within_clamp _ f0_le_f255
    envRaw := F32.sign_fabs _
    envSmooth := F32.sign_fabs _
    sampleAvg := F32.sign_fabs _ }

theorem RegInv.withVolumeRaw {s : State} (h : RegInv s) (v : BitVec 8) :
    RegInv { s with vol := { s.vol with volumeRaw := v } } :=
  { h with }

theorem RegInv.withPresetChange {s : State} (h : RegInv s) (m : BitVec 2) :
    RegInv { s with agc := presetChange m s.agc } := by
  unfold presetChange
  split
  · exact { h with }
  · exact h

/-- R190, R192: a tick leaves less than 2 ms over, and the multiplier in its bounds. -/
theorem RegInv.withAgcControl {s : State} (h : RegInv s) (p : Params) (c : ConfigRegs) (v : EnvelopeState) (dt : Nat) :
    RegInv { s with agc := agcControl p c v dt s.agc } := by
  unfold agcControl
  split_ifs with hdue
  · exact { h with agcElapsed := Nat.zero_lt_two, mult := within_clamp _ multMin_le_multMax }
  · refine { h with agcElapsed := ?_ }
    have hlt : agcAccumulate s.agc.agcElapsed dt < 2 := Nat.lt_of_not_le hdue
    exact (Nat.mod_le _ _).trans_lt hlt

theorem RegInv.withAgcOutputs {s : State} (h : RegInv s) (p : Params) (c : ConfigRegs) (v : EnvelopeState)
    (inputs : List F32) : RegInv { s with agc := agcOutputs p c v inputs s.agc } :=
  { h with agcSample := within_clamp _ f0_le_f255, agcSmooth := F32.sign_fabs _ }

theorem regInv_performAgcTick (p : Params) (dt : Nat) {s : State} (h : RegInv s) : RegInv (performAgcTick p dt s) := by
  have hpreset := h.withPresetChange s.cfg.agcMode
  unfold performAgcTick
  split
  · exact { hpreset with }
  · exact (((hpreset.withAgcControl p s.cfg s.env dt).withAgcOutputs p s.cfg s.env _).withVolumeRaw _)

/-! ### FFT engine and aggregator -/

theorem RegInv.withIo {s : State} (h : RegInv s) (io : Io) : RegInv { s with io := io } := { h with }

theorem RegInv.publishSpectrum {s : State} (h : RegInv s) (p : Params) (inputs : List F32) (v : Arr F32 512)
    (mag freq : F32) (gate : Bool) : RegInv (publishSpectrum p inputs v mag freq gate s) :=
  { h with vimag := fun i hi => nth_fill 512 Const.f0 i hi }

theorem RegInv.withChannels {s : State} (h : RegInv s) {raw avg : Arr F32 16}
    (hc : ∀ c < 16, within Const.f0 Const.f1023 (raw.nth c) = true)
    (ha : ∀ c < 16, within Const.f0 Const.f1023 (avg.nth c) = true) (result : Arr Byte 16) :
    RegInv { s with chan := { fftCalc := raw, fftAvg := avg, fftResult := result } } :=
  { h with fftCalc := hc, fftAvg := ha }

theorem RegInv.withBeat {s : State} (h : RegInv s) (b : BeatState) : RegInv { s with beat := b } := { h with }

/-- R54, R243: a decayed channel stays in [0, 1023]. -/
theorem within_channelDecay (p : Params) {old : F32} (h : within Const.f0 Const.f1023 old = true) :
    within Const.f0 Const.f1023 (channelDecay p old) = true := by
  unfold channelDecay
  split
  · exact within_iff.2 ⟨F32.le_refl (by decide), f0_le_f1023⟩
  · have hfin : old.isFinite = true := isFinite_of_within F32.isFinite_zero isFinite_f1023 h
    have hdecay : Const.chDecay.magBits ≤ 0x3F800000 := by decide +kernel
    have hdecay0 : Const.chDecay.magBits ≠ 0 := by decide +kernel
    have hprod : (old.mul Const.chDecay).isNaN = false :=
      F32.isNaN_eq_false_of_isFinite (F32.isFinite_mul_of_le_one hfin hdecay hdecay0)
    obtain ⟨hlo, hhi⟩ := within_iff.1 h
    obtain ⟨h0n, -, hlo⟩ := F32.le_iff.1 hlo
    obtain ⟨-, h1023n, hhi⟩ := F32.le_iff.1 hhi
    obtain ⟨hpos, hle⟩ := (F32.ord_mul_factor hfin hdecay hdecay0 (by decide +kernel)).1 hlo
    exact within_iff.2 ⟨F32.le_iff.2 ⟨h0n, hprod, hpos⟩, F32.le_iff.2 ⟨hprod, h1023n, hle.trans hhi⟩⟩

theorem within_channelsNext (p : Params) {s : State} (h : RegInv s) (c : Nat) (hc : c < 16) :
    within Const.f0 Const.f1023 ((channelsNext p s).nth c) = true := by
  unfold channelsNext
  split
  · rw [Arr.nth_tab _ _ _ hc]; exact within_clamp _ f0_le_f1023
  · rw [Arr.nth_map _ _ _ hc]; exact within_channelDecay p (h.fftCalc c hc)

theorem regInv_performAgg16 (p : Params) {s : State} (h : RegInv s) : RegInv (performAgg16 p s) := by
  refine (h.withChannels (within_channelsNext p h) (fun c hc => ?_) _).putFlag _ _
  rw [Arr.nth_tab _ _ _ hc]
  exact within_clamp _ f0_le_f1023

/-! ### All commands -/

theorem regInv_performWith (p : Params) (i : Instr) {s : State} (h : RegInv s) : RegInv (performWith p i s) := by
  cases i with
  | reset => exact { RegInv.reset with }
  | cycleBegin => exact h.putFlag _ _
  | condRepair => exact regInv_performCondRepair p h
  | condBpf => exact .ite h { h with }
  | condMax => exact { h with maxSample := sign_foldl_maxSample p _ rfl }
  | envSample => exact regInv_performEnvSample p h
  | agcTick dt => exact regInv_performAgcTick p dt h
  | fftRun => exact .ite ((h.withIo _).publishSpectrum ..) (h.publishSpectrum ..)
  | agg16 => exact regInv_performAgg16 p h
  | peakDetect => exact .ite { h with } h
  | peakReset => exact .ite { h with } h
  | beatTrack => exact (h.withBeat _).putFlag _ _
  | _ => exact { h with }

/-- R134: the phase after `COND_REPAIR`. -/
theorem phaseNext_condRepair (s : State) : phaseNext .condRepair s = if s.shortBlock then 0#4 else 2#4 := rfl

/-- R42: every command leaves one of R134's phases. -/
theorem phaseNext_le (i : Instr) {s : State} (h : s.ctl.phase.toNat ≤ 8) : (phaseNext i s).toNat ≤ 8 := by
  cases i with
  | condRepair => rw [phaseNext_condRepair]; split <;> decide
  | cycleBegin | reset | condNorm | condBpf | condMax | fftRun | agg16 | scale16 => simp [phaseNext]
  | _ => exact h

/-- A condition other than a short read leaves `ABORT` as it is (R301 to R304). -/
theorem flag_abort_raise (s : State) {c : Condition} (hc : c ≠ .transportShortRead) :
    (s.raise c).flag .abort = s.flag .abort := by
  have hbit : c.bits.getLsbD StatusBit.abort.index = false := by
    rw [Bool.eq_false_iff, Ne, Condition.getLsbD_bits]
    simpa using hc
  rw [State.flag_raise, hbit, Bool.or_false]

theorem flag_abort_ite_raise {s t : State} (h : t.ctl.status = s.ctl.status) {c : Condition}
    (hc : c ≠ .transportShortRead) {b : Prop} [Decidable b] :
    (if b then t.raise c else t).flag .abort = s.flag .abort := by
  split
  · exact (flag_abort_raise t hc).trans (State.flag_of_status h _)
  · exact State.flag_of_status h _

/-- Only a short block aborts (R150). -/
theorem flag_abort_repairBlock (p : Params) (s : State) : (repairBlock p s).flag .abort = s.flag .abort := by
  unfold repairBlock
  dsimp only
  apply flag_abort_ite_raise
  · rfl
  · decide

/-- R303: a command that performs and leaves `ABORT` set leaves phase 0: it is `COND_REPAIR` on a short block, or `NOP`
in an aborted cycle. -/
theorem phaseNext_of_abort {p : Params} {i : Instr} {s : State}
    (hrun : s.flag .abort = false ∨ runsWhileAborted i = true)
    (hinv : s.flag .abort = true → s.ctl.phase = 0#4) (h : (performWith p i s).flag .abort = true) :
    phaseNext i s = 0#4 := by
  cases i with
  | nop => exact hinv h
  | reset => rfl
  | cycleBegin =>
    have hclear : (performCycleBegin s).flag .abort = false := by rw [performCycleBegin, State.flag_putFlag, if_pos rfl]
    exact absurd (hclear.symm.trans h) nofun
  | condRepair =>
    rw [phaseNext_condRepair]
    by_cases hshort : s.shortBlock = true
    · rw [if_pos hshort]
    · rw [performWith, performCondRepair, if_neg hshort, flag_abort_repairBlock, hrun.resolve_right nofun] at h
      exact absurd h nofun
  | _ =>
    rcases flagsFollow_performWith p _ s .abort with hsame | hchange
    · rw [hsame, hrun.resolve_right nofun] at h
      exact absurd h nofun
    · rw [h] at hchange
      exact absurd hchange nofun

/-- A command keeps the invariant (R120). -/
theorem inv_exec {i : Instr} {s t : State} (h : Inv s) (he : exec i s = .next t) : Inv t := by
  rcases exec_next he with ⟨-, -, rfl⟩ | ⟨hrun, -, rfl⟩ | ⟨-, -, rfl⟩
  · exact h
  · have hmem : (performOf i s).mem = s.mem := (keepsHostSide_performWith _ i s).mem
    exact { (regInv_performWith Config.params i h.regInv).setPhase (phaseNext i s) with
      memWf := (congrArg Memory.wf hmem).trans h.memWf
      memRaw := (congrArg Memory.inRawIn hmem).trans h.memRaw
      phase := phaseNext_le i h.phase
      aborted := phaseNext_of_abort hrun h.aborted }
  · exact { h.regInv.raise _ with
      memWf := h.memWf
      memRaw := h.memRaw
      phase := h.phase
      aborted := fun ha => h.aborted ((flag_abort_raise s (by decide)).symm.trans ha) }

/-! ### One step -/

/-- What host-side updates, commands, conditions and power-on keep, a step keeps: `P` says nothing of the model's own
`io`. -/
theorem step_keeps {P : State → Prop} (hio : ∀ (s : State) (io : Io), P s → P { s with io := io })
    (hexec : ∀ {i s t}, P s → exec i s = .next t → P t) (hillegal : ∀ s, P s → P (s.raise .illegalCommand))
    (hwrite : ∀ (s : State) (a : Nat) (v : Word), P s → P (s.writeLoc (locOf a) v)) (hreset : P State.reset)
    {s t : State} (h : P s) (hstep : step s = .next t) : P t := by
  rcases step_next hstep with ⟨-, rfl⟩ | ⟨op, rest, -, s₀, rfl, hop⟩
  · exact h
  have h₀ := hio s { s.io with bus := rest } h
  rcases hop with ⟨a, -, -, rfl⟩ | ⟨w, i, -, -, he⟩ | ⟨w, e, -, -, rfl⟩ | ⟨a, v, -, -, -, rfl⟩ | ⟨-, rfl⟩
  · exact hio _ _ h₀
  · exact hexec h₀ he
  · exact hillegal _ h₀
  · exact hwrite _ _ _ h₀
  · exact hio _ _ hreset

theorem inv_reset : Inv State.reset :=
  { RegInv.reset with memWf := rfl, memRaw := rfl, phase := Nat.zero_le _, aborted := fun _ => rfl }

/-- A host write changes no register that a command computes (R73). -/
theorem regInv_writeLoc {s : State} (h : RegInv s) (l : Loc) (v : Word) : RegInv (s.writeLoc l v) := by
  constructor <;> simp only [State.writeLoc_cond, State.writeLoc_agc, State.writeLoc_env, State.writeLoc_chan,
    State.writeLoc_spec]
  exacts [h.badRun, h.mult, h.agcSample, h.sampleRaw, h.agcElapsed, h.fftCalc, h.fftAvg, h.maxSample, h.envRaw,
    h.envSmooth, h.sampleAvg, h.agcSmooth, h.vimag]

/-- A host write keeps the storage in its canonical form, with nothing but `RAW_IN` listed (R56, R73). -/
theorem storage_writeLoc {s : State} (h : Inv s) (a : Nat) (v : Word) :
    Memory.wf (s.writeLoc (locOf a) v).mem = true ∧ Memory.inRawIn (s.writeLoc (locOf a) v).mem = true := by
  rcases State.writeLoc_mem s (locOf a) v with hmem | ⟨i, hloc, hmem⟩
  · rw [hmem]; exact ⟨h.memWf, h.memRaw⟩
  · rw [hmem]
    exact ⟨Memory.writeWord_wf h.memWf _ _, Memory.inRawIn_writeWord h.memRaw _ (locOf_rawIn hloc).1⟩

theorem inv_writeLoc {s : State} (h : Inv s) (a : Nat) (v : Word) : Inv (s.writeLoc (locOf a) v) :=
  { regInv_writeLoc h.regInv (locOf a) v with
    memWf := (storage_writeLoc h a v).1
    memRaw := (storage_writeLoc h a v).2
    phase := by rw [State.writeLoc_phase]; exact h.phase
    aborted := by rw [State.writeLoc_abort, State.writeLoc_phase]; exact h.aborted }

theorem inv_illegalCommand {s : State} (h : Inv s) : Inv (s.raise .illegalCommand) :=
  { h with aborted := fun ha => h.aborted ((flag_abort_raise s (by decide)).symm.trans ha) }

/-- Settles O51: an access of the host, a command or power-on keeps the invariant. -/
theorem stepKeepsTheInvariant : Obligations.StepKeepsTheInvariant := fun _ _ =>
  step_keeps (fun _ _ h => { h with }) inv_exec (fun _ => inv_illegalCommand) (fun _ a v h => inv_writeLoc h a v)
    inv_reset

end Machine
end Sys2Proof
end

section
/-! ## The beat tracker's bounds
The mean interval moves towards an interval in the window by a product with a factor below 1, so that it stays in the
window: the difference of two values of the window is exact, and rounding a sum keeps representable bounds. -/

namespace Sys2Proof

/-! ### Exact differences -/

/-- Twice a representable magnitude is representable. -/
theorem exists_magUnits_double (m : Nat) : ∃ m', magUnits m' = 2 * magUnits m := by
  obtain ⟨k, q, rfl, hk, hq⟩ := exists_significand m
  rw [magUnits_of_significand hk hq.le]
  rcases Nat.lt_or_ge q (2 ^ 23) with hlow | hhigh
  · obtain rfl : k = 0 := by omega
    refine ⟨0 * 2 ^ 23 + 2 * q, ?_⟩
    rw [magUnits_of_significand (.inl rfl) (by omega)]
    ring
  · refine ⟨(k + 1) * 2 ^ 23 + q, ?_⟩
    rw [magUnits_of_significand (.inr hhigh) hq.le]
    ring

/-- A significand of 24 bits at any spacing is representable. -/
theorem exists_magUnits_mul_two_pow {n : Nat} (hn : n < 2 ^ 24) (k : Nat) : ∃ m, magUnits m = n * 2 ^ k := by
  induction k with
  | zero =>
    refine ⟨0 * 2 ^ 23 + n, ?_⟩
    rw [magUnits_of_significand (.inl rfl) hn.le]
  | succ k ih =>
    obtain ⟨m, hm⟩ := ih
    obtain ⟨m', hm'⟩ := exists_magUnits_double m
    exact ⟨m', by rw [hm', hm]; ring⟩

/-- The spacing of a magnitude from 2^(k+23) units on is a multiple of 2^k. -/
theorem two_pow_dvd_magUnits {m k : Nat} (h : 2 ^ (k + 23) ≤ magUnits m) : 2 ^ k ∣ magUnits m := by
  obtain ⟨k', q, rfl, hk, hq⟩ := exists_significand m
  rw [magUnits_of_significand hk hq.le] at h ⊢
  have hlt : 2 ^ (k + 23) < 2 ^ (24 + k') := by
    rw [Nat.pow_add 2 24]
    exact h.trans_lt (Nat.mul_lt_mul_of_pos_right hq (Nat.two_pow_pos k'))
  have hle : k ≤ k' := by
    have := (Nat.pow_lt_pow_iff_right Nat.one_lt_two).1 hlt
    omega
  exact (Nat.pow_dvd_pow 2 hle).mul_left q

/-- A representable value is rounded to itself. -/
theorem F32.Rounds.value_eq {z : Int} {r : F32} (h : r.Rounds z 1) {x : F32} (hx : x.isFinite = true)
    (hv : x.value = z) : r.isFinite = true ∧ r.value = z := by
  have hfin : r.isFinite = true := by
    have hmax : magUnits 0x7F7FFFFF = (2 ^ 24 - 1) * 2 ^ 253 := by decide +kernel
    have hle : magUnits x.magBits ≤ magUnits 0x7F7FFFFF :=
      magUnits_strictMono.monotone (Nat.le_of_lt_succ ((F32.isFinite_iff x).1 hx))
    rw [h.isFinite_iff, ← hv, F32.natAbs_value, F32.scaled_eq]
    omega
  have hdist := (h.nearest hfin x hx).1
  simp only [F32.dist, Nat.cast_one, Int.mul_one] at hdist
  exact ⟨hfin, by omega⟩

/-- The difference of two values at a common spacing that has at most 24 bits at it is exact. -/
theorem F32.sub_exact {a b : F32} (ha : a.isFinite = true) (hb : b.isFinite = true) {k : Nat}
    (hk : k ≤ 253) (hda : 2 ^ k ∣ a.scaled) (hdb : 2 ^ k ∣ b.scaled)
    (hlt : (a.value - b.value).natAbs < 2 ^ 24 * 2 ^ k) :
    (a.sub b).isFinite = true ∧ (a.sub b).value = a.value - b.value := by
  have hdvd : 2 ^ k ∣ (a.value - b.value).natAbs := by
    rw [← Int.natCast_dvd]
    refine dvd_sub ?_ ?_ <;> rw [Int.natCast_dvd, F32.natAbs_value] <;> assumption
  obtain ⟨n, hn⟩ := hdvd
  rw [Nat.mul_comm] at hn
  rw [hn] at hlt
  have hn24 : n < 2 ^ 24 := Nat.lt_of_mul_lt_mul_right hlt
  obtain ⟨m, hm⟩ := exists_magUnits_mul_two_pow hn24 k
  have hmlt : m < 0x7F800000 := by
    rw [← magUnits_strictMono.lt_iff_lt, hm, show magUnits 0x7F800000 = 2 ^ 24 * 2 ^ 253 by decide +kernel]
    exact hlt.trans_le (Nat.mul_le_mul_left _ (Nat.pow_le_pow_right Nat.two_pos hk))
  have hr : (a.sub b).Rounds (a.value - b.value) 1 := by
    have := F32.rounds_add ha (b := b.neg) (by simpa using hb)
    rwa [F32.value_neg, ← Int.sub_eq_add_neg] at this
  refine hr.value_eq (x := F32.ofMag (decide (a.value - b.value < 0)) m) ?_ ?_
  · rw [F32.isFinite_iff, F32.magBits_ofMag _ (by omega)]; exact hmlt
  · rw [F32.value_ofMag _ (by omega), hm, ← hn]
    simp only [decide_eq_true_eq]
    split <;> omega

/-! ### Moving towards a value -/

/-- The sign of a value is that of its place in the order. -/
theorem F32.ord_nonneg_iff (x : F32) : 0 ≤ x.ord ↔ 0 ≤ x.value := by
  simpa using F32.ord_le_iff_value_le F32.zero x

theorem F32.ord_nonpos_iff (x : F32) : x.ord ≤ 0 ↔ x.value ≤ 0 := by
  simpa using F32.ord_le_iff_value_le x F32.zero

namespace Machine

/-- A value that moves towards another by a fraction of their exact difference stays within bounds of both. -/
theorem within_add_mul_sub {lo hi w x y : F32} (hlo : lo.isFinite = true) (hhi : hi.isFinite = true)
    (hw : w.magBits ≤ 0x3F800000) (hw0 : w.magBits ≠ 0) (hws : w.sign = false) (hx : within lo hi x = true)
    (hy : within lo hi y = true) (hdf : (y.sub x).isFinite = true) (hd : (y.sub x).value = y.value - x.value) :
    within lo hi (x.add (w.mul (y.sub x))) = true := by
  have hxf := isFinite_of_within hlo hhi hx
  have hyf := isFinite_of_within hlo hhi hy
  obtain ⟨hlx, hxh⟩ := within_iff.1 hx
  obtain ⟨hly, hyh⟩ := within_iff.1 hy
  rw [F32.le_eq_decide_value hlo ‹_›, decide_eq_true_eq] at hlx hly
  rw [F32.le_eq_decide_value ‹_› hhi, decide_eq_true_eq] at hxh hyh
  rw [F32.mul_comm]
  have hpf : ((y.sub x).mul w).isFinite = true := F32.isFinite_mul_of_le_one hdf hw hw0
  obtain ⟨hup, hdown⟩ := F32.ord_mul_factor hdf hw hw0 hws
  simp only [F32.ord_nonneg_iff, F32.ord_nonpos_iff, F32.ord_le_iff_value_le, hd] at hup hdown
  rw [within_iff]
  exact ⟨F32.le_add hxf hpf hlo (by omega), F32.add_le hxf hpf hhi (by omega)⟩

end Machine

/-! ### Quotients and truncation within bounds -/

theorem F32.lt_of_lt_of_le {a b c : F32} (h1 : a.lt b = true) (h2 : b.le c = true) : a.lt c = true := by
  obtain ⟨ha, -, hab⟩ := F32.lt_iff.1 h1
  obtain ⟨-, hc, hbc⟩ := F32.le_iff.1 h2
  exact F32.lt_iff.2 ⟨ha, hc, by omega⟩

/-- A value above zero over a greater divisor is not greater. -/
theorem F32.div_le_div {a b c : F32} (ha : a.isFinite = true) (has : a.sign = false) (hb : F32.zero.lt b = true)
    (hc : c.isFinite = true) (hbc : b.le c = true) : (a.div c).le (a.div b) = true := by
  have hbf : b.isFinite = true := F32.isFinite_of_le_of_le F32.isFinite_zero hc (F32.le_of_lt hb) hbc
  obtain ⟨-, hbs, hb0⟩ := F32.zero_lt_iff.1 hb
  obtain ⟨-, hcs, hc0⟩ := F32.zero_lt_iff.1 (F32.lt_of_lt_of_le hb hbc)
  have hscaled : b.scaled ≤ c.scaled := by
    rw [F32.le_eq_decide_value hbf hc, decide_eq_true_eq, F32.value, F32.value, hbs, hcs] at hbc
    simpa using hbc
  have hpos : ∀ {x : F32}, x.isZero = false → 0 < x.scaled := fun {x} h0 => by
    rw [F32.scaled_eq, ← magUnits_zero]
    exact magUnits_strictMono (Nat.pos_of_ne_zero fun h => by simp [F32.isZero, h] at h0)
  have hle := roundMag_mono (n := a.scaled * 2 ^ 149) (n' := a.scaled * 2 ^ 149) (hpos hc0) (hpos hb0)
    (Nat.mul_le_mul_left _ hscaled)
  have hlt := roundMag_le_inf (a.scaled * 2 ^ 149) b.scaled
  refine F32.le_iff.2 ⟨(F32.rounds_div ha hc hc0).notNaN, (F32.rounds_div ha hbf hb0).notNaN, ?_⟩
  rw [F32.div_of_finite ha hc hc0, F32.div_of_finite ha hbf hb0, F32.signXor, F32.signXor, has, hbs, hcs, F32.ord,
    F32.ord, F32.sign_ofMag _ (by omega), F32.sign_ofMag _ (by omega), F32.magBits_ofMag _ (by omega),
    F32.magBits_ofMag _ (by omega)]
  exact Int.ofNat_le.2 hle

namespace Machine

/-- Bounds that are integers, in units of 2^-149. -/
theorem within_ofNat_iff {lo hi : Nat} (hlo : lo ≤ 2 ^ 24) (hhi : hi ≤ 2 ^ 24) {x : F32} :
    within (F32.ofNat lo) (F32.ofNat hi) x = true ↔
      x.isFinite = true ∧ (lo : Int) * 2 ^ 149 ≤ x.value ∧ x.value ≤ (hi : Int) * 2 ^ 149 := by
  have hlof := F32.isFinite_ofNat hlo
  have hhif := F32.isFinite_ofNat hhi
  have hvalue (hf : x.isFinite = true) : within (F32.ofNat lo) (F32.ofNat hi) x = true ↔
      (lo : Int) * 2 ^ 149 ≤ x.value ∧ x.value ≤ (hi : Int) * 2 ^ 149 := by
    rw [within_iff, F32.le_eq_decide_value hlof hf, F32.le_eq_decide_value hf hhif, decide_eq_true_eq,
      decide_eq_true_eq, F32.value_ofNat hlo, F32.value_ofNat hhi]
  constructor
  · intro h
    have hf := isFinite_of_within hlof hhif h
    exact ⟨hf, (hvalue hf).1 h⟩
  · exact fun ⟨hf, h⟩ => (hvalue hf).2 h

/-- A value between two integers is truncated to an integer between them. -/
theorem trunc_within {lo hi : Nat} {x : F32} (hlo0 : 0 < lo) (hlo : lo ≤ 2 ^ 24) (hhi : hi ≤ 2 ^ 24)
    (h : within (F32.ofNat lo) (F32.ofNat hi) x = true) : lo ≤ x.trunc ∧ x.trunc ≤ hi := by
  obtain ⟨hf, hlox, hxhi⟩ := (within_ofNat_iff hlo hhi).1 h
  have hs : x.sign = false := by
    by_contra hne
    rw [F32.value, if_pos (by simpa using hne)] at hlox
    omega
  have hval : x.value = x.scaled := by rw [F32.value, hs]; rfl
  rw [hval] at hlox hxhi
  rw [F32.trunc, hf, hs, if_pos (by simp; omega)]
  omega

/-! ### The beat tracker -/

/-- The bounds of `BeatInv`, of the registers themselves. -/
structure BeatState.InBounds (b : BeatState) : Prop where
  meanInterval : within (F32.ofNat 426) (F32.ofNat 600) b.meanInterval = true
  bpm : within (F32.ofNat 100) ((F32.ofNat 60000).div (F32.ofNat 426)) b.bpm = true
  animDuration : 426 ≤ b.animDurationMs.toNat ∧ b.animDurationMs.toNat ≤ 600

/-- What `BeatInv` says of the group of registers. -/
def BeatState.BoundedIfValid (b : BeatState) : Prop := b.beatValid = true → b.InBounds

theorem BeatState.BoundedIfValid.ite {c : Prop} [Decidable c] {a b : BeatState} (ha : a.BoundedIfValid)
    (hb : b.BoundedIfValid) : (if c then a else b).BoundedIfValid :=
  iteInduction (motive := BeatState.BoundedIfValid) (fun _ => ha) fun _ => hb

theorem BeatState.BoundedIfValid.withAverages {b : BeatState} (h : b.BoundedIfValid) (avg threshold : F32)
    (last : Word) :
    BeatState.BoundedIfValid { b with beatAvg := avg, thresholdAvg := threshold, lastBeatMs := last } := fun hv =>
  { h hv with }

theorem beatInv_iff (s : State) : BeatInv s ↔ s.beat.BoundedIfValid :=
  ⟨fun h hv => ⟨h.meanInterval hv, h.bpm hv, h.animDuration hv⟩,
    fun h => ⟨fun hv => (h hv).meanInterval, fun hv => (h hv).bpm, fun hv => (h hv).animDuration⟩⟩

theorem BeatInv.of_beat {s t : State} (h : BeatInv s) (hbeat : t.beat = s.beat) : BeatInv t := by
  rw [beatInv_iff] at *
  rwa [hbeat]

theorem BeatInv.ite {c : Prop} [Decidable c] {s t : State} (hs : BeatInv s) (ht : BeatInv t) :
    BeatInv (if c then s else t) :=
  iteInduction (motive := BeatInv) (fun _ => hs) fun _ => ht

/-- The values of the window are multiples of 2^134 units. -/
theorem two_pow_dvd_of_within_window {x : F32} (h : within (F32.ofNat 426) (F32.ofNat 600) x = true) :
    2 ^ 134 ∣ x.scaled := by
  obtain ⟨-, hlo, -⟩ := (within_ofNat_iff (by omega) (by omega)).1 h
  refine two_pow_dvd_magUnits ?_
  rw [← F32.scaled_eq, ← F32.natAbs_value]
  omega

theorem within_ofNat_of_plausible {el : Nat} (h : beatPlausible el = true) :
    within (F32.ofNat 426) (F32.ofNat 600) (F32.ofNat el) = true := by
  obtain ⟨hlo, hhi⟩ : 426 ≤ el ∧ el ≤ 600 := of_decide_eq_true h
  refine (within_ofNat_iff (by omega) (by omega)).2 ⟨F32.isFinite_ofNat (by omega), ?_⟩
  rw [F32.value_ofNat (by omega)]
  omega

/-- R288: the mean of intervals in the window is in the window. -/
theorem within_beatMeanNext {b : BeatState} (h : b.BoundedIfValid) {el : Nat} (hel : beatPlausible el = true) :
    within (F32.ofNat 426) (F32.ofNat 600) (beatMeanNext b el) = true := by
  have hnew := within_ofNat_of_plausible hel
  unfold beatMeanNext
  split
  next hvalid =>
    have hold := (h hvalid).meanInterval
    obtain ⟨hnewf, hnewlo, hnewhi⟩ := (within_ofNat_iff (by omega) (by omega)).1 hnew
    obtain ⟨holdf, holdlo, holdhi⟩ := (within_ofNat_iff (by omega) (by omega)).1 hold
    obtain ⟨hdf, hd⟩ := F32.sub_exact hnewf holdf (by omega) (two_pow_dvd_of_within_window hnew)
      (two_pow_dvd_of_within_window hold) (by omega)
    exact within_add_mul_sub (F32.isFinite_ofNat (by omega)) (F32.isFinite_ofNat (by omega)) (by decide +kernel)
      (by decide +kernel) (by decide +kernel) hold hnew hdf hd
  next => exact hnew

/-- R288: the rate of a mean interval in the window. -/
theorem within_bpm {mean : F32} (h : within (F32.ofNat 426) (F32.ofNat 600) mean = true) :
    within (F32.ofNat 100) ((F32.ofNat 60000).div (F32.ofNat 426)) (Const.f60000.div mean) = true := by
  obtain ⟨hfin, -, -⟩ := (within_ofNat_iff (by omega) (by omega)).1 h
  obtain ⟨hlo, hhi⟩ := within_iff.1 h
  have hnum : (F32.ofNat 60000).isFinite = true := F32.isFinite_ofNat (by omega)
  have hlo0 : F32.zero.lt (F32.ofNat 426) = true := F32.zero_lt_ofNat (by omega) (by omega)
  have hend : (F32.ofNat 60000).div (F32.ofNat 600) = F32.ofNat 100 := by decide +kernel
  refine within_iff.2 ⟨?_, F32.div_le_div hnum (F32.sign_ofNat _) hlo0 hfin hlo⟩
  rw [← hend]
  exact F32.div_le_div hnum (F32.sign_ofNat _) (F32.lt_of_lt_of_le hlo0 hlo) (F32.isFinite_ofNat (by omega)) hhi

/-- R285, R288: an accepted interval leaves the registers in their bounds; being in bounds they are finite, so that
`settle` leaves them as they are. -/
theorem inBounds_beatAccepted (p : Params) (inputs : List F32) {b : BeatState} (h : b.BoundedIfValid)
    {el : Nat} (hel : beatPlausible el = true) : (beatAccepted p inputs b el).InBounds := by
  have hmean := within_beatMeanNext h hel
  have hbpm := within_bpm hmean
  obtain ⟨hmeanf, -, -⟩ := (within_ofNat_iff (by omega) (by omega)).1 hmean
  have hbpmf := isFinite_of_within (F32.isFinite_ofNat (by omega)) (by decide +kernel) hbpm
  have htrunc := trunc_within (by omega) (by omega) (by omega) hmean
  simp only [beatAccepted, settle_of_isFinite hmeanf, settle_of_isFinite hbpmf]
  refine ⟨hmean, hbpm, ?_⟩
  simp only [BitVec.toNat_ofNat]
  omega

theorem beatInv_performBeatTrack (p : Params) {s : State} (h : BeatInv s) : BeatInv (performBeatTrack p s) := by
  rw [beatInv_iff] at *
  have hkept : ∀ (cand : Bool) (avg threshold : F32), BeatState.BoundedIfValid
      (if cand then { s.beat with beatAvg := avg, thresholdAvg := threshold, lastBeatMs := s.ctl.nowMs }
        else { s.beat with beatAvg := avg, thresholdAvg := threshold }) := fun _ _ _ =>
    .ite (h.withAverages _ _ _) (h.withAverages _ _ _)
  refine iteInduction (motive := BeatState.BoundedIfValid) (fun haccept => ?_) fun _ => hkept _ _ _
  obtain ⟨-, hplausible⟩ := Bool.and_eq_true_iff.1 haccept
  exact fun _ => inBounds_beatAccepted p _ (hkept _ _ _) hplausible

theorem beatInv_performCondRepair (p : Params) {s : State} (h : BeatInv s) : BeatInv (performCondRepair p s) := by
  unfold performCondRepair
  split
  · exact h.of_beat rfl
  · unfold repairBlock
    exact .ite (h.of_beat rfl) (h.of_beat rfl)

theorem beatInv_reset : BeatInv State.reset := (beatInv_iff _).2 nofun

/-- Only `BEAT_TRACK` computes the bounded registers, and `RESET` leaves no interval accepted. -/
theorem beatInv_performWith (p : Params) (i : Instr) {s : State} (h : BeatInv s) : BeatInv (performWith p i s) := by
  cases i with
  | reset => exact beatInv_reset.of_beat rfl
  | condRepair => exact beatInv_performCondRepair p h
  | condBpf => exact .ite h (h.of_beat rfl)
  | agcTick dt => exact .ite (h.of_beat rfl) (h.of_beat rfl)
  | fftRun => exact .ite (h.of_beat rfl) (h.of_beat rfl)
  | peakDetect => exact .ite (h.of_beat rfl) h
  | peakReset => exact .ite (h.of_beat rfl) h
  | beatTrack => exact beatInv_performBeatTrack p h
  | _ => exact h.of_beat rfl

theorem beatInv_exec {i : Instr} {s t : State} (h : BeatInv s) (he : exec i s = .next t) : BeatInv t := by
  rcases exec_next he with ⟨-, -, rfl⟩ | ⟨-, -, rfl⟩ | ⟨-, -, rfl⟩
  · exact h
  · exact (beatInv_performWith _ i h).of_beat rfl
  · exact h.of_beat rfl

/-- Settles O52: commands keep the bounds, and no other access changes the bounded registers but power-on. -/
theorem stepKeepsTheBeatBounds : Obligations.StepKeepsTheBeatBounds := fun _ _ =>
  step_keeps (fun _ _ h => h.of_beat rfl) beatInv_exec (fun _ h => h.of_beat rfl)
    (fun _ _ _ h => h.of_beat (State.writeLoc_beat ..)) beatInv_reset

end Machine
end Sys2Proof
end

section
/-! ## Accesses of the host
What one step does with a command and with a write, said once; the obligations on single registers are uses of it and
of the register map. -/

namespace Sys2Proof

/-! ### Decoded commands have an encoding -/

theorem decodePlain_ok {w : Word} {i j : Instr} (h : decodePlain w i = .ok j) : j = i := by
  unfold decodePlain at h
  split_ifs at h
  exact (Except.ok.inj h).symm

theorem decodeTimed_ok {w : Word} {f : Nat → Instr} {j : Instr} (h : decodeTimed w f = .ok j) :
    ∃ dt < 65536, j = f dt := by
  unfold decodeTimed at h
  split_ifs at h
  exact ⟨_, (immField w).isLt, (Except.ok.inj h).symm⟩

theorem decodeBinner_ok {w : Word} {j : Instr} (h : decodeBinner w = .ok j) :
    j ∈ [Instr.binner8, .binner16, .binner32, .binner64, .binner128] := by
  unfold decodeBinner at h
  split_ifs at h
  split at h
  case h_6 => exact absurd h nofun
  all_goals obtain rfl := Except.ok.inj h; decide

/-- R100, R106: the decoder answers only commands that have an encoding. -/
theorem wellFormed_of_decode {w : Word} {i : Instr} (h : decode w = .ok i) : WellFormed i = true := by
  unfold decode at h
  split at h
  case h_9 | h_10 =>
    obtain ⟨dt, hdt, rfl⟩ := decodeTimed_ok h
    exact decide_eq_true hdt
  case h_14 =>
    have hall : ∀ j ∈ [Instr.binner8, .binner16, .binner32, .binner64, .binner128], WellFormed j = true := by decide
    exact hall i (decodeBinner_ok h)
  case h_18 => exact absurd h nofun
  all_goals rw [decodePlain_ok h]; rfl

namespace Machine

/-! ### One step with an access pending -/

/-- The state without the access that is performed next. -/
def State.withBus (s : State) (rest : List HostOp) : State := { s with io := { s.io with bus := rest } }

theorem step_of_bus {s : State} {op : HostOp} {rest : List HostOp} (h : s.io.bus = op :: rest) :
    step s = access op (s.withBus rest) := by
  rw [step, nextAccess, h]
  rfl

/-- R40: a write to `CMD` issues its word. -/
theorem step_command {s : State} {w : Word} {rest : List HostOp} (h : s.io.bus = .write cmdAddr 4 w :: rest) :
    step s = issue w (s.withBus rest) :=
  step_of_bus h

theorem issue_of_decode {w : Word} {i : Instr} (h : decode w = .ok i) (s : State) : issue w s = exec i s := by
  rw [issue, h]

/-- R73: an aligned write of a word elsewhere stores into the location that the map names. -/
theorem step_write {s : State} {a : Addr} {v : Word} {rest : List HostOp} (h : s.io.bus = .write a 4 v :: rest)
    (ha : a.toNat % 4 = 0) (hcmd : a ≠ cmdAddr) : step s = .next ((s.withBus rest).writeLoc (locOf a.toNat) v) := by
  rw [step_of_bus h, access, if_neg (by decide), if_neg (by omega), busWrite, if_neg hcmd]

theorem ofNat_mod_eq_setWidth (v : Word) (n : Nat) : BitVec.ofNat n (v.toNat % 2 ^ n) = v.setWidth n := by
  apply BitVec.eq_of_toNat_eq
  simp

/-- Settles O5: the next access is taken off the bus, and a word written to `CMD` is decoded and executed. -/
theorem stepRunsTheDecodedCommand : Obligations.StepRunsTheDecodedCommand := by
  refine ⟨fun s w i rest hd hbus => ?_, fun s w i hd => ?_, fun s hbus => ?_⟩
  · exact ⟨wellFormed_of_decode hd, (step_command hbus).trans (issue_of_decode hd _)⟩
  · rw [State.withFetchWord, ofNat_mod_eq_setWidth, BitVec.setWidth_eq]
    exact (step_command (State.withCommand_bus s w)).trans (issue_of_decode hd _)
  · rw [step, nextAccess, hbus]

/-! ### Control registers -/

/-- R41: which bits a write to `STATUS` leaves set. -/
theorem getLsbD_clearWritten (status : BitVec 8) (v : Word) {n : Nat} (hn : n < 8) :
    (clearWritten status v).getLsbD n = (status.getLsbD n && !(decide (1 ≤ n ∧ n ≤ 4) && v.getLsbD n)) := by
  have hmask : w1cMask.getLsbD n = decide (1 ≤ n ∧ n ≤ 4) := by
    revert n; decide
  simp only [clearWritten, BitVec.getLsbD_and, BitVec.getLsbD_not, BitVec.getLsbD_setWidth, hmask, hn, decide_true,
    Bool.true_and, Bool.and_comm (v.getLsbD n)]

/-- Settles O14: the write acknowledges. -/
theorem statusWriteClearsWrittenBits : Obligations.StatusWriteClearsWrittenBits := fun s v _ hbus =>
  ⟨_, step_write hbus (by decide) (by decide), fun _ hn => getLsbD_clearWritten s.ctl.status v hn, rfl⟩

theorem decide_div_mod_two (v : Word) (n : Nat) : decide (v.toNat / 2 ^ n % 2 = 1) = v.getLsbD n := by
  rw [BitVec.getLsbD, Nat.testBit_eq_decide_div_mod_eq]

/-- Settles O16: each write by the map and `writeLoc`. -/
theorem controlRegisterWrites : Obligations.ControlRegisterWrites := by
  intro s v rest
  refine ⟨fun h => ?_, fun h => ?_, fun h => ?_, fun h => ?_⟩ <;> rw [step_write h (by decide) (by decide)]
  · rfl
  · rfl
  · rw [show (256 : Nat) = 2 ^ 8 from rfl, ofNat_mod_eq_setWidth, decide_div_mod_two]
    rfl
  · have hbit : decide (v.toNat / 2 % 2 = 0) = !v.getLsbD 1 := by
      rw [← decide_div_mod_two, ← decide_not, decide_eq_decide, Nat.pow_one]
      omega
    rw [hbit]
    rfl

/-! ### Configuration registers -/

/-- The address of a configuration register (R46). -/
def CfgReg.addr (r : CfgReg) : Nat :=
  match r with
  | .squelch => 0x040
  | .inputLevel => 0x044
  | .sampleGain => 0x048
  | .agcMode => 0x04C
  | .limiterEn => 0x050
  | .attackMs => 0x054
  | .decayMs => 0x058
  | .scaleMode => 0x05C
  | .bpfEn => 0x060
  | .syncEn => 0x064
  | .peakThresh => 0x068
  | .peakBin => 0x06C
  | .peakShowMs => 0x070
  | .mrbStart => 0x074
  | .mrbEnd => 0x078

/-- The width of its field (R46). -/
def CfgReg.width (r : CfgReg) : Nat :=
  match r with
  | .squelch | .inputLevel | .sampleGain | .mrbStart | .mrbEnd => 8
  | .agcMode | .scaleMode => 2
  | .limiterEn | .bpfEn | .syncEn => 1
  | .attackMs | .decayMs | .peakThresh | .peakBin | .peakShowMs => 16

/-- All of them, in the order of R46. -/
def CfgReg.all : List CfgReg :=
  [.squelch, .inputLevel, .sampleGain, .agcMode, .limiterEn, .attackMs, .decayMs, .scaleMode, .bpfEn, .syncEn,
    .peakThresh, .peakBin, .peakShowMs, .mrbStart, .mrbEnd]

theorem locOf_cfgAddr (r : CfgReg) : locOf r.addr = .cfg r := by cases r <;> rfl

/-- No array is a configuration register. -/
theorem locOfArray_ne_cfg (a : Nat) (r : CfgReg) : locOfArray a ≠ .cfg r := by
  intro h
  unfold locOfArray at h
  iterate 11 replace h := Loc.of_skip h nofun
  exact absurd h nofun

/-- A configuration register stands at its own address only (R71). -/
theorem addr_of_locOf_cfg {a : Nat} {r : CfgReg} (h : locOf a = .cfg r) : a = r.addr := by
  unfold locOf at h
  split at h <;> first | exact absurd h (locOfArray_ne_cfg _ _) | (cases h <;> rfl)

/-- What a written configuration register reads as (R46). -/
theorem ConfigRegs.read_write_same (c : ConfigRegs) (r : CfgReg) (v : Word) :
    (c.write r v).read r = BitVec.ofNat 32 (v.toNat % 2 ^ r.width) := by
  apply BitVec.eq_of_toNat_eq
  cases r <;> simp [ConfigRegs.write, ConfigRegs.read, CfgReg.width]

theorem ConfigRegs.read_write_of_ne (c : ConfigRegs) {r r' : CfgReg} (h : r' ≠ r) (v : Word) :
    (c.write r v).read r' = c.read r' := by
  cases r <;> cases r' <;> first | rfl | exact absurd rfl h

/-- A write to a configuration register changes no other word. -/
theorem readWord_writeLoc_cfg (s : State) (r : CfgReg) (v : Word) {a : Nat} (ha : a ≠ r.addr) :
    (s.writeLoc (.cfg r) v).readWord a = s.readWord a := by
  rw [State.readWord, State.readWord]
  generalize hloc : locOf a = l
  cases l with
  | cfg r' => exact s.cfg.read_write_of_ne (by rintro rfl; exact ha (addr_of_locOf_cfg hloc)) v
  | _ => rfl

/-- Settles O15: R46's table is that of `CfgReg`. -/
theorem configWritesAreTruncated : Obligations.ConfigWritesAreTruncated := by
  intro s v rest r hr hbus
  change r ∈ CfgReg.all.map fun g => (g.addr, g.width) at hr
  obtain ⟨g, -, rfl⟩ := List.mem_map.1 hr
  have haddr : (BitVec.ofNat 16 g.addr).toNat = g.addr := by cases g <;> rfl
  have hstep := step_write hbus (by rw [haddr]; cases g <;> rfl) (by cases g <;> decide)
  rw [haddr, locOf_cfgAddr] at hstep
  refine ⟨_, hstep, ?_, fun a _ ha => readWord_writeLoc_cfg _ g v ha, rfl⟩
  rw [State.readWord, locOf_cfgAddr]
  exact s.cfg.read_write_same g v

end Machine
end Sys2Proof
end

section
/-! ## The register map, array by array
Where each array stands (R71), and that a byte is read at its own address (R75, R76). -/

namespace Sys2Proof.Machine

/-! ### Where the arrays stand -/

/-- The address of a multi-resolution array (R55). -/
def MrbSize.base (k : MrbSize) : Nat :=
  match k with
  | .k8 => 0x300
  | .k16 => 0x308
  | .k32 => 0x318
  | .k64 => 0x338
  | .k128 => 0x378

theorem locOf_fftCalcAddr {c : Nat} (h : c < 16) : locOf (0x200 + 4 * c) = .fftCalc c := by
  simp (disch := omega) only [locOf_of_ge, locOfArray, if_pos, Nat.add_sub_cancel_left, Nat.mul_div_cancel_left]

theorem locOf_fftAvgAddr {c : Nat} (h : c < 16) : locOf (0x240 + 4 * c) = .fftAvg c := by
  simp (disch := omega) only [locOf_of_ge, locOfArray, if_pos, if_neg, Nat.add_sub_cancel_left, Nat.mul_div_cancel_left]

theorem locOf_fftResultAddr {c : Nat} (h : c < 16) : locOf (0x280 + c) = .fftResult c := by
  simp (disch := omega) only [locOf_of_ge, locOfArray, if_pos, if_neg, Nat.add_sub_cancel_left]

theorem locOf_mrbAddr {k : MrbSize} {j : Nat} (h : j < k.count) : locOf (k.base + j) = .mrb k j := by
  cases k <;> simp only [MrbSize.base, MrbSize.count] at h ⊢ <;>
    simp (disch := omega) only [locOf_of_ge, locOfArray, if_pos, if_neg, Nat.add_sub_cancel_left]

theorem locOf_rawInAddr {i : Nat} (h : i < 512) : locOf (0x1000 + 4 * i) = .rawIn i := by
  simp (disch := omega) only [locOf_of_ge, locOfArray, if_pos, if_neg, Nat.add_sub_cancel_left, Nat.mul_div_cancel_left]

theorem locOf_vrealAddr {i : Nat} (h : i < 512) : locOf (0x2000 + 4 * i) = .vreal i := by
  simp (disch := omega) only [locOf_of_ge, locOfArray, if_pos, if_neg, Nat.add_sub_cancel_left, Nat.mul_div_cancel_left]

theorem locOf_vimagAddr {i : Nat} (h : i < 512) : locOf (0x2800 + 4 * i) = .vimag i := by
  simp (disch := omega) only [locOf_of_ge, locOfArray, if_pos, if_neg, Nat.add_sub_cancel_left, Nat.mul_div_cancel_left]

/-! ### Bytes of a word -/

/-- Byte `k` of four bytes put together is the `k`-th of them (R75). -/
theorem extractLsb'_four_bytes (f : Nat → Byte) {k : Nat} (h : k < 4) :
    ((f 3 ++ f 2) ++ (f 1 ++ f 0)).extractLsb' (8 * k) 8 = f k := by
  interval_cases k
  · rw [BitVec.extractLsb'_append_eq_of_add_le (by omega), BitVec.extractLsb'_append_eq_of_add_le (by omega)]
    exact BitVec.extractLsb'_eq_self
  · rw [BitVec.extractLsb'_append_eq_of_add_le (by omega), BitVec.extractLsb'_append_eq_of_le (by omega)]
    exact BitVec.extractLsb'_eq_self
  · rw [BitVec.extractLsb'_append_eq_of_le (by omega), BitVec.extractLsb'_append_eq_of_add_le (by omega)]
    exact BitVec.extractLsb'_eq_self
  · rw [BitVec.extractLsb'_append_eq_of_le (by omega), BitVec.extractLsb'_append_eq_of_le (by omega)]
    exact BitVec.extractLsb'_eq_self

/-- A byte at offset `k` of an aligned word (R75). -/
theorem readByte_add (s : State) {a k : Nat} (ha : a % 4 = 0) (hk : k < 4) :
    s.readByte (a + k) = (s.readWord a).extractLsb' (8 * k) 8 := by
  rw [State.readByte, show (a + k) % 4 = k by omega, Nat.add_sub_cancel]

/-- An array of bytes whose words are read packed is read byte by byte (R76). -/
theorem readByte_of_packed {s : State} {base n : Nat} {v : Arr Byte n} (hbase : base % 4 = 0)
    (hw : ∀ j < n, s.readWord (base + j) = packBytes v j) {j : Nat} (hj : j < n) : s.readByte (base + j) = v.nth j := by
  have hsplit : base + j = base + 4 * (j / 4) + j % 4 := by omega
  have hbyte := extractLsb'_four_bytes (fun k => v.nth (4 * (j / 4) + k)) (Nat.mod_lt j (by decide))
  rw [hsplit, readByte_add s (by omega) (by omega), hw _ (by omega)]
  exact hbyte.trans (congrArg v.nth (Nat.div_add_mod j 4))

theorem readByte_mrb (s : State) {k : MrbSize} {n : Nat} {v : Arr Byte n} (hn : k.count = n)
    (hv : ∀ j, s.mrb.packed k j = packBytes v j) {j : Nat} (hj : j < n) : s.readByte (k.base + j) = v.nth j := by
  subst hn
  refine readByte_of_packed (by cases k <;> rfl) (fun j hj => ?_) hj
  rw [State.readWord, locOf_mrbAddr hj]
  exact hv j

/-- Settles O18: the single registers by evaluating the map at their addresses, the arrays by the lemmas above. -/
theorem registersAndArraysReadInPlace : Obligations.RegistersAndArraysReadInPlace := by
  intro s
  refine ⟨?_, ?_, ?_, fun c hc => ?_, fun j hj => readByte_mrb s (k := .k8) rfl (fun _ => rfl) hj,
    fun j hj => readByte_mrb s (k := .k16) rfl (fun _ => rfl) hj,
    fun j hj => readByte_mrb s (k := .k32) rfl (fun _ => rfl) hj,
    fun j hj => readByte_mrb s (k := .k64) rfl (fun _ => rfl) hj,
    fun j hj => readByte_mrb s (k := .k128) rfl (fun _ => rfl) hj, fun c hc => ?_, fun c hc => ?_,
    fun i hi k hk => ?_, fun i hi => ?_, fun i hi => ?_⟩
  iterate 3
    · simp only [List.forall_mem_cons, BitVec.ofNat_toNat, List.not_mem_nil, IsEmpty.forall_iff, implies_true, and_true]
      and_intros <;> rfl
  · refine readByte_of_packed (by decide) (fun c hc => ?_) hc
    rw [State.readWord, locOf_fftResultAddr hc]; rfl
  · rw [State.readWord, locOf_fftCalcAddr hc]; rfl
  · rw [State.readWord, locOf_fftAvgAddr hc]; rfl
  · rw [readByte_add s (by omega) hk, State.readWord, locOf_rawInAddr hi]
    exact extractLsb'_four_bytes (fun k => Memory.read s.mem (0x1000 + 4 * i + k)) hk
  · rw [State.readWord, locOf_vrealAddr hi]; rfl
  · rw [State.readWord, locOf_vimagAddr hi]; rfl

/-! ### `RAW_IN` -/

/-- The four bytes of a written word (R75). -/
theorem Memory.read_writeWord_byte {m : Memory} (hm : Memory.wf m = true) (a : Nat) (v : Word) {k : Nat} (hk : k < 4) :
    Memory.read (Memory.writeWord m a v) (a + k) = v.extractLsb' (8 * k) 8 := by
  rw [Memory.read_writeWord hm]
  interval_cases k <;> simp

theorem Memory.read_writeWord_of_outside {m : Memory} (hm : Memory.wf m = true) {a b : Nat} (v : Word)
    (h : b < a ∨ a + 4 ≤ b) : Memory.read (Memory.writeWord m a v) b = Memory.read m b := by
  rw [Memory.read_writeWord hm, if_neg (by omega), if_neg (by omega), if_neg (by omega), if_neg (by omega)]

/-- Settles O17: the write is one of a word of the storage. -/
theorem rawInWritesOneWord : Obligations.RawInWritesOneWord := by
  intro s i v rest hwf hi hbus
  have haddr : (BitVec.ofNat 16 (0x1000 + 4 * i)).toNat = 0x1000 + 4 * i := by
    rw [BitVec.toNat_ofNat, Nat.mod_eq_of_lt (by omega)]
  have hcmd : BitVec.ofNat 16 (0x1000 + 4 * i) ≠ cmdAddr := fun h => by
    have := congrArg BitVec.toNat h
    rw [haddr] at this
    exact absurd this (by simp [cmdAddr])
  have hstep := step_write hbus (by rw [haddr]; omega) hcmd
  rw [haddr, locOf_rawInAddr hi] at hstep
  refine ⟨_, hstep, ?_, fun k hk => Memory.read_writeWord_byte hwf _ v hk,
    fun a ha => Memory.read_writeWord_of_outside hwf v ha, Memory.writeWord_wf hwf _ v, rfl⟩
  rw [State.readWord, locOf_rawInAddr hi]
  exact Memory.readWord_writeWord_same hwf _ v

end Sys2Proof.Machine
end

section
/-! ## Reads, ignored writes and bus errors
What one step does with an aligned read and with an access that the AFE does not perform, and which addresses of the
map a host write reaches (R71 to R73, R77). -/

namespace Sys2Proof.Machine

/-! ### Reads -/

/-- R72: an aligned read of a word hands it to the host. -/
theorem step_read {s : State} {a : Addr} {rest : List HostOp} (h : s.io.bus = .read a 4 :: rest)
    (ha : a.toNat % 4 = 0) : step s = .next (busRead a (s.withBus rest)) := by
  rw [step_of_bus h, access, if_neg (by decide), if_neg (by omega)]

/-- The model's own fields are in no word of the register space. -/
@[simp] theorem State.readWord_withIo (s : State) (io : Io) (a : Nat) :
    State.readWord { s with io := io } a = s.readWord a := rfl

/-! ### Holes and read-only words -/

theorem locOfArray_of_not_inRegisterMap {a : Nat} (h : inRegisterMap a = false) : locOfArray a = .hole := by
  rw [inRegisterMap, decide_eq_false_iff_not] at h
  simp (disch := omega) only [locOfArray, if_neg]

/-- R71, R72: outside the ranges of the map nothing stands. -/
theorem locOf_of_not_inRegisterMap {a : Nat} (h : inRegisterMap a = false) : locOf a = .hole := by
  unfold locOf
  split
  case h_57 => exact locOfArray_of_not_inRegisterMap h
  all_goals exact absurd h (by decide)

/-- The locations that keep something of a host write (R41, R43 to R46, R51, R56); a write to `CMD` is a command and
stores nothing. -/
def Loc.storesWrites (l : Loc) : Bool :=
  match l with
  | .status | .nowMs | .blockCount | .chanSel | .cfg _ | .peakFlags | .rawIn _ => true
  | _ => false

/-- R72: any other location ignores the write. -/
theorem State.writeLoc_of_not_storesWrites (s : State) {l : Loc} (h : l.storesWrites = false) (v : Word) :
    s.writeLoc l v = s := by
  cases l with
  | status | nowMs | blockCount | chanSel | cfg | peakFlags | rawIn => exact absurd h nofun
  | _ => rfl

/-- R71: among the arrays only `RAW_IN` stores a host write. -/
theorem locOfArray_not_storesWrites {a : Nat} (hraw : ¬(0x1000 ≤ a ∧ a < 0x1800)) :
    (locOfArray a).storesWrites = false := by
  unfold locOfArray
  split_ifs <;> rfl

/-- R56, R71: `RAW_IN` is mapped, and not marked read-only. -/
theorem mapped_of_rawIn {a : Nat} (h : 0x1000 ≤ a ∧ a < 0x1800) :
    inRegisterMap a = true ∧ readOnlyForHost a = false := by
  simp only [readOnlyForHost, inRegisterMap, Bool.or_eq_false_iff, Bool.and_eq_false_iff, decide_eq_true_eq,
    decide_eq_false_iff_not]
  omega

/-- R71: a word that stores a host write is mapped, and not marked read-only. -/
theorem mapped_of_storesWrites {a : Nat} (h : (locOf a).storesWrites = true) :
    inRegisterMap a = true ∧ readOnlyForHost a = false := by
  unfold locOf at h
  split at h
  case h_57 =>
    by_contra hmap
    rw [locOfArray_not_storesWrites fun hraw => hmap (mapped_of_rawIn hraw)] at h
    cases h
  all_goals revert h; decide

/-- R72: a write to an unmapped or read-only address is ignored. -/
theorem writeLoc_of_ignored (s : State) {a : Nat} (h : inRegisterMap a = false ∨ readOnlyForHost a = true) (v : Word) :
    s.writeLoc (locOf a) v = s := by
  refine s.writeLoc_of_not_storesWrites (Bool.eq_false_iff.2 fun hs => ?_) v
  obtain ⟨hmap, hro⟩ := mapped_of_storesWrites hs
  simp [hmap, hro] at h

theorem ne_cmdAddr_of_ignored {a : Addr} (h : inRegisterMap a.toNat = false ∨ readOnlyForHost a.toNat = true) :
    a ≠ cmdAddr := by
  rintro rfl
  exact absurd h (by decide)

/-- Settles O12: holes by the map, reads and ignored writes by the rules of one step. -/
theorem readsAndIgnoredWrites : Obligations.ReadsAndIgnoredWrites := by
  refine ⟨fun s a _ _ hmap => ?_, fun _ => rfl, fun s a rest hbus ha => ?_, State.readWord_withIo,
    fun s a v rest hbus ha hign => ?_⟩
  · rw [State.readWord, locOf_of_not_inRegisterMap hmap]; rfl
  · exact step_read hbus ha
  · rw [step_write hbus ha (ne_cmdAddr_of_ignored hign), writeLoc_of_ignored _ hign]; rfl

/-! ### Bus errors -/

/-- R77: the AFE performs no access of another width, wherever it is. -/
theorem step_badWidth {s : State} {a : Addr} {n : Nat} {v : Word} {rest : List HostOp}
    (h : s.io.bus = .read a n :: rest ∨ s.io.bus = .write a n v :: rest) (hn : n ≠ 4) :
    step s = .fault (.badWidth n) := by
  rcases h with h | h <;> rw [step_of_bus h, access, if_pos hn]

/-- R77: nor one of the right width that is misaligned. -/
theorem step_misaligned {s : State} {a : Addr} {v : Word} {rest : List HostOp}
    (h : s.io.bus = .read a 4 :: rest ∨ s.io.bus = .write a 4 v :: rest) (ha : a.toNat % 4 ≠ 0) :
    step s = .fault (.misaligned a) := by
  rcases h with h | h <;> rw [step_of_bus h, access, if_neg (by decide), if_pos ha]

/-- Settles O13: the width is looked at before the alignment. -/
theorem busErrorsAreHostFaults : Obligations.BusErrorsAreHostFaults := by
  intro s a n v rest h
  refine ⟨step_badWidth h, ?_⟩
  rintro rfl ha
  exact step_misaligned h ha

end Sys2Proof.Machine
end

section
/-! ## Readers
What a read admits and what it leaves the reader with (R78, R83). -/

namespace Sys2Proof.Machine

/-- The reader after it got the word at `a` of the state at position `pick`. -/
def Reader.saw (r : Reader) (a pick : Nat) : Reader := { seen := (a, pick) :: r.seen }

@[simp] theorem Reader.floor_saw_same (r : Reader) (a pick : Nat) : (r.saw a pick).floor a = pick := by
  simp [Reader.floor, Reader.saw]

theorem Reader.floor_saw_of_ne (r : Reader) {a b : Nat} (h : b ≠ a) (pick : Nat) :
    (r.saw a pick).floor b = r.floor b := by
  have hab : (a == b) = false := beq_false_of_ne h.symm
  simp [Reader.floor, Reader.saw, hab]

/-- R83: which reads are admitted, and what each returns. -/
theorem Reader.read_eq_some_iff {history : List State} {r r' : Reader} {a pick : Nat} {w : Word} :
    Reader.read history r a pick = some (w, r') ↔
      (a % 4 = 0 ∧ a < 65536 ∧ r.floor a ≤ pick) ∧
        ∃ s, history[pick]? = some s ∧ s.readWord a = w ∧ r.saw a pick = r' := by
  unfold Reader.read
  split_ifs with hadm
  · cases history[pick]? <;> simp [hadm, Reader.saw]
  · simp [hadm]

/-- Settles O50: both directions of what a read is. -/
theorem readerNeverGoesBackward : Obligations.ReaderNeverGoesBackward := by
  intro history r a pick
  refine ⟨fun w r' hread => ?_, fun ha hlt hfloor hpick => ?_⟩
  · obtain ⟨⟨-, -, hfloor⟩, s, hs, rfl, rfl⟩ := Reader.read_eq_some_iff.1 hread
    exact ⟨hfloor, r.floor_saw_same a pick, fun b hb => r.floor_saw_of_ne hb pick, s, hs, rfl⟩
  · exact ⟨_, _, Reader.read_eq_some_iff.2 ⟨⟨ha, hlt, hfloor⟩, _, List.getElem?_eq_getElem hpick, rfl, rfl⟩⟩

end Sys2Proof.Machine
end

section
/-! ## The command word
Which words decode, and to what: a legal word is the encoding of a well-formed command (R100 to R106).  The rows of
R103, the illegal words of R104 and the round trip are uses of that. -/

namespace Sys2Proof

/-! ### Fields of a word -/

/-- A word is its three fields put together (R100). -/
theorem append_fields (w : Word) : (opField w ++ argField w) ++ immField w = w := by
  have hhigh : opField w ++ argField w = w.extractLsb' 16 (8 + 8) :=
    BitVec.extractLsb'_append_extractLsb'_eq_extractLsb' rfl
  have hall : w.extractLsb' 16 (8 + 8) ++ immField w = w.extractLsb' 0 (8 + 8 + 16) :=
    BitVec.extractLsb'_append_extractLsb'_eq_extractLsb' rfl
  rw [hhigh]
  exact hall.trans BitVec.extractLsb'_eq_self

theorem word_eq_iff_fields {v w : Word} :
    v = w ↔ opField v = opField w ∧ argField v = argField w ∧ immField v = immField w := by
  refine ⟨by rintro rfl; exact ⟨rfl, rfl, rfl⟩, fun ⟨hop, harg, himm⟩ => ?_⟩
  rw [← append_fields v, hop, harg, himm, append_fields]

/-- When a word is the encoding of a command (R102). -/
theorem eq_encode_iff {w : Word} {i : Instr} :
    w = encode i ↔ opField w = opcodeOf i ∧ argField w = argOf i ∧ immField w = immOf i := by
  rw [word_eq_iff_fields, opField_encode, argField_encode, immField_encode]

theorem opField_toNat (w : Word) : (opField w).toNat = w.toNat / 2 ^ 24 := by
  rw [opField, BitVec.extractLsb'_toNat, Nat.shiftRight_eq_div_pow]
  omega

theorem argField_toNat (w : Word) : (argField w).toNat = w.toNat / 2 ^ 16 % 256 := by
  rw [argField, BitVec.extractLsb'_toNat, Nat.shiftRight_eq_div_pow]

theorem immField_toNat (w : Word) : (immField w).toNat = w.toNat % 65536 := by
  rw [immField, BitVec.extractLsb'_toNat, Nat.shiftRight_zero]

/-! ### Which words decode -/

theorem decodePlain_eq_ok_iff {w : Word} {i j : Instr} :
    decodePlain w i = .ok j ↔ argField w = 0#8 ∧ immField w = 0#16 ∧ i = j := by
  unfold decodePlain
  split_ifs with harg himm
  · simp [harg]
  · simp [himm]
  · simp [not_not.1 harg, not_not.1 himm]

theorem decodeTimed_eq_ok_iff {w : Word} {f : Nat → Instr} {j : Instr} :
    decodeTimed w f = .ok j ↔ argField w = 0#8 ∧ f (immField w).toNat = j := by
  unfold decodeTimed
  split_ifs with harg
  · simp [harg]
  · simp [not_not.1 harg]

/-- The five channel counts are the commands of opcode 0x42, told apart by `ARG` (R101, R103). -/
theorem decodeBinner_eq_ok_iff {w : Word} {j : Instr} :
    decodeBinner w = .ok j ↔ opcodeOf j = 0x42#8 ∧ argField w = argOf j ∧ immField w = 0#16 := by
  constructor
  · intro h
    unfold decodeBinner at h
    split_ifs at h with himm
    split at h
    case h_6 => exact absurd h nofun
    all_goals
      rename_i harg
      obtain rfl := Except.ok.inj h
      exact ⟨rfl, BitVec.eq_of_toNat_eq harg, not_not.1 himm⟩
  · rintro ⟨hop, harg, himm⟩
    unfold decodeBinner
    rw [if_neg (not_not.2 himm), harg]
    cases j with
    | binner8 | binner16 | binner32 | binner64 | binner128 => rfl
    | _ => exact absurd hop (by simp [opcodeOf])

/-- R100 to R102: a command that has an encoding is decoded from it. -/
theorem decode_encode {i : Instr} (h : WellFormed i = true) : decode (encode i) = .ok i := by
  unfold decode
  rw [opField_encode]
  cases i with
  | agcTick dt | limit dt =>
    exact decodeTimed_eq_ok_iff.2 ⟨argField_encode _, by rw [immField_encode]; exact congrArg _ (immOf_toNat_of_fits h)⟩
  | binner8 | binner16 | binner32 | binner64 | binner128 =>
    exact decodeBinner_eq_ok_iff.2 ⟨rfl, argField_encode _, immField_encode _⟩
  | _ => exact decodePlain_eq_ok_iff.2 ⟨argField_encode _, immField_encode _, rfl⟩

/-- R102, R104: no other word is decoded to it. -/
theorem eq_encode_of_decode {w : Word} {i : Instr} (h : decode w = .ok i) : w = encode i := by
  unfold decode at h
  split at h
  case h_18 => exact absurd h nofun
  all_goals
    rename_i hop
    rw [eq_encode_iff]
  case h_9 | h_10 =>
    obtain ⟨harg, rfl⟩ := decodeTimed_eq_ok_iff.1 h
    exact ⟨BitVec.eq_of_toNat_eq hop, harg, ((BitVec.ofNat_toNat ..).trans (BitVec.setWidth_eq _)).symm⟩
  case h_14 =>
    obtain ⟨hcode, harg, himm⟩ := decodeBinner_eq_ok_iff.1 h
    refine ⟨(BitVec.eq_of_toNat_eq hop).trans hcode.symm, harg, himm.trans ?_⟩
    cases i with
    | agcTick | limit => exact absurd hcode (by simp [opcodeOf])
    | _ => rfl
  all_goals
    obtain ⟨harg, himm, rfl⟩ := decodePlain_eq_ok_iff.1 h
    exact ⟨BitVec.eq_of_toNat_eq hop, harg, himm⟩

/-- The legal words are the encodings of the well-formed commands (R104, R106). -/
theorem decode_eq_ok_iff {w : Word} {i : Instr} : decode w = .ok i ↔ WellFormed i = true ∧ w = encode i :=
  ⟨fun h => ⟨wellFormed_of_decode h, eq_encode_of_decode h⟩, by rintro ⟨hwf, rfl⟩; exact decode_encode hwf⟩

theorem decodeTableWord_toNat (w : Word) : decodeTableWord 32 w.toNat = (decode w).toOption := by
  have hw : BitVec.ofNat 32 (w.toNat % 2 ^ 32) = w := by
    rw [Nat.mod_eq_of_lt w.isLt, BitVec.ofNat_toNat, BitVec.setWidth_eq]
  rw [decodeTableWord, hw, decodeBytes_wordBytes]
  cases decode w <;> rfl

/-- Settles O1: the bytes and the table's numbering reach the same decoder. -/
theorem decodeEncodeAgree : Obligations.DecodeEncodeAgree := by
  intro i hwf
  have hdec := decode_encode hwf
  refine ⟨hdec, (decodeBytes_wordBytes _).trans hdec, ?_⟩
  rw [decodeTableWord_toNat, hdec]
  rfl

/-! ### The rows of the mask and match table -/

/-- A command with another operand; one that has no operand stays (R101). -/
def Instr.withOperand (i : Instr) (dt : Nat) : Instr :=
  match i with
  | .agcTick _ => .agcTick dt
  | .limit _ => .limit dt
  | i => i

/-- The bits of `IMM` that a row of R103 fixes: none where it is the operand. -/
def fixedImm (i : Instr) : BitVec 16 :=
  match i with
  | .agcTick _ => 0#16
  | .limit _ => 0#16
  | _ => BitVec.allOnes 16

/-- The mask of a command's row: `OP` and `ARG` are always fixed (R103). -/
def tableMask (i : Instr) : Word := (BitVec.allOnes 8 ++ BitVec.allOnes 8) ++ fixedImm i

/-- The mask, the match and the meaning of a command's row (R103). -/
def tableRow (i : Instr) : Word × Word × (Nat → Instr) := (tableMask i, encode (i.withOperand 0), i.withOperand)

/-- The command of each row, in the order of R103, with operand 0 where `IMM` is free. -/
def tableCommands : List Instr :=
  [.nop, .cycleBegin, .reset, .condRepair, .condNorm, .condBpf, .condMax, .envSample, .agcTick 0, .limit 0, .fftRun,
    .agg16, .scale16, .binner8, .binner16, .binner32, .binner64, .binner128, .peakDetect, .peakReset, .beatTrack]

@[simp] theorem Instr.withOperand_withOperand (i : Instr) (a b : Nat) :
    (i.withOperand a).withOperand b = i.withOperand b := by cases i <;> rfl

@[simp] theorem opcodeOf_withOperand (i : Instr) (dt : Nat) : opcodeOf (i.withOperand dt) = opcodeOf i := by
  cases i <;> rfl

@[simp] theorem argOf_withOperand (i : Instr) (dt : Nat) : argOf (i.withOperand dt) = argOf i := by
  cases i <;> rfl

@[simp] theorem immOf_withOperand_zero (i : Instr) : immOf (i.withOperand 0) = 0#16 := by cases i <;> rfl

theorem wellFormed_withOperand (i : Instr) {dt : Nat} (h : dt < 65536) : WellFormed (i.withOperand dt) = true := by
  cases i with
  | agcTick | limit => exact decide_eq_true h
  | _ => rfl

theorem withOperand_zero_mem_tableCommands (i : Instr) : i.withOperand 0 ∈ tableCommands := by
  cases i with
  | agcTick | limit => simp [tableCommands, Instr.withOperand]
  | _ => decide

/-- `IMM` is either fixed to 0 by a row's mask or free, and then it is the operand. -/
theorem and_fixedImm_eq_zero_iff (i : Instr) (imm : BitVec 16) :
    imm &&& fixedImm i = 0#16 ↔ imm = immOf (i.withOperand imm.toNat) := by
  cases i with
  | agcTick | limit => simp [fixedImm, Instr.withOperand, immOf]
  | _ => simp only [fixedImm, Instr.withOperand, immOf, BitVec.and_allOnes]

/-- A mask acts on the fields one by one. -/
theorem fields_and (v w : Word) : opField (v &&& w) = opField v &&& opField w ∧
    argField (v &&& w) = argField v &&& argField w ∧ immField (v &&& w) = immField v &&& immField w :=
  ⟨BitVec.extractLsb'_and, BitVec.extractLsb'_and, BitVec.extractLsb'_and⟩

/-- A word matches a command's row exactly when it decodes to that command, with the word's `IMM` as operand. -/
theorem matches_tableRow_iff (i : Instr) (w : Word) :
    w &&& tableMask i = encode (i.withOperand 0) ↔ decode w = .ok (i.withOperand (immField w).toNat) := by
  obtain ⟨hop, harg, himm⟩ := fields_and w (tableMask i)
  simp only [tableMask, opField_append, argField_append, immField_append, BitVec.and_allOnes] at hop harg himm
  rw [decode_eq_ok_iff, and_iff_right (wellFormed_withOperand i (immField w).isLt), eq_encode_iff, eq_encode_iff,
    tableMask, hop, harg, himm, immOf_withOperand_zero, and_fixedImm_eq_zero_iff]
  simp only [opcodeOf_withOperand, argOf_withOperand]

/-- The operand of a decoded command is the word's `IMM` (R101). -/
theorem withOperand_of_decode {w : Word} {i : Instr} (h : decode w = .ok i) :
    i.withOperand (immField w).toNat = i := by
  obtain ⟨hwf, rfl⟩ := decode_eq_ok_iff.1 h
  rw [immField_encode]
  cases i with
  | agcTick dt | limit dt => exact congrArg _ (immOf_toNat_of_fits hwf)
  | _ => rfl

/-- Settles O2: R103's table is that of `tableCommands`. -/
theorem legalWordsMatchTheTable : Obligations.LegalWordsMatchTheTable := by
  intro w i
  change decode w = .ok i ↔ ∃ row ∈ tableCommands.map tableRow, w &&& row.1 = row.2.1 ∧ i = row.2.2 (w.toNat % 65536)
  simp only [List.mem_map, exists_exists_and_eq_and, tableRow, ← immField_toNat, matches_tableRow_iff]
  constructor
  · intro h
    have hi : i = (i.withOperand 0).withOperand (immField w).toNat := by
      rw [Instr.withOperand_withOperand, withOperand_of_decode h]
    exact ⟨_, withOperand_zero_mem_tableCommands i, hi ▸ h, hi⟩
  · rintro ⟨j, -, h, rfl⟩
    exact h

/-! ### Illegal words -/

/-- The opcodes that R102 assigns. -/
abbrev assignedOpcodes : List Nat :=
  [0x00, 0x01, 0x0F, 0x10, 0x11, 0x12, 0x13, 0x20, 0x21, 0x22, 0x30, 0x40, 0x41, 0x42, 0x50, 0x51, 0x52]

/-- R104's illegal words, by the numbers in their fields. -/
abbrev IllegalFields (op arg imm : Nat) : Prop :=
  ¬op ∈ assignedOpcodes ∨ (op ≠ 0x42 ∧ arg ≠ 0) ∨ (op ≠ 0x21 ∧ op ≠ 0x22 ∧ imm ≠ 0) ∨
    (op = 0x42 ∧ (arg < 3 ∨ 7 < arg))

theorem not_illegalFields_of_command (i : Instr) :
    ¬IllegalFields (opcodeOf i).toNat (argOf i).toNat (immOf i).toNat := by
  cases i with
  | agcTick | limit => simp [IllegalFields, opcodeOf, argOf]
  | _ => decide

/-- R101: `ARG` in 3..7 selects one of `BINNER`'s commands. -/
theorem exists_binner {arg : BitVec 8} (hlo : 3 ≤ arg.toNat) (hhi : arg.toNat ≤ 7) :
    ∃ j, opcodeOf j = 0x42#8 ∧ arg = argOf j := by
  obtain h | h | h | h | h :
      arg.toNat = 3 ∨ arg.toNat = 4 ∨ arg.toNat = 5 ∨ arg.toNat = 6 ∨ arg.toNat = 7 := by omega
  · exact ⟨.binner8, rfl, BitVec.eq_of_toNat_eq h⟩
  · exact ⟨.binner16, rfl, BitVec.eq_of_toNat_eq h⟩
  · exact ⟨.binner32, rfl, BitVec.eq_of_toNat_eq h⟩
  · exact ⟨.binner64, rfl, BitVec.eq_of_toNat_eq h⟩
  · exact ⟨.binner128, rfl, BitVec.eq_of_toNat_eq h⟩

/-- R104: the words that are not illegal are the legal ones. -/
theorem exists_decode_iff {w : Word} :
    (∃ i, decode w = .ok i) ↔ ¬IllegalFields (opField w).toNat (argField w).toNat (immField w).toNat := by
  constructor
  · rintro ⟨i, h⟩
    rw [eq_encode_of_decode h, opField_encode, argField_encode, immField_encode]
    exact not_illegalFields_of_command i
  · intro h
    simp only [IllegalFields, not_or, not_and, not_not, not_lt] at h
    obtain ⟨hassigned, harg, himm, hbinner⟩ := h
    unfold decode
    split
    case h_18 => simp_all [assignedOpcodes]
    all_goals rename_i hop; rw [hop] at harg himm hbinner
    case h_9 | h_10 =>
      exact ⟨_, decodeTimed_eq_ok_iff.2 ⟨BitVec.eq_of_toNat_eq (harg (by decide)), rfl⟩⟩
    case h_14 =>
      obtain ⟨hlo, hhi⟩ := hbinner rfl
      obtain ⟨j, hcode, hj⟩ := exists_binner hlo hhi
      exact ⟨j, decodeBinner_eq_ok_iff.2 ⟨hcode, hj, BitVec.eq_of_toNat_eq (himm (by decide) (by decide))⟩⟩
    all_goals
      exact ⟨_, decodePlain_eq_ok_iff.2 ⟨BitVec.eq_of_toNat_eq (harg (by decide)),
        BitVec.eq_of_toNat_eq (himm (by decide) (by decide)), rfl⟩⟩

namespace Machine

/-- R105, R301: a word that does not decode raises `IllegalCommand`, in every state. -/
theorem issue_of_not_decode {w : Word} (h : ¬∃ i, decode w = .ok i) (s : State) :
    issue w s = .next (s.raise .illegalCommand) := by
  unfold issue
  split
  case h_1 i hi => exact absurd ⟨i, hi⟩ h
  case h_2 => rfl

/-- Settles O3: the step issues the word, and `IllegalCommand` is bit 1. -/
theorem illegalWordsOnlySetIllegal : Obligations.IllegalWordsOnlySetIllegal := by
  intro w
  rw [← opField_toNat, ← argField_toNat, ← immField_toNat]
  refine ⟨fun hill s rest hbus => ?_, exists_decode_iff.2⟩
  exact (step_command hbus).trans (issue_of_not_decode (fun h => exists_decode_iff.1 h hill) _)

end Machine

/-- Settles O4, by decoding each word. -/
theorem exampleWordsDecode : Obligations.ExampleWordsDecode := by
  unfold Obligations.ExampleWordsDecode
  decide

end Sys2Proof
end

section
/-! ## Pseudo-commands
The commands that a host issues for `CATCHUP` and `CYCLE` (R107, R108). -/

namespace Sys2Proof.Machine

/-- Where the elements of a repeated pair stand. -/
theorem getElem?_flatten_replicate_pair {α : Type} (a b : α) {k n : Nat} (h : n < k) :
    (List.replicate k [a, b]).flatten[2 * n]? = some a ∧ (List.replicate k [a, b]).flatten[2 * n + 1]? = some b := by
  induction k generalizing n with
  | zero => exact absurd h (Nat.not_lt_zero n)
  | succ k ih =>
    rw [List.replicate_succ, List.flatten_cons]
    cases n with
    | zero => exact ⟨rfl, rfl⟩
    | succ n => exact ih (Nat.lt_of_succ_lt_succ h)

/-- R108: two commands for each pair. -/
theorem length_catchup (late : Nat) : (catchup late).length = 2 * (min late 200 / 2) := by
  simp [catchup, Const.catchupCapMs, Const.catchupStepMs, Nat.mul_comm]

/-- Settles O49: the pairs one by one, and the catch-up's place in the cycle. -/
theorem catchupExpandsToPairs : Obligations.CatchupExpandsToPairs := by
  refine ⟨fun late => ⟨length_catchup late, fun n hn => getElem?_flatten_replicate_pair _ _ hn⟩, fun p dt => ?_⟩
  have hlate : 2 < dt - p.cyclePeriodMs ↔ p.cyclePeriodMs + 2 < dt := by omega
  simp only [hostCycle, hlate]
  rfl

end Sys2Proof.Machine
end

section
/-! ## The control of a cycle
R120's three exits as facts about `exec`: the abort gate (R122), the phase check (R134, R135) and the `perform` step.
The control commands and the short read are uses of them. -/

namespace Sys2Proof

/-! ### The word of `NOP` -/

theorem opcodeOf_eq_zero_iff {i : Instr} : opcodeOf i = 0x00#8 ↔ i = .nop := by
  cases i <;> simp [opcodeOf]

/-- R130: of the words with opcode 0 only 0 is legal. -/
theorem eq_zero_of_decode {w : Word} {i : Instr} (hop : opField w = 0x00#8) (h : decode w = .ok i) : w = 0#32 := by
  have hw : w = encode i := eq_encode_of_decode h
  obtain rfl : i = .nop := opcodeOf_eq_zero_iff.1 (by rw [← opField_encode, ← hw, hop])
  exact hw.trans (by decide)

theorem exists_error_of_not_decode {w : Word} (h : ¬∃ i, decode w = .ok i) : ∃ e, decode w = .error e := by
  cases hw : decode w with
  | ok i => exact absurd ⟨i, hw⟩ h
  | error e => exact ⟨e, rfl⟩

namespace Machine

/-! ### The exits of `exec` -/

/-- R121: one of R120's three exits is always taken. -/
theorem exists_exec_eq_next (i : Instr) (s : State) : ∃ t, exec i s = .next t := by
  rw [exec_eq_command]
  rcases command_cases i (performOf i) s with ⟨-, -, h⟩ | ⟨-, -, h⟩ | ⟨-, -, h⟩ <;> exact ⟨_, h⟩

theorem exec_aborted {i : Instr} {s : State} (ha : s.flag .abort = true) (hr : runsWhileAborted i = false) :
    exec i s = .next s :=
  (exec_eq_command i s).trans (command_aborted ha hr)

theorem exec_outOfPhase {i : Instr} {s : State} (ha : s.flag .abort = false) (hp : phaseOk i s.ctl.phase = false) :
    exec i s = .next (s.raise .sequenceError) :=
  (exec_eq_command i s).trans (command_outOfPhase (.inl ha) hp)

theorem exec_performs {i : Instr} {s : State} (ha : s.flag .abort = false ∨ runsWhileAborted i = true)
    (hp : phaseOk i s.ctl.phase = true) : exec i s = .next ((performOf i s).setPhase (phaseNext i s)) :=
  (exec_eq_command i s).trans (command_performs ha hp)

/-- The commands that the abort gate stops (R122). -/
theorem runsWhileAborted_eq_false_iff {i : Instr} :
    runsWhileAborted i = false ↔ i ≠ .nop ∧ i ≠ .cycleBegin ∧ i ≠ .reset := by
  cases i <;> simp [runsWhileAborted]

/-- Settles O8: `exec` has no other exit than a next state. -/
theorem commandsNeverFail : Obligations.CommandsNeverFail := exists_exec_eq_next

/-- Settles O6, by the abort gate. -/
theorem abortGateIgnoresStageCommands : Obligations.AbortGateIgnoresStageCommands := fun _ _ ha hnop hbegin hreset =>
  exec_aborted ha (runsWhileAborted_eq_false_iff.2 ⟨hnop, hbegin, hreset⟩)

/-! ### The phase check -/

/-- A phase that R134 asks for and that is not the present one. -/
theorem toNat_beq_eq_false {p q : BitVec 4} (h : p ≠ q) : (p.toNat == q.toNat) = false :=
  beq_eq_false_iff_ne.2 (BitVec.toNat_ne.1 h)

/-- Settles O7: a phase outside a command's row of R134 fails its phase check. -/
theorem outOfPhaseOnlySetsSeqErr : Obligations.OutOfPhaseOnlySetsSeqErr := by
  intro i s ha hphase
  refine exec_outOfPhase ha ?_
  cases i with
  | nop | cycleBegin | reset => exact hphase.elim
  | condRepair | condNorm | condBpf | condMax | fftRun | agg16 | scale16 | beatTrack =>
    exact toNat_beq_eq_false hphase
  | envSample | agcTick | limit | binner8 | binner16 | binner32 | binner64 | binner128 | peakDetect =>
    exact decide_eq_false (Nat.not_le.2 hphase)
  | peakReset => exact decide_eq_false (by rw [hphase]; decide)

/-! ### A short read -/

/-- R150, R151: on a short read `COND_REPAIR` performs nothing but the condition. -/
theorem exec_condRepair_short {s : State} (ha : s.flag .abort = false) (hp : s.ctl.phase = 1#4)
    (hs : s.shortBlock = true) : exec .condRepair s = .next ((s.raise .transportShortRead).setPhase 0#4) := by
  have hok : phaseOk .condRepair s.ctl.phase = true := by rw [hp]; rfl
  have hperform : performOf .condRepair s = s.raise .transportShortRead := if_pos hs
  have hnext : phaseNext .condRepair s = 0#4 := if_pos hs
  rw [exec_performs (.inl ha) hok, hperform, hnext]

/-- R303: a short read aborts the cycle. -/
theorem flag_abort_raise_shortRead (s : State) : (s.raise .transportShortRead).flag .abort = true := by
  rw [State.flag_raise, (Condition.getLsbD_bits _ _).2 (by decide), Bool.or_true]

/-- Settles O11: the short read sets `ABORT`, and from then on the abort gate stops the stage commands. -/
theorem shortReadAbortsTheCycle : Obligations.ShortReadAbortsTheCycle := fun s ha hp hcount =>
  ⟨_, rfl, exec_condRepair_short ha hp (decide_eq_true hcount), fun i =>
    abortGateIgnoresStageCommands i _ (flag_abort_raise_shortRead s)⟩

/-! ### `NOP` and `CYCLE_BEGIN` -/

theorem exec_nop (s : State) : exec .nop s = .next s := exec_performs (.inr rfl) rfl

theorem exec_cycleBegin (s : State) : exec .cycleBegin s = .next ((s.putFlag .abort false).setPhase 1#4) :=
  exec_performs (.inr rfl) rfl

/-- Settles O20: `NOP` leaves the phase as it is, and no other word with its opcode decodes. -/
theorem nopDoesNothing : Obligations.NopDoesNothing := by
  refine ⟨by decide, exec_nop, fun w hop hne => ?_⟩
  have hfield : opField w = 0x00#8 := BitVec.eq_of_toNat_eq ((opField_toNat w).trans hop)
  have hill : ¬∃ i, decode w = .ok i := fun ⟨_, h⟩ => hne (eq_zero_of_decode hfield h)
  exact ⟨exists_error_of_not_decode hill, issue_of_not_decode hill⟩

/-- Clearing a bit twice clears it once. -/
theorem State.putFlag_false_putFlag_false (s : State) (b : StatusBit) :
    (s.putFlag b false).putFlag b false = s.putFlag b false :=
  congrArg s.setStatus (by
    rw [State.putFlag_status, if_neg Bool.false_ne_true, if_neg Bool.false_ne_true, BitVec.and_assoc, BitVec.and_self])

/-- R131: the second of two `CYCLE_BEGIN` in a row changes nothing. -/
theorem exec_cycleBegin_again (s : State) : exec .cycleBegin ((s.putFlag .abort false).setPhase 1#4) =
    .next ((s.putFlag .abort false).setPhase 1#4) :=
  (exec_cycleBegin _).trans
    (congrArg Host.Outcome.next (congrArg (·.setPhase 1#4) (s.putFlag_false_putFlag_false .abort)))

/-- Settles O21: `CYCLE_BEGIN` performs in every state, and what it clears is then clear. -/
theorem cycleBeginStartsACycle : Obligations.CycleBeginStartsACycle :=
  ⟨by decide, fun s => ⟨_, rfl, exec_cycleBegin s, exec_cycleBegin_again s⟩⟩

end Machine
end Sys2Proof
end

section
/-! ## The sample conditioner
Each of the four commands is one pass over the block.  What its loop carries into sample `i` is given in closed form or
by one equation per sample, and the statements are read off it. -/

namespace Sys2Proof

theorem F32.le_of_not_lt {x y : F32} (hx : x.isNaN = false) (hy : y.isNaN = false) (h : ¬x.lt y = true) :
    y.le x = true := by
  rw [F32.lt_eq_not_le hx hy] at h
  simpa using h

theorem F32.lt_of_le_of_lt {a b c : F32} (h1 : a.le b = true) (h2 : b.lt c = true) : a.lt c = true := by
  obtain ⟨ha, -, hab⟩ := F32.le_iff.1 h1
  obtain ⟨-, hc, hbc⟩ := F32.lt_iff.1 h2
  exact F32.lt_iff.2 ⟨ha, hc, by omega⟩

/-- What is an element, by index. -/
theorem Arr.mem_elems_iff {α : Type} [Inhabited α] {n : Nat} {x : α} (v : Arr α n) :
    x ∈ v.elems ↔ ∃ i < n, v.nth i = x := by
  rw [Arr.elems_eq_map_nth]
  simp

namespace Machine

/-! ### `COND_REPAIR`, sample by sample -/

/-- R149. -/
theorem sampleBad_iff {p : Params} {known : Bool} {id : BitVec 8} {r : Word} :
    sampleBad p known id r = true ↔ known = true ∧ sampleTag p r ≠ id.toNat % 2 ^ p.tagBits := by
  simp [sampleBad]

/-- R150: a good sample is converted and becomes the last good one. -/
theorem repairSample_of_good {p : Params} {id : BitVec 8} {a : RepairAcc} {r : Word}
    (h : ¬sampleBad p a.known id r = true) :
    repairSample p id a r = (sampleSigned p r, { a with lastGood := sampleSigned p r, badRun := 0#32 }) :=
  if_neg h

/-- R150: a bad sample within the run limit is repaired from the last good one and counted. -/
theorem repairSample_of_bad {p : Params} {id : BitVec 8} {a : RepairAcc} {r : Word}
    (h : sampleBad p a.known id r = true) (hrun : a.badRun + 1#32 ≠ 256#32) :
    repairSample p id a r = (settle [p.repairScale, a.lastGood] 0x2000 (p.repairScale.mul a.lastGood),
      { a with badRun := a.badRun + 1#32 }) := by
  rw [repairSample, if_pos h, if_neg (show a.badRun + 1#32 ≠ Const.badRunLimit from hrun)]

/-- R152: the bad sample that reaches the run limit is repaired too, and ends the repairing. -/
theorem repairSample_at_limit {p : Params} {id : BitVec 8} {a : RepairAcc} {r : Word}
    (h : sampleBad p a.known id r = true) (hrun : a.badRun + 1#32 = 256#32) :
    repairSample p id a r = (settle [p.repairScale, a.lastGood] 0x2000 (p.repairScale.mul a.lastGood),
      { a with badRun := 0#32, known := false, repairOff := true }) := by
  rw [repairSample, if_pos h, if_pos (show a.badRun + 1#32 = Const.badRunLimit from hrun)]

/-- What the loop of `COND_REPAIR` carries into sample `i` (R150). -/
@[irreducible] def State.repairCarry (p : Params) (s : State) (i : Nat) : RepairAcc :=
  s.rawBlock.carry (repairSample p s.ctl.chanId) s.repairStart i

theorem State.repairCarry_zero (p : Params) (s : State) : s.repairCarry p 0 = s.repairStart := by
  rw [State.repairCarry, Arr.carry_zero]

theorem State.repairCarry_succ (p : Params) (s : State) {i : Nat} (hi : i < 512) :
    s.repairCarry p (i + 1) = (repairSample p s.ctl.chanId (s.repairCarry p i) (s.rawIn i)).2 := by
  rw [State.repairCarry, State.repairCarry, Arr.carry_succ _ _ _ _ hi, State.rawBlock, Arr.nth_tab _ _ _ hi]

/-- R152: in a block that starts with `KNOWN` at `known`, repair is off exactly where the block has cleared `KNOWN`. -/
structure RepairAcc.OffSince (known : Bool) (a : RepairAcc) : Prop where
  off_eq : a.repairOff = (known && !a.known)
  known_of_known : a.known = true → known = true

theorem RepairAcc.OffSince.repairSample {known : Bool} {a : RepairAcc} (h : a.OffSince known) (p : Params)
    (id : BitVec 8) (r : Word) : (repairSample p id a r).2.OffSince known := by
  by_cases hbad : sampleBad p a.known id r = true
  · by_cases hrun : a.badRun + 1#32 = 256#32
    · rw [repairSample_at_limit hbad hrun]
      have hknown : known = true := h.known_of_known (sampleBad_iff.1 hbad).1
      exact ⟨by simp [hknown], fun _ => hknown⟩
    · rw [repairSample_of_bad hbad hrun]; exact { h with }
  · rw [repairSample_of_good hbad]; exact { h with }

theorem State.offSince_repairCarry (p : Params) (s : State) {i : Nat} (hi : i ≤ 512) :
    (s.repairCarry p i).OffSince s.ctl.chanKnown := by
  rw [State.repairCarry]
  exact Arr.carry_induct _ _ _ ⟨(Bool.and_not_self _).symm, id⟩ (fun _ r h => h.repairSample p _ r) i hi

theorem State.repairOff_repairCarry_iff (p : Params) (s : State) {i : Nat} (hi : i ≤ 512) :
    (s.repairCarry p i).repairOff = true ↔ s.ctl.chanKnown = true ∧ (s.repairCarry p i).known = false := by
  rw [(s.offSince_repairCarry p hi).off_eq]
  simp

/-- R150, R152: a full block leaves what its loop ends with, and `REPAIR_OFF` where repair was switched off. -/
theorem repairBlock_eq (p : Params) (s : State) : repairBlock p s = { s with
    ctl := { s.ctl with
      chanKnown := (s.repairCarry p 512).known
      status := if s.ctl.chanKnown = true ∧ (s.repairCarry p 512).known = false then s.ctl.status ||| 0x10#8
        else s.ctl.status }
    cond := { s.cond with lastGood := (s.repairCarry p 512).lastGood, badRun := (s.repairCarry p 512).badRun }
    spec := { s.spec with vreal := s.rawBlock.scanOut (repairSample p s.ctl.chanId) s.repairStart } } := by
  have hend : s.rawBlock.scanEnd (repairSample p s.ctl.chanId) s.repairStart = s.repairCarry p 512 := by
    rw [Arr.scanEnd_eq_carry, State.repairCarry]
  unfold repairBlock
  simp only [hend, s.repairOff_repairCarry_iff p le_rfl]
  split_ifs <;> rfl

theorem nth_vreal_repairBlock (p : Params) (s : State) {i : Nat} (hi : i < 512) :
    (repairBlock p s).spec.vreal.nth i = (repairSample p s.ctl.chanId (s.repairCarry p i) (s.rawIn i)).1 := by
  rw [repairBlock_eq, Arr.nth_scanOut _ _ _ _ hi, State.rawBlock, Arr.nth_tab _ _ _ hi, State.repairCarry,
    State.rawBlock]

theorem shortBlock_eq_false {s : State} (h : 512 ≤ s.ctl.blockCount.toNat) : s.shortBlock = false :=
  decide_eq_false (Nat.not_lt.2 h)

/-- R150: a full block is repaired. -/
theorem performCondRepair_of_full (p : Params) {s : State} (h : 512 ≤ s.ctl.blockCount.toNat) :
    performCondRepair p s = repairBlock p s := by
  simp [performCondRepair, shortBlock_eq_false h]

theorem exec_condRepair_full {s : State} (ha : s.flag .abort = false) (hp : s.ctl.phase = 1#4)
    (h : 512 ≤ s.ctl.blockCount.toNat) :
    exec .condRepair s = .next ((repairBlock Config.params s).setPhase 2#4) := by
  have hok : phaseOk .condRepair s.ctl.phase = true := by rw [hp]; rfl
  have hperform : performOf .condRepair s = repairBlock Config.params s := performCondRepair_of_full _ h
  have hnext : phaseNext .condRepair s = 2#4 := by simp [phaseNext_condRepair, shortBlock_eq_false h]
  rw [exec_performs (.inl ha) hok, hperform, hnext]

/-- Settles O23: each sample is good, bad within the run limit, or bad at the limit. -/
theorem condRepairRepairsTheBlock : Obligations.CondRepairRepairsTheBlock := by
  refine ⟨by decide, fun s ha hp hcount => ?_⟩
  refine ⟨_, fun i => (s.repairCarry Config.params i).lastGood, fun i => (s.repairCarry Config.params i).badRun,
    fun i => (s.repairCarry Config.params i).known, exec_condRepair_full ha hp hcount, ?_, ?_, ?_, fun i hi => ?_, ?_⟩
  · exact congrArg RepairAcc.lastGood (s.repairCarry_zero _)
  · exact congrArg RepairAcc.badRun (s.repairCarry_zero _)
  · exact congrArg RepairAcc.known (s.repairCarry_zero _)
  · simp only [State.setPhase_spec, nth_vreal_repairBlock _ _ hi, s.repairCarry_succ _ hi]
    split_ifs with hbad hrun
    · rw [repairSample_at_limit (sampleBad_iff.2 hbad) hrun]
      exact ⟨rfl, rfl, rfl, rfl⟩
    · rw [repairSample_of_bad (sampleBad_iff.2 hbad) hrun]
      exact ⟨rfl, rfl, rfl, rfl⟩
    · rw [repairSample_of_good (mt sampleBad_iff.1 hbad)]
      exact ⟨rfl, rfl, rfl, rfl⟩
  · rw [repairBlock_eq]; rfl

/-! ### The run limit -/

/-- Every sample of the block carries another tag than `ID` (R149). -/
def State.AllTagsOther (p : Params) (s : State) : Prop :=
  ∀ i < 512, sampleTag p (s.rawIn i) ≠ s.ctl.chanId.toNat % 2 ^ p.tagBits

section RunLimit

variable {p : Params} {s : State} (hknown : s.ctl.chanKnown = true) (hrun : s.cond.badRun = 0#32)
  (htags : s.AllTagsOther p)
include hknown hrun htags

/-- Below the limit the loop only counts. -/
theorem repairCarry_of_lt_limit {i : Nat} (hi : i < 256) :
    s.repairCarry p i = { s.repairStart with badRun := BitVec.ofNat 32 i } := by
  induction i with
  | zero => rw [State.repairCarry_zero, ← hrun]; rfl
  | succ i ih =>
    have hne : BitVec.ofNat 32 i + 1#32 ≠ 256#32 := by bv_omega
    have hbad := sampleBad_iff.2 ⟨hknown, htags i (by omega)⟩
    rw [State.repairCarry_succ p s (by omega), ih (by omega), repairSample_of_bad hbad hne, BitVec.ofNat_add]

/-- Sample 255 reaches the limit. -/
theorem repairCarry_limit :
    s.repairCarry p 256 = { s.repairStart with badRun := 0#32, known := false, repairOff := true } := by
  have hbad := sampleBad_iff.2 ⟨hknown, htags 255 (by omega)⟩
  rw [State.repairCarry_succ p s (by omega), repairCarry_of_lt_limit hknown hrun htags (by omega),
    repairSample_at_limit hbad rfl]

/-- From the limit on no sample counts as bad. -/
theorem repairCarry_of_limit_le {i : Nat} (hlo : 256 ≤ i) (hhi : i ≤ 512) :
    (s.repairCarry p i).known = false ∧ (s.repairCarry p i).badRun = 0#32 := by
  induction i, hlo using Nat.le_induction with
  | base => rw [repairCarry_limit hknown hrun htags]; exact ⟨rfl, rfl⟩
  | succ i hlo ih =>
    obtain ⟨hoff, -⟩ := ih (by omega)
    rw [State.repairCarry_succ p s (by omega), repairSample_of_good (by simp [sampleBad, hoff])]
    exact ⟨hoff, rfl⟩

theorem repairSample_before_limit {i : Nat} (hi : i < 256) :
    (repairSample p s.ctl.chanId (s.repairCarry p i) (s.rawIn i)).1 =
      settle [p.repairScale, s.cond.lastGood] 0x2000 (p.repairScale.mul s.cond.lastGood) := by
  have hbad := sampleBad_iff.2 ⟨hknown, htags i (by omega)⟩
  rw [repairCarry_of_lt_limit hknown hrun htags hi]
  exact congrArg Prod.fst (if_pos hbad)

theorem repairSample_after_limit {i : Nat} (hlo : 256 ≤ i) (hhi : i < 512) :
    repairSample p s.ctl.chanId (s.repairCarry p i) (s.rawIn i) = (sampleSigned p (s.rawIn i),
      { s.repairCarry p i with lastGood := sampleSigned p (s.rawIn i), badRun := 0#32 }) := by
  obtain ⟨hoff, -⟩ := repairCarry_of_limit_le hknown hrun htags hlo hhi.le
  exact repairSample_of_good (by simp [sampleBad, hoff])

end RunLimit

/-- Settles O24: below the limit the loop counts, from the limit on every sample is good. -/
theorem repairStopsAfterTheRunLimit : Obligations.RepairStopsAfterTheRunLimit := by
  intro p s hcount hknown hrun htags
  obtain ⟨hoff, hzero⟩ := repairCarry_of_limit_le hknown hrun htags (by omega) (le_refl 512)
  have hlast : (s.repairCarry p 512).lastGood = sampleSigned p (s.rawIn 511) := by
    rw [s.repairCarry_succ p (by omega), repairSample_after_limit hknown hrun htags (by omega) (by omega)]
  have hstatus : (repairBlock p s).ctl.status = s.ctl.status ||| 0x10#8 := by
    rw [repairBlock_eq]; exact if_pos ⟨hknown, hoff⟩
  rw [performCondRepair_of_full p hcount]
  refine ⟨fun i hi => ?_, fun i hlo hhi => ?_, ?_, ?_, ?_, ?_⟩
  · rw [nth_vreal_repairBlock p s (by omega), repairSample_before_limit hknown hrun htags hi]
  · rw [nth_vreal_repairBlock p s hhi, repairSample_after_limit hknown hrun htags hlo hhi]
  · rw [repairBlock_eq]; exact hoff
  · rw [repairBlock_eq]; exact hzero
  · rw [State.flag, hstatus, BitVec.getLsbD_or]
    exact Bool.or_true _
  · rw [repairBlock_eq]; exact hlast

/-! ### `COND_NORM` -/

/-- R155: the loop carries the rescaled sample before. -/
theorem carry_normSample (p : Params) {n : Nat} (v : Arr F32 n) (prev : F32) {i : Nat} (hi : i ≤ n) :
    v.carry (normSample p) prev i = if i = 0 then prev else (v.nth (i - 1)).mul (normScale p) := by
  cases i with
  | zero => rw [Arr.carry_zero, if_pos rfl]
  | succ i => rw [Arr.carry_succ _ _ _ _ hi, if_neg (Nat.succ_ne_zero i), Nat.add_sub_cancel, normSample]

/-- R155: the block is replaced, and the last rescaled sample kept. -/
theorem performCondNorm_eq (p : Params) (s : State) : performCondNorm p s = { s with
    cond := { s.cond with lpfPrev := settle s.normInputs 0x198 ((s.spec.vreal.nth 511).mul (normScale p)) }
    spec := { s.spec with
      vreal := settleVreal s.normInputs (s.spec.vreal.scanOut (normSample p) s.cond.lpfPrev) } } := by
  rw [performCondNorm, Arr.scanEnd_eq_carry, carry_normSample p _ _ le_rfl, if_neg (by decide)]

/-- R155: a rescaled sample is blended 3:1 with the one before it. -/
theorem nth_scanOut_normSample (p : Params) {n : Nat} (v : Arr F32 n) (prev : F32) {i : Nat} (hi : i < n) :
    (v.scanOut (normSample p) prev).nth i =
      ((Const.f3.mul ((v.nth i).mul (normScale p))).add
        (if i = 0 then prev else (v.nth (i - 1)).mul (normScale p))).div Const.f4 := by
  rw [Arr.nth_scanOut _ _ _ _ hi, carry_normSample p v prev hi.le, normSample]

/-- Settles O25, by the closed form of the loop. -/
theorem condNormFiltersTheBlock : Obligations.CondNormFiltersTheBlock := by
  refine ⟨by decide, fun s ha hp => ?_⟩
  have hok : phaseOk .condNorm s.ctl.phase = true := by rw [hp]; rfl
  have hexec : exec .condNorm s = .next ((performCondNorm Config.params s).setPhase 3#4) := exec_performs (.inl ha) hok
  rw [performCondNorm_eq] at hexec
  refine ⟨_, hexec, fun i hi => ?_, rfl⟩
  rw [State.setPhase_spec, nth_settleVreal _ _ _ hi, nth_scanOut_normSample _ _ _ hi]
  rfl

/-! ### `COND_BPF` -/

/-- The filter's inputs in order: the two before the block, then the block (R160). -/
def State.bpfInput (s : State) (i : Nat) : F32 :=
  if i = 0 then s.cond.firH2 else if i = 1 then s.cond.firH1 else s.spec.vreal.nth (i - 2)

/-- What the loop of `COND_BPF` carries into sample `i` (R160). -/
@[irreducible] def State.bpfCarry (p : Params) (s : State) (i : Nat) : BpfAcc :=
  s.spec.vreal.carry (bpfSample p) s.bpfStart i

theorem State.bpfCarry_zero (p : Params) (s : State) : s.bpfCarry p 0 = s.bpfStart := by
  rw [State.bpfCarry, Arr.carry_zero]

theorem State.bpfCarry_succ (p : Params) (s : State) {i : Nat} (hi : i < 512) :
    s.bpfCarry p (i + 1) = (bpfSample p (s.bpfCarry p i) (s.spec.vreal.nth i)).2 := by
  rw [State.bpfCarry, State.bpfCarry, Arr.carry_succ _ _ _ _ hi]

/-- R160: the FIR's history is the two inputs before. -/
theorem State.history_bpfCarry (p : Params) (s : State) {i : Nat} (hi : i ≤ 512) :
    (s.bpfCarry p i).h1 = s.bpfInput (i + 1) ∧ (s.bpfCarry p i).h2 = s.bpfInput i := by
  induction i with
  | zero => rw [s.bpfCarry_zero]; exact ⟨rfl, rfl⟩
  | succ i ih =>
    obtain ⟨hprev, -⟩ := ih (by omega)
    rw [s.bpfCarry_succ p hi]
    exact ⟨rfl, hprev⟩

/-- The FIR's output at sample `i` (R160). -/
def State.firOut (p : Params) (s : State) (i : Nat) : F32 :=
  firTap p (s.bpfInput (i + 2)) (s.bpfInput (i + 1)) (s.bpfInput i)

theorem State.bpfSample_bpfCarry (p : Params) (s : State) {i : Nat} (hi : i < 512) :
    bpfSample p (s.bpfCarry p i) (s.spec.vreal.nth i) =
      ((s.firOut p i).sub (iirStep (s.bpfCarry p i).lp (s.firOut p i)),
        { h1 := s.bpfInput (i + 2), h2 := s.bpfInput (i + 1), lp := iirStep (s.bpfCarry p i).lp (s.firOut p i) }) := by
  obtain ⟨hone, htwo⟩ := s.history_bpfCarry p hi.le
  rw [bpfSample, hone, htwo]
  rfl

/-- R160: the moving average after sample `i`. -/
theorem State.lp_bpfCarry_succ (p : Params) (s : State) {i : Nat} (hi : i < 512) :
    (s.bpfCarry p (i + 1)).lp = iirStep (s.bpfCarry p i).lp (s.firOut p i) := by
  rw [s.bpfCarry_succ p hi, s.bpfSample_bpfCarry p hi]

/-- R160: what leaves the filter at sample `i`. -/
theorem State.nth_scanOut_bpfSample (p : Params) (s : State) {i : Nat} (hi : i < 512) :
    (s.spec.vreal.scanOut (bpfSample p) s.bpfStart).nth i = (s.firOut p i).sub (s.bpfCarry p (i + 1)).lp := by
  rw [s.lp_bpfCarry_succ p hi, Arr.nth_scanOut _ _ _ _ hi, ← State.bpfCarry, s.bpfSample_bpfCarry p hi]

theorem performCondBpf_off (p : Params) {s : State} (h : s.cfg.bpfEn = 0#1) : performCondBpf p s = s := if_pos h

/-- R160: with the filter on, the block and the filter's state are replaced. -/
theorem performCondBpf_on (p : Params) {s : State} (h : s.cfg.bpfEn = 1#1) : performCondBpf p s = { s with
    cond := { s.cond with
      firH1 := s.bpfInput 513
      firH2 := s.bpfInput 512
      iirLp := settle (s.bpfInputs p) 0x1A4 (s.bpfCarry p 512).lp }
    spec := { s.spec with
      vreal := settleVreal (s.bpfInputs p) (s.spec.vreal.scanOut (bpfSample p) s.bpfStart) } } := by
  obtain ⟨hone, htwo⟩ := s.history_bpfCarry p (le_refl 512)
  rw [performCondBpf, if_neg (by simp [h]), Arr.scanEnd_eq_carry, ← hone, ← htwo, State.bpfCarry]

/-- Settles O26: the filter's carry is the two inputs before and the moving average. -/
theorem condBpfFiltersTheBlock : Obligations.CondBpfFiltersTheBlock := by
  refine ⟨by decide, fun s ha hp => ?_⟩
  have hok : phaseOk .condBpf s.ctl.phase = true := by rw [hp]; rfl
  have hexec : exec .condBpf s = .next ((performCondBpf Config.params s).setPhase 4#4) := exec_performs (.inl ha) hok
  refine ⟨fun hoff => ?_, fun hon => ?_⟩
  · rw [hexec, performCondBpf_off _ hoff]; rfl
  · rw [performCondBpf_on _ hon] at hexec
    refine ⟨_, fun i => (s.bpfCarry Config.params i).lp, hexec, ?_, fun i hi => ?_, rfl⟩
    · exact congrArg BpfAcc.lp (s.bpfCarry_zero _)
    · refine ⟨s.lp_bpfCarry_succ _ hi, ?_⟩
      rw [State.setPhase_spec, nth_settleVreal _ _ _ hi, s.nth_scanOut_bpfSample _ hi]
      rfl

/-! ### `COND_MAX` -/

/-- `m'` is the greatest of `m` and the magnitudes below the limit in `l` (R165). -/
structure IsMaxFrom (p : Params) (m : F32) (l : List F32) (m' : F32) : Prop where
  start_le : m.le m' = true
  mem_le : ∀ v ∈ l, v.fabs.lt p.outlierLimit = true → v.fabs.le m' = true
  attained : m' = m ∨ ∃ v ∈ l, v.fabs.lt p.outlierLimit = true ∧ m.lt v.fabs = true ∧ m' = v.fabs

/-- R165, for one sample. -/
theorem isMaxFrom_maxSample (p : Params) {m : F32} (hm : m.isNaN = false) (v : F32) :
    IsMaxFrom p m [v] (maxSample p m v) := by
  by_cases hv : v.fabs.lt p.outlierLimit = true ∧ m.lt v.fabs = true
  · obtain ⟨hlimit, hgt⟩ := hv
    have hnan : v.fabs.isNaN = false := (F32.lt_iff.1 hlimit).1
    rw [maxSample, if_pos (by simp [hlimit, hgt])]
    exact ⟨F32.le_of_lt hgt, by simpa using fun _ => F32.le_refl hnan, .inr ⟨v, by simp, hlimit, hgt, rfl⟩⟩
  · rw [maxSample, if_neg (by simpa using hv)]
    refine ⟨F32.le_refl hm, fun w hw hlimit => ?_, .inl rfl⟩
    obtain rfl := List.mem_singleton.1 hw
    exact F32.le_of_not_lt hm (F32.lt_iff.1 hlimit).1 fun hgt => hv ⟨hlimit, hgt⟩

theorem IsMaxFrom.append {p : Params} {m m' m'' : F32} {l l' : List F32} (h : IsMaxFrom p m l m')
    (h' : IsMaxFrom p m' l' m'') : IsMaxFrom p m (l ++ l') m'' where
  start_le := F32.le_trans h.start_le h'.start_le
  mem_le v hv hlimit := (List.mem_append.1 hv).elim
    (fun hl => F32.le_trans (h.mem_le v hl hlimit) h'.start_le) fun hl => h'.mem_le v hl hlimit
  attained := by
    rcases h'.attained with rfl | ⟨v, hv, hlimit, hgt, heq⟩
    · rcases h.attained with heq | ⟨v, hv, hrest⟩
      · exact .inl heq
      · exact .inr ⟨v, List.mem_append_left _ hv, hrest⟩
    · exact .inr ⟨v, List.mem_append_right _ hv, hlimit, F32.lt_of_le_of_lt h.start_le hgt, heq⟩

theorem isMaxFrom_foldl_maxSample (p : Params) (l : List F32) {m : F32} (hm : m.isNaN = false) :
    IsMaxFrom p m l (l.foldl (maxSample p) m) := by
  induction l generalizing m with
  | nil => exact ⟨F32.le_refl hm, nofun, .inl rfl⟩
  | cons v l ih =>
    have hv := isMaxFrom_maxSample p hm v
    exact hv.append (ih (F32.le_iff.1 hv.start_le).2.1)

/-- Settles O27: the greatest magnitude from 0.0 on. -/
theorem condMaxFindsTheLargest : Obligations.CondMaxFindsTheLargest := by
  refine ⟨by decide, fun s ha hp => ?_⟩
  have hok : phaseOk .condMax s.ctl.phase = true := by rw [hp]; rfl
  have h0 : Const.f0.isNaN = false := rfl
  obtain ⟨-, hle, hattained⟩ := isMaxFrom_foldl_maxSample Config.params s.spec.vreal.elems h0
  refine ⟨_, _, exec_performs (.inl ha) hok, (Arr.forall_elems_iff _).1 hle, hattained.imp_right ?_, rfl⟩
  rintro ⟨v, hv, hrest⟩
  obtain ⟨i, hi, rfl⟩ := (Arr.mem_elems_iff _).1 hv
  exact ⟨i, hi, hrest⟩

end Machine
end Sys2Proof
end

section
/-! ## Envelope, gain control and limiter
`ENV_SAMPLE`, `AGC_TICK` and `LIMIT` stay in their phase, so that each leaves what its `perform` step leaves.  A tick of
the controller is said once as a record of its registers; O30 to O33 read off it. -/

namespace Sys2Proof

/-! ### Words with an operand -/

/-- R101, R102: the operand of a command without `ARG` is added to the opcode's place in the word. -/
theorem decode_add_operand {i : Instr} (op : BitVec 8) {base dt : Nat} (hbase : base = op.toNat * 2 ^ 24)
    (hdt : dt < 65536) (hwf : WellFormed i = true) (hop : opcodeOf i = op) (harg : argOf i = 0#8)
    (himm : immOf i = BitVec.ofNat 16 dt) : decode (BitVec.ofNat 32 (base + dt)) = .ok i := by
  have hlt := op.isLt
  have hword : (BitVec.ofNat 32 (base + dt)).toNat = base + dt := by rw [BitVec.toNat_ofNat]; omega
  rw [decode_eq_ok_iff, eq_encode_iff, hop, harg, himm]
  refine ⟨hwf, BitVec.eq_of_toNat_eq ?_, BitVec.eq_of_toNat_eq ?_, BitVec.eq_of_toNat_eq ?_⟩
  · rw [opField_toNat, hword]; omega
  · rw [argField_toNat, hword, BitVec.toNat_ofNat]; omega
  · rw [immField_toNat, hword, BitVec.toNat_ofNat]; omega

theorem decode_agcTick (dt : Nat) (h : dt < 65536) : decode (BitVec.ofNat 32 (0x21000000 + dt)) = .ok (.agcTick dt) :=
  decode_add_operand 0x21#8 rfl h (decide_eq_true h) rfl rfl rfl

theorem decode_limit (dt : Nat) (h : dt < 65536) : decode (BitVec.ofNat 32 (0x22000000 + dt)) = .ok (.limit dt) :=
  decode_add_operand 0x22#8 rfl h (decide_eq_true h) rfl rfl rfl

/-! ### Zero and a magnitude -/

theorem F32.fabs_zero_le_fabs {x : F32} (h : x.isNaN = false) : F32.zero.fabs.le x.fabs = true :=
  F32.zero_le_of_sign ((F32.isNaN_fabs x).trans h) (F32.sign_fabs x)

namespace Machine

/-! ### Commands that stay in their phase -/

/-- R120, R134: a command that stays in its phase leaves what its `perform` step leaves. -/
theorem exec_performs_in_place {i : Instr} {s : State} (ha : s.flag .abort = false)
    (hp : phaseOk i s.ctl.phase = true) (hnext : phaseNext i s = (performOf i s).ctl.phase) :
    exec i s = .next (performOf i s) := by
  rw [exec_performs (.inl ha) hp, hnext]
  rfl

theorem exec_envSample {s : State} (ha : s.flag .abort = false) (hp : 5 ≤ s.ctl.phase.toNat) :
    exec .envSample s = .next (performEnvSample Config.params s) :=
  exec_performs_in_place ha (decide_eq_true hp) rfl

theorem exec_limit {s : State} (ha : s.flag .abort = false) (hp : 5 ≤ s.ctl.phase.toNat) (dt : Nat) :
    exec (.limit dt) s = .next (performLimit Config.params dt s) :=
  exec_performs_in_place ha (decide_eq_true hp) rfl

theorem ctl_performAgcTick (p : Params) (dt : Nat) (s : State) : (performAgcTick p dt s).ctl = s.ctl := by
  unfold performAgcTick
  split <;> rfl

theorem exec_agcTick {s : State} (ha : s.flag .abort = false) (hp : 5 ≤ s.ctl.phase.toNat) (dt : Nat) :
    exec (.agcTick dt) s = .next (performAgcTick Config.params dt s) :=
  exec_performs_in_place ha (decide_eq_true hp) (congrArg Control.phase (ctl_performAgcTick _ dt s)).symm

/-! ### Envelope front-end -/

/-- Settles O29: the steps of the model are those of R180, in its order. -/
theorem envSampleFollowsTheRule : Obligations.EnvSampleFollowsTheRule :=
  ⟨by decide, fun _ ha hp => exec_envSample ha hp⟩

/-! ### Gain control -/

/-- R191: the mode is noted, and the integrator is kept only where it is the noted one already. -/
theorem presetChange_eq (m : BitVec 2) (g : AgcState) : presetChange m g = { g with
    intErr := if m = g.lastPreset then g.intErr else F32.zero
    lastPreset := m } := by
  by_cases h : m = g.lastPreset
  · subst h; simp [presetChange]
  · simp [presetChange, h, Const.f0]

theorem presetChange_presetChange (m : BitVec 2) (g : AgcState) :
    presetChange m (presetChange m g) = presetChange m g := by
  simp [presetChange_eq]

/-- R192: what an effective tick changes, and what a tick that is not effective keeps. -/
theorem agcControl_eq (p : Params) (c : ConfigRegs) (v : EnvelopeState) (dt : Nat) (g : AgcState) :
    agcControl p c v dt g = { g with
      agcElapsed := if 2 ≤ agcAccumulate g.agcElapsed dt then 0#32
        else BitVec.ofNat 32 (agcAccumulate g.agcElapsed dt)
      intErr := if 2 ≤ agcAccumulate g.agcElapsed dt then (agcEffective p c v g).intErr else g.intErr
      mult := if 2 ≤ agcAccumulate g.agcElapsed dt then (agcEffective p c v g).mult else g.mult } := by
  unfold agcControl
  by_cases h : 2 ≤ agcAccumulate g.agcElapsed dt
  · rw [if_pos h, if_pos h, if_pos h]; exact if_pos h
  · rw [if_neg h, if_neg h, if_neg h]; exact if_neg h

/-- The controller's registers after a tick with AGC on. -/
def agcTickNext (p : Params) (dt : Nat) (s : State) : AgcState :=
  agcOutputs p s.cfg s.env (agcInputs p s.cfg s.env (presetChange s.cfg.agcMode s.agc))
    (agcControl p s.cfg s.env dt (presetChange s.cfg.agcMode s.agc))

theorem performAgcTick_on (p : Params) (dt : Nat) {s : State} (h : s.cfg.agcMode ≠ 0#2) :
    performAgcTick p dt s = { s with
      agc := agcTickNext p dt s
      vol := { s.vol with volumeRaw := BitVec.ofNat 8 (agcTickNext p dt s).agcSample.trunc } } :=
  if_neg h

/-- R196: with AGC off the controller does not run. -/
theorem performAgcTick_off (p : Params) (dt : Nat) {s : State} (h : s.cfg.agcMode = 0#2) :
    performAgcTick p dt s = { s with
      agc := { presetChange s.cfg.agcMode s.agc with volTarget := s.env.sampleAvg }
      vol := { s.vol with volumeRaw := BitVec.ofNat 8 s.env.sampleRaw.trunc } } :=
  if_pos h

/-- Settles O30: only R191's reset and the outputs are left of the tick. -/
theorem agcOffPublishesTheUnweightedPath : Obligations.AgcOffPublishesTheUnweightedPath := by
  intro s dt ha hp hoff
  rw [exec_agcTick ha hp, performAgcTick_off _ _ hoff, presetChange_eq, hoff]
  simp only [eq_comm (a := 0#2)]

/-- Settles O31: the tick as a record, R191's reset first and then R192's choice of the effective tick. -/
theorem agcTickFollowsTheRule : Obligations.AgcTickFollowsTheRule := by
  refine ⟨decode_agcTick, fun s dt ha hp hon => ?_⟩
  rw [exec_agcTick ha hp, performAgcTick_on _ _ hon, agcTickNext, agcControl_eq, presetChange_eq]
  rfl

/-- R191: a tick finds the reset made or makes it. -/
theorem performAgcTick_presetChange (p : Params) (dt : Nat) (s : State) :
    performAgcTick p dt { s with agc := presetChange s.cfg.agcMode s.agc } = performAgcTick p dt s := by
  simp only [performAgcTick, presetChange_presetChange]

theorem lastPreset_performAgcTick (p : Params) (dt : Nat) (s : State) :
    (performAgcTick p dt s).agc.lastPreset = s.cfg.agcMode := by
  by_cases h : s.cfg.agcMode = 0#2
  · rw [performAgcTick_off p dt h, presetChange_eq]
  · rw [performAgcTick_on p dt h, agcTickNext, agcControl_eq, presetChange_eq]
    rfl

/-- The integrator after a tick: only an effective tick with AGC on computes it. -/
theorem intErr_performAgcTick (p : Params) (dt : Nat) (s : State) :
    (performAgcTick p dt s).agc.intErr =
      if s.cfg.agcMode ≠ 0#2 ∧ 2 ≤ agcAccumulate s.agc.agcElapsed dt then
        (agcEffective p s.cfg s.env (presetChange s.cfg.agcMode s.agc)).intErr
      else (presetChange s.cfg.agcMode s.agc).intErr := by
  by_cases h : s.cfg.agcMode = 0#2
  · rw [performAgcTick_off p dt h, if_neg fun hon => hon.1 h]
  · simp only [ne_eq, h, not_false_eq_true, true_and]
    rw [performAgcTick_on p dt h, agcTickNext, agcControl_eq, presetChange_eq]
    rfl

/-- Settles O32: the tick makes the reset itself. -/
theorem presetChangeResetsTheIntegrator : Obligations.PresetChangeResetsTheIntegrator := by
  intro s dt ha hp hne
  have hreset : presetChange s.cfg.agcMode s.agc = { s.agc with intErr := F32.zero, lastPreset := s.cfg.agcMode } :=
    if_pos hne
  refine ⟨?_, _, exec_agcTick ha hp dt, lastPreset_performAgcTick _ dt s, fun hdt => ?_⟩
  · have hafter := exec_agcTick (s := { s with agc := presetChange s.cfg.agcMode s.agc }) ha hp dt
    rw [← hreset, exec_agcTick ha hp, hafter, performAgcTick_presetChange]
  · have heffective : ¬2 ≤ agcAccumulate s.agc.agcElapsed dt := by unfold agcAccumulate; omega
    rw [intErr_performAgcTick, if_neg fun h => heffective h.2, hreset]

/-! ### The integrator in silence -/

/-- R193: a bled integrator is not greater in magnitude. -/
theorem fabs_agcBleed_le {i : F32} (h : i.isNaN = false) : (agcBleed i).fabs.le i.fabs = true := by
  unfold agcBleed
  split
  · exact F32.fabs_zero_le_fabs h
  · exact F32.fabs_mul_le h (by decide +kernel) (by decide +kernel)

/-- A value whose magnitude is at most that of an input is left as it is: it is finite, or that input is not. -/
theorem settle_of_fabs_le {inputs : List F32} {a : Nat} {x y : F32} (hy : y ∈ inputs)
    (h : x.fabs.le y.fabs = true) : settle inputs a x = x := by
  cases hf : y.isFinite with
  | false => exact settle_of_not_finite hy hf
  | true =>
    refine settle_of_isFinite ((F32.isFinite_fabs x).symm.trans ?_)
    exact F32.isFinite_of_le_of_le F32.isFinite_zero ((F32.isFinite_fabs y).trans hf)
      (F32.zero_le_of_sign (F32.le_iff.1 h).1 (F32.sign_fabs x)) h

/-- R193: an effective tick in silence bleeds the integrator, and R305 has nothing to settle. -/
theorem intErr_agcEffective_of_silent {p : Params} (c : ConfigRegs) {v : EnvelopeState} {g : AgcState}
    (hs : agcSilent p v.envSmooth v.sampleMax = true) (hn : g.intErr.isNaN = false) :
    (agcEffective p c v g).intErr = agcBleed g.intErr := by
  have hbleed : agcIntegrate p (presetOf p c.agcMode) v.envSmooth v.sampleMax g.mult
      ((agcCandidate p (presetOf p c.agcMode) v.envSmooth v.sampleMax g.mult).sub g.mult) g.intErr =
      agcBleed g.intErr := if_pos hs
  have hmem : g.intErr ∈ agcInputs p c v g := by simp [agcInputs]
  exact (congrArg _ hbleed).trans (settle_of_fabs_le hmem (fabs_agcBleed_le hn))

/-- R191: nor does the reset make the integrator greater. -/
theorem fabs_intErr_presetChange_le (m : BitVec 2) {g : AgcState} (h : g.intErr.isNaN = false) :
    (presetChange m g).intErr.isNaN = false ∧ (presetChange m g).intErr.fabs.le g.intErr.fabs = true := by
  unfold presetChange
  split
  · exact ⟨F32.isNaN_eq_false_of_isFinite F32.isFinite_zero, F32.fabs_zero_le_fabs h⟩
  · exact ⟨h, F32.le_refl ((F32.isNaN_fabs _).trans h)⟩

/-- Settles O33: R191's reset, then at most a bleed. -/
theorem silenceNeverGrowsTheIntegrator : Obligations.SilenceNeverGrowsTheIntegrator := by
  intro p s dt _ hn hsilence
  have hs : agcSilent p s.env.envSmooth s.env.sampleMax = true := Bool.or_eq_true_iff.2 hsilence
  obtain ⟨hn0, hreset⟩ := fabs_intErr_presetChange_le s.cfg.agcMode hn
  rw [intErr_performAgcTick]
  split
  · rw [intErr_agcEffective_of_silent s.cfg hs hn0]
    exact F32.le_trans (fabs_agcBleed_le hn0) hreset
  · exact hreset

/-! ### The limiter's rule -/

theorem bitVec_bne_zero_iff {n : Nat} (x : BitVec n) : (x != 0#n) = true ↔ 0 < x.toNat := by
  rw [bne_iff_ne, BitVec.toNat_ne]
  exact Nat.pos_iff_ne_zero.symm

/-- Settles O34: the branches of R205. -/
theorem limitFollowsTheRule : Obligations.LimitFollowsTheRule := by
  refine ⟨decode_limit, fun s dt ha hp => ?_⟩
  rw [exec_limit ha hp, performLimit, limited]
  simp only [Bool.and_eq_true, bitVec_bne_zero_iff]
  rfl

/-- R206: an elapsed time that is clamped already gives the same step. -/
theorem limitStep_limitDt (p : Params) (dt : Nat) (tau : BitVec 16) :
    limitStep p (limitDt dt) tau = limitStep p dt tau := by
  have hclamped : limitDt (limitDt dt) = limitDt dt := by
    simp only [limitDt, Const.limDtMin, Const.limDtMax]
    omega
  rw [limitStep, limitStep, hclamped]

/-- R205, R206: `LIMIT` reads the elapsed time through its step only. -/
theorem performLimit_limitDt (p : Params) (dt : Nat) (s : State) :
    performLimit p (limitDt dt) s = performLimit p dt s := by
  unfold performLimit limited
  rw [limitStep_limitDt, limitStep_limitDt]

/-- Settles O35: the elapsed time is read only clamped, and one register is written. -/
theorem limiterElapsedTimeIsClamped : Obligations.LimiterElapsedTimeIsClamped := by
  intro s dt ha hp
  refine ⟨?_, _, exec_limit ha hp dt, rfl, rfl, rfl, rfl⟩
  change exec (.limit dt) s = exec (.limit (limitDt dt)) s
  rw [exec_limit ha hp, exec_limit ha hp, performLimit_limitDt]

end Machine
end Sys2Proof
end

section
/-! ## The FFT engine
The dominant bin of R222 is found through the greatest magnitude, which is a fold of `fmax`: what that fold answers is
said first, then which bin is taken, then what each path of `FFT_RUN` leaves. -/

namespace Sys2Proof

/-! ### The greatest of a list -/

theorem F32.feq_iff {a b : F32} : a.feq b = true ↔ a.isNaN = false ∧ b.isNaN = false ∧ a.ord = b.ord := by
  simp [F32.feq, and_assoc]

theorem F32.le_fmax_left {a : F32} (b : F32) (ha : a.isNaN = false) : a.le (a.fmax b) = true := by
  cases hb : b.isNaN with
  | false => exact (F32.fmax_spec ha hb).2.1
  | true => rw [(F32.fmax_fmin_of_isNaN hb ha).2.1]; exact F32.le_refl ha

/-- `fmax` answers one of its operands, or a NaN (R24). -/
theorem F32.fmax_eq_or {a b : F32} (h : (a.fmax b).isNaN = false) : a.fmax b = a ∨ a.fmax b = b := by
  cases ha : a.isNaN <;> cases hb : b.isNaN
  · exact (F32.fmax_spec ha hb).1
  · exact .inl (F32.fmax_fmin_of_isNaN hb ha).2.1
  · exact .inr (F32.fmax_of_isNaN ha hb)
  · rw [F32.fmax, if_pos ha, if_pos hb] at h
    exact absurd h (by decide)

namespace Machine

theorem le_foldl_fmax {x : F32} (hx : x.isNaN = false) (l : List F32) {m : F32} (h : x.le m = true ∨ x ∈ l) :
    x.le (l.foldl F32.fmax m) = true := by
  induction l generalizing m with
  | nil => exact h.resolve_right List.not_mem_nil
  | cons a l ih =>
    refine ih ?_
    rcases h with hm | hmem
    · exact .inl (F32.le_trans hm (F32.le_fmax_left a (F32.le_iff.1 hm).2.1))
    · rcases List.mem_cons.1 hmem with rfl | hl
      · exact .inl (F32.le_fmax_right m hx)
      · exact .inr hl

theorem foldl_fmax_mem (l : List F32) {m : F32} (h : (l.foldl F32.fmax m).isNaN = false) :
    l.foldl F32.fmax m ∈ m :: l := by
  induction l generalizing m with
  | nil => exact List.mem_singleton.2 rfl
  | cons a l ih =>
    rcases List.mem_cons.1 (ih h) with heq | hl
    · have hmax : (m.fmax a).isNaN = false := heq ▸ h
      rw [List.foldl_cons, heq]
      rcases F32.fmax_eq_or hmax with e | e <;> simp [e]
    · exact List.mem_cons_of_mem _ (List.mem_cons_of_mem _ hl)

/-- No value of the list but a NaN is beyond its maximum (log entry 7). -/
theorem le_maxOf {x : F32} {l : List F32} (hl : x ∈ l) (hx : x.isNaN = false) : x.le (maxOf l) = true :=
  le_foldl_fmax hx l (.inr hl)

theorem maxOf_mem {l : List F32} (h : (maxOf l).isNaN = false) : maxOf l ∈ l := by
  rcases List.mem_cons.1 (foldl_fmax_mem l h) with heq | hl
  · rw [maxOf, heq] at h
    exact absurd h (by decide)
  · exact hl

/-! ### The dominant bin -/

/-- Bin `k` is the first of bins 1 to 255 with the greatest magnitude, NaNs passed over (R222, log entry 7). -/
def IsDominantBin (mag : Nat → F32) (k : Nat) : Prop :=
  (mag k).isNaN = false ∧ ∀ j, 1 ≤ j → j ≤ 255 → (mag j).isNaN = false →
    (mag j).le (mag k) = true ∧ (j < k → (mag j).lt (mag k) = true)

/-- The magnitudes of bins 1 to 255 (R222). -/
theorem slice_bins (v : Arr F32 512) : v.slice 1 255 = (List.range 255).map fun i => v.nth (1 + i) :=
  v.slice_eq_map_nth (by decide) (by decide)

theorem mem_slice_bins {v : Arr F32 512} {x : F32} :
    x ∈ v.slice 1 255 ↔ ∃ j, 1 ≤ j ∧ j ≤ 255 ∧ v.nth j = x := by
  rw [slice_bins, List.mem_map]
  constructor
  · rintro ⟨i, hi, rfl⟩
    have := List.mem_range.1 hi
    exact ⟨1 + i, by omega, by omega, rfl⟩
  · rintro ⟨j, h1, h255, rfl⟩
    exact ⟨j - 1, List.mem_range.2 (by omega), by rw [Nat.add_sub_cancel' h1]⟩

/-- R222: the bin found equals the maximum, and no bin before it does. -/
theorem dominantBin_eq_some {v : Arr F32 512} {k : Nat} (h : dominantBin v = some k) :
    1 ≤ k ∧ k ≤ 255 ∧ (v.nth k).feq (maxOf (v.slice 1 255)) = true ∧
      ∀ j, 1 ≤ j → j < k → (v.nth j).feq (maxOf (v.slice 1 255)) = false := by
  obtain ⟨i, hfind, rfl⟩ := Option.map_eq_some_iff.1 h
  generalize maxOf (v.slice 1 255) = m at hfind ⊢
  rw [slice_bins, List.findIdx?_eq_some_iff_getElem] at hfind
  obtain ⟨hlt, hfeq, hbefore⟩ := hfind
  simp only [List.getElem_map, List.getElem_range, Nat.add_comm 1] at hfeq hbefore
  rw [List.length_map, List.length_range] at hlt
  refine ⟨by omega, by omega, hfeq, fun j h1 hj => ?_⟩
  have hprev := hbefore (j - 1) (by omega)
  rw [Nat.sub_add_cancel h1] at hprev
  simpa using hprev

/-- R222: where a magnitude is no NaN, some bin equals the maximum. -/
theorem exists_dominantBin {v : Arr F32 512} {j : Nat} (h1 : 1 ≤ j) (h255 : j ≤ 255)
    (hj : (v.nth j).isNaN = false) : ∃ k, dominantBin v = some k := by
  have hmax : (maxOf (v.slice 1 255)).isNaN = false :=
    (F32.le_iff.1 (le_maxOf (mem_slice_bins.2 ⟨j, h1, h255, rfl⟩) hj)).2.1
  have hself : (maxOf (v.slice 1 255)).feq (maxOf (v.slice 1 255)) = true := F32.feq_iff.2 ⟨hmax, hmax, rfl⟩
  have hsome : ((v.slice 1 255).findIdx? fun x => x.feq (maxOf (v.slice 1 255))).isSome = true := by
    rw [List.findIdx?_isSome, List.any_eq_true]
    exact ⟨_, maxOf_mem hmax, hself⟩
  obtain ⟨i, hi⟩ := Option.isSome_iff_exists.1 hsome
  exact ⟨i + 1, Option.map_eq_some_iff.2 ⟨i, hi, rfl⟩⟩

/-- R222: a bin equal to the maximum, with none equal before it, is dominant. -/
theorem isDominantBin_of_dominantBin {v : Arr F32 512} {k : Nat} (h : dominantBin v = some k) :
    IsDominantBin v.nth k := by
  obtain ⟨-, -, hfeq, hbefore⟩ := dominantBin_eq_some h
  obtain ⟨hk, hmax, hord⟩ := F32.feq_iff.1 hfeq
  refine ⟨hk, fun j h1 h255 hj => ?_⟩
  obtain ⟨-, -, hle⟩ := F32.le_iff.1 (le_maxOf (mem_slice_bins.2 ⟨j, h1, h255, rfl⟩) hj)
  refine ⟨F32.le_iff.2 ⟨hj, hk, by omega⟩, fun hlt => F32.lt_iff.2 ⟨hj, hk, ?_⟩⟩
  have hne : (v.nth j).ord ≠ (maxOf (v.slice 1 255)).ord := fun heq => by
    simpa [hbefore j h1 hlt] using F32.feq_iff.2 ⟨hj, hmax, heq⟩
  omega

theorem chosenBin_within (p : Params) (v : Arr F32 512) (count : Nat) :
    1 ≤ (chosenBin p v count).1 ∧ (chosenBin p v count).1 ≤ 255 := by
  unfold chosenBin
  split
  next k hk =>
    obtain ⟨h1, h255, -⟩ := dominantBin_eq_some hk
    exact ⟨h1, h255⟩
  next =>
    have := (p.freeBin count).isLt
    exact ⟨by omega, by omega⟩

/-- R222: the free value is taken only where every magnitude is a NaN (log entry 8). -/
theorem isDominantBin_chosenBin (p : Params) {v : Arr F32 512} (count : Nat)
    (h : ∃ j, 1 ≤ j ∧ j ≤ 255 ∧ (v.nth j).isNaN = false) : IsDominantBin v.nth (chosenBin p v count).1 := by
  obtain ⟨j, h1, h255, hj⟩ := h
  obtain ⟨k, hk⟩ := exists_dominantBin h1 h255 hj
  rw [chosenBin, hk]
  exact isDominantBin_of_dominantBin hk

/-! ### The spectrum -/

/-- R220: the mean is the sum in index order over 512.0. -/
theorem blockMean_eq (v : Arr F32 512) :
    blockMean v = (((List.range 512).map v.nth).foldl F32.add F32.zero).div (F32.ofNat 512) := by
  rw [blockMean, sumF32, Arr.elems_eq_map_nth]
  rfl

/-- R220, R226: the block that goes through `FFT_FN`, sample by sample. -/
theorem windowed_eq_tab (p : Params) (v : Arr F32 512) :
    windowed p v = Arr.tab 512 fun n => ((v.nth n).sub (blockMean v)).mul (p.window n) :=
  Arr.ext_nth fun i hi => by rw [windowed, Arr.nth_mapIdx _ _ _ hi, Arr.nth_tab _ _ _ hi]

/-- R220, R223: bins 0 to 255 hold the magnitudes, the rest 0.0. -/
theorem nth_spectrum (p : Params) (x : Arr F32 512) {i : Nat} (hi : i < 512) :
    (spectrum p x).nth i = if i < 256 then magnitude (p.fftFn x i) else F32.zero :=
  Arr.nth_tab _ _ _ hi

theorem nth_spectrum_bin (p : Params) (x : Arr F32 512) {k : Nat} (hk : k ≤ 255) :
    (spectrum p x).nth k = magnitude (p.fftFn x k) := by
  rw [nth_spectrum p x (by omega), if_pos (by omega)]

/-- Which bin is dominant is a matter of the magnitudes of bins 1 to 255 alone. -/
theorem IsDominantBin.congr {f g : Nat → F32} {k : Nat} (h : IsDominantBin f k) (hk : k ≤ 255)
    (hfg : ∀ j ≤ 255, f j = g j) : IsDominantBin g k := by
  obtain ⟨hnan, hmax⟩ := h
  refine ⟨hfg k hk ▸ hnan, fun j h1 h255 hj => ?_⟩
  rw [← hfg k hk, ← hfg j h255]
  exact hmax j h1 h255 (hfg j h255 ▸ hj)

/-- R222, of the spectrum: the chosen bin is dominant among the magnitudes. -/
theorem isDominantBin_magnitude (p : Params) (x : Arr F32 512) (count : Nat)
    (h : ∃ j, 1 ≤ j ∧ j ≤ 255 ∧ (magnitude (p.fftFn x j)).isNaN = false) :
    IsDominantBin (fun j => magnitude (p.fftFn x j)) (chosenBin p (spectrum p x) count).1 := by
  obtain ⟨j, h1, h255, hj⟩ := h
  have hdom : IsDominantBin (spectrum p x).nth (chosenBin p (spectrum p x) count).1 :=
    isDominantBin_chosenBin p count ⟨j, h1, h255, nth_spectrum_bin p x h255 ▸ hj⟩
  exact hdom.congr (chosenBin_within p _ _).2 fun j hj => nth_spectrum_bin p x hj

/-! ### Both paths -/

theorem performFftRun_open (p : Params) {s : State} (h : p.fftGate.lt s.env.sampleAvg = true) :
    performFftRun p s = fftTransform p s := if_pos h

theorem performFftRun_closed (p : Params) {s : State} (h : p.fftGate.lt s.env.sampleAvg = false) :
    performFftRun p s = fftSkip p s := if_neg (by simp [h])

/-- R220, R225, R305: the registers that either path of `FFT_RUN` leaves, and the rest as it was. -/
theorem setPhase_publishSpectrum (p : Params) (inputs : List F32) (v : Arr F32 512) (mag freq : F32) (gate : Bool)
    (s : State) (ph : BitVec 4) : (publishSpectrum p inputs v mag freq gate s).setPhase ph = { s with
      ctl := { s.ctl with
        phase := ph
        status := if gate then s.ctl.status ||| 0x20#8 else s.ctl.status &&& 0xDF#8 }
      spec := { vreal := settleVreal inputs (rescaled p v), vimag := fill 512 F32.zero }
      vol := { s.vol with
        fftMagnitude := settle inputs 0x110 mag
        peakFrequency := freq
        magnitudeScaled := settle inputs 0x108 ((settle inputs 0x110 mag).mul p.fftDownscale) } } := rfl

/-- R225, R305: every element that either path leaves in `VREAL` is rescaled and settled. -/
theorem nth_settleVreal_rescaled (p : Params) (inputs : List F32) (v : Arr F32 512) {i : Nat} (hi : i < 512) :
    (settleVreal inputs (rescaled p v)).nth i = settle inputs (0x2000 + 4 * i) ((v.nth i).mul p.fftDownscale) := by
  rw [nth_settleVreal _ _ _ hi, rescaled, Arr.nth_map _ _ _ hi]

/-- R222: the clamp's bounds are 1 Hz and half the sample rate (log entry 10). -/
theorem binFrequency_eq (p : Params) (k : Nat) : binFrequency p k =
    F32.fmin (F32.fmax (((F32.ofNat k).mul p.fs).div (F32.ofNat 512)) F32.one) (p.fs.div (F32.ofNat 2)) := rfl

theorem exec_fftRun {s : State} (ha : s.flag .abort = false) (hp : s.ctl.phase = 5#4) :
    exec .fftRun s = .next ((performFftRun Config.params s).setPhase 6#4) :=
  exec_performs (.inl ha) (by rw [hp]; rfl)

/-- Settles O37, one path at a time. -/
theorem fftRunFollowsTheRule : Obligations.FftRunFollowsTheRule := by
  refine ⟨by decide, fun s ha hp => ?_⟩
  have hexec := exec_fftRun ha hp
  intro p gate mean x z mag left
  have hx : windowed p s.spec.vreal = x := by rw [windowed_eq_tab, blockMean_eq]
  cases hgate : gate with
  | true =>
    have hleft : left = settle (fftInputs p s.spec.vreal) := by
      rw [fftInputs, hx]
      exact congrArg settle (if_pos hgate)
    rw [performFftRun_open _ hgate, fftTransform, hx, setPhase_publishSpectrum] at hexec
    obtain ⟨h1, h255⟩ := chosenBin_within p (spectrum p x) s.io.freeCount
    have hdom := isDominantBin_magnitude p x s.io.freeCount
    rw [hleft]
    refine ⟨_, hexec, fun i hi => ?spectrum, nth_fill 512 _, by dsimp only,
      fun _ => ⟨_, h1, h255, ?peakMagnitude, ?peakFrequency, hdom⟩, nofun, by dsimp only⟩
    case spectrum =>
      rw [nth_settleVreal_rescaled _ _ _ hi, nth_spectrum p x hi]
      simp only [true_and]
      rfl
    case peakMagnitude => rw [nth_spectrum_bin p x h255]; rfl
    case peakFrequency => rw [binFrequency_eq]
  | false =>
    have hleft : left = settle [p.skipMag, p.fftDownscale] := congrArg settle (if_neg (by simp [hgate]))
    rw [performFftRun_closed _ hgate, fftSkip, setPhase_publishSpectrum] at hexec
    rw [hleft]
    refine ⟨_, hexec, fun i hi => ?_, nth_fill 512 _, rfl, nofun, fun _ => ⟨rfl, rfl, rfl⟩, rfl⟩
    rw [nth_settleVreal_rescaled _ _ _ hi, nth_fill _ _ _ hi]
    rfl

end Machine
end Sys2Proof
end

section
/-! ## The multi-resolution bands
An edge of R271 is known by what lies at or below it, `n ≤ logEdge k lo hi j ↔ n ^ k ≤ lo ^ (k - j) * hi ^ j`; its ends
and its growth with `j` are read off that, and the bands of R270 off the edges. -/

namespace Sys2Proof.Machine

/-- Settles O38: the sum over a band is a loop over the index. -/
theorem bandMeanIsTheRule : Obligations.BandMeanIsTheRule := by
  intro v lo hi hle hhi
  refine ⟨fun n => sumF32 ((List.range n).map fun k => v.nth (lo + k)), rfl, fun n _ => sumF32_range_succ _ n, ?_⟩
  rw [bandMean, Arr.slice_eq_map_nth v hle hhi, Nat.sub_add_comm hle]

/-! ### The log edges -/

/-- R101: every K of `BINNER K` is positive. -/
theorem pos_of_mem_binnerSizes : ∀ k ∈ [8, 16, 32, 64, 128], 0 < k := by decide

section LogEdge
variable {k lo hi : Nat} (hk : 0 < k) (hle : lo ≤ hi) (hhi : hi ≤ 255)
include hk hle hhi

/-- R271: the edge is the exact floor, because the search over 8 bits starts below 256. -/
theorem logEdge_spec {j : Nat} (hj : j ≤ k) :
    logEdge k lo hi j ^ k ≤ lo ^ (k - j) * hi ^ j ∧ lo ^ (k - j) * hi ^ j < (logEdge k lo hi j + 1) ^ k := by
  have hbelow : lo ^ (k - j) * hi ^ j < (0 + 2 ^ 8) ^ k := calc
    lo ^ (k - j) * hi ^ j ≤ hi ^ (k - j) * hi ^ j := Nat.mul_le_mul_right _ (Nat.pow_le_pow_left hle _)
    _ = hi ^ k := pow_sub_mul_pow hi hj
    _ < (0 + 2 ^ 8) ^ k := Nat.pow_lt_pow_left (by omega) hk.ne'
  obtain ⟨-, -, hok, hfail⟩ := bitSearch_spec (ok := fun n => decide (n ^ k ≤ lo ^ (k - j) * hi ^ j)) 8 0
    (by simp [hk.ne']) (decide_eq_false (Nat.not_le.2 hbelow))
  exact ⟨of_decide_eq_true hok, Nat.not_le.1 (of_decide_eq_false hfail)⟩

theorem le_logEdge_iff {j : Nat} (hj : j ≤ k) (n : Nat) :
    n ≤ logEdge k lo hi j ↔ n ^ k ≤ lo ^ (k - j) * hi ^ j := by
  obtain ⟨hfloor, hnext⟩ := logEdge_spec hk hle hhi hj
  constructor
  · exact fun h => (Nat.pow_le_pow_left h k).trans hfloor
  · exact fun h => Nat.le_of_lt_succ (lt_of_pow_lt_pow_left₀ k (Nat.zero_le _) (h.trans_lt hnext))

/-- R271: j = 0 gives S. -/
theorem logEdge_zero : logEdge k lo hi 0 = lo := by
  refine eq_of_forall_le_iff fun n => ?_
  rw [le_logEdge_iff hk hle hhi (Nat.zero_le k), Nat.sub_zero, pow_zero, Nat.mul_one, Nat.pow_le_pow_iff_left hk.ne']

/-- R271: j = K gives T. -/
theorem logEdge_last : logEdge k lo hi k = hi := by
  refine eq_of_forall_le_iff fun n => ?_
  rw [le_logEdge_iff hk hle hhi le_rfl, Nat.sub_self, pow_zero, Nat.one_mul, Nat.pow_le_pow_iff_left hk.ne']

theorem logEdge_le_succ {j : Nat} (hj : j < k) : logEdge k lo hi j ≤ logEdge k lo hi (j + 1) := by
  rw [le_logEdge_iff hk hle hhi hj]
  calc logEdge k lo hi j ^ k
      ≤ lo ^ (k - j) * hi ^ j := (logEdge_spec hk hle hhi hj.le).1
    _ = lo ^ (k - (j + 1)) * (lo * hi ^ j) := by rw [← Nat.mul_assoc, ← pow_succ]; congr 2; omega
    _ ≤ lo ^ (k - (j + 1)) * hi ^ (j + 1) := by
      rw [pow_succ']
      exact Nat.mul_le_mul_left _ (Nat.mul_le_mul_right _ hle)

/-- Every edge lies between the first and the last. -/
theorem logEdge_within {j : Nat} (hj : j ≤ k) : lo ≤ logEdge k lo hi j ∧ logEdge k lo hi j ≤ hi := by
  constructor
  · rw [le_logEdge_iff hk hle hhi hj, ← pow_sub_mul_pow lo hj]
    exact Nat.mul_le_mul_left _ (Nat.pow_le_pow_left hle j)
  · refine (Nat.pow_le_pow_iff_left hk.ne').1 ((logEdge_spec hk hle hhi hj).1.trans ?_)
    rw [← pow_sub_mul_pow hi hj]
    exact Nat.mul_le_mul_right _ (Nat.pow_le_pow_left hle _)

end LogEdge

/-- Settles O44, from the exact floor and its two ends. -/
theorem logEdgeIsExact : Obligations.LogEdgeIsExact := by
  intro k hmem lo hi j _ hle hhi hj
  have hk := pos_of_mem_binnerSizes k hmem
  obtain ⟨hfloor, hnext⟩ := logEdge_spec hk hle hhi hj
  exact ⟨hfloor, hnext, logEdge_zero hk hle hhi, logEdge_last hk hle hhi⟩

/-! ### The bands -/

theorem binStart_le_binEnd (c : ConfigRegs) : binStart c ≤ binEnd c := by
  have := c.mrbStart.isLt
  unfold binEnd binStart
  omega

theorem binEnd_le (c : ConfigRegs) : binEnd c ≤ 255 := Nat.min_le_right _ _

/-- R270: a range that ends where it starts, or before, is the one bin S. -/
theorem binEnd_eq_binStart {c : ConfigRegs} (h : c.mrbEnd.toNat ≤ c.mrbStart.toNat) : binEnd c = binStart c := by
  refine le_antisymm ((Nat.min_le_left _ _).trans (Nat.max_le.2 ⟨h.trans ?_, le_rfl⟩)) (binStart_le_binEnd c)
  exact Nat.le_max_left _ _

theorem binBand_lo (c : ConfigRegs) (k j : Nat) : (binBand c k j).lo = logEdge k (binStart c) (binEnd c) j := rfl

theorem binBand_hi_last (c : ConfigRegs) (k : Nat) : (binBand c k (k - 1)).hi = binEnd c := if_pos rfl

theorem binBand_hi_inner (c : ConfigRegs) {k j : Nat} (hj : j + 1 < k) : (binBand c k j).hi =
    max (binBand c k j).lo ((binBand c k (j + 1)).lo - 1) := if_neg (by omega)

/-- R270: a band is a range of bins within S..T. -/
theorem binBand_within (c : ConfigRegs) {k j : Nat} (hj : j < k) :
    binStart c ≤ (binBand c k j).lo ∧ (binBand c k j).lo ≤ (binBand c k j).hi ∧ (binBand c k j).hi ≤ binEnd c := by
  have hedge : ∀ i ≤ k, binStart c ≤ (binBand c k i).lo ∧ (binBand c k i).lo ≤ binEnd c := fun i hi =>
    logEdge_within (by omega) (binStart_le_binEnd c) (binEnd_le c) hi
  obtain ⟨hlo, hhi⟩ := hedge j hj.le
  refine ⟨hlo, ?_⟩
  rcases Nat.lt_or_ge (j + 1) k with hin | hlast
  · obtain ⟨-, hnext⟩ := hedge (j + 1) hin.le
    rw [binBand_hi_inner c hin]
    omega
  · obtain rfl : j = k - 1 := by omega
    rw [binBand_hi_last]
    exact ⟨hhi, le_rfl⟩

/-- Settles O45: consecutive bands meet because an inner band ends just before the next edge or beyond. -/
theorem binnerBandsCoverTheRange : Obligations.BinnerBandsCoverTheRange := by
  intro c k hmem j hj first last
  have hk := pos_of_mem_binnerSizes k hmem
  obtain ⟨hfirst, hle, hlast⟩ := binBand_within c hj
  refine ⟨logEdge_zero hk (binStart_le_binEnd c) (binEnd_le c), binBand_hi_last c k, hfirst, hle, hlast,
    fun hin => ?gap, fun hdeg => ?single⟩
  case gap =>
    rw [binBand_hi_inner c hin]
    omega
  case single =>
    have hlast : (binBand c k j).hi ≤ first := hlast.trans_eq (binEnd_eq_binStart hdeg)
    exact ⟨le_antisymm (hle.trans hlast) hfirst, le_antisymm hlast (hfirst.trans hle)⟩

end Sys2Proof.Machine
end

section
/-! ## The aggregator, the scaling curves and the binner
Each command is said once by what its `perform` step leaves, element by element, and the scaling function by its curve
and its byte map. -/

namespace Sys2Proof

/-! ### Products with zero -/

theorem F32.zero_mul_of_finite {x : F32} (h : x.isFinite = true) : F32.zero.mul x = F32.ofMag x.sign 0 := by
  have hscaled : F32.zero.scaled * x.scaled = 0 := Nat.zero_mul _
  have hsign : F32.signXor F32.zero x = x.sign := Bool.false_bne _
  rw [F32.mul_of_finite F32.isFinite_zero h, hscaled, roundMag_zero (by positivity), hsign]

/-- R24: zero times anything is a zero or a NaN. -/
theorem F32.zero_mul_cases (x : F32) : (F32.zero.mul x).isNaN = true ∨ (F32.zero.mul x).isZero = true := by
  cases hn : x.isNaN with
  | true =>
    rw [F32.mul_of_isNaN (.inr hn)]
    exact .inl (by decide)
  | false =>
    by_cases hf : x.isFinite = true
    · rw [F32.zero_mul_of_finite hf]
      exact .inr (F32.isZero_ofMag_zero _)
    · rw [F32.mul_comm, F32.mul_of_isInf (F32.isInf_of_not_finite hn hf) (by decide), if_pos (by decide)]
      exact .inl (by decide)

/-- R18: of a zero of either sign and +0.0, `fmax` answers +0.0. -/
theorem F32.fmax_zero_of_isZero {x : F32} (h : x.isZero = true) : x.fmax F32.zero = F32.zero := by
  have hmag := (F32.isZero_iff x).1 h
  have hord : x.ord = 0 := by simp [F32.ord, hmag]
  have hnan : x.isNaN = false := by simp [F32.isNaN, hmag]
  have hzero : F32.zero.isNaN = false := by decide
  cases hs : x.sign with
  | true => simp [F32.fmax, hord, hnan, hzero, hs]
  | false =>
    have hx : x = F32.zero := F32.ext_magBits hs hmag
    rw [hx]
    decide

namespace Machine

/-! ### The scaling function -/

/-- R250: the curve by the mode. -/
theorem scaleCurve_eq (p : Params) (c : ConfigRegs) (v : F32) (i : Nat) : scaleCurve p c v i =
    if c.scaleMode = 0#2 then scaleMode0 p v else if c.scaleMode = 1#2 then scaleMode1 p v i
    else if c.scaleMode = 2#2 then scaleMode2 v i else scaleMode3 v i := by
  unfold scaleCurve
  generalize c.scaleMode = m
  have hm : m = 0#2 ∨ m = 1#2 ∨ m = 2#2 ∨ m = 3#2 := by decide +revert
  rcases hm with rfl | rfl | rfl | rfl <;> rfl

/-- R250, R252: the post-gain is left out where AGC is off. -/
theorem scale_eq (p : Params) (c : ConfigRegs) (v : F32) (i : Nat) : scale p c v i = byteMap
    (if c.agcMode = 0#2 then scaleCurve p c v i else (scaleCurve p c v i).mul (p.postGain c.inputLevel.toNat)) := by
  rw [scale, ite_not]

/-- Settles O40: the curve by the mode, the post-gain, the byte map. -/
theorem scaleFollowsTheCurves : Obligations.ScaleFollowsTheCurves := by
  intro p c v i
  rw [scale_eq, scaleCurve_eq]
  rfl

/-! ### A channel value of 0.0 -/

/-- The curve factors of the modes 1 to 3 are finite, so that they leave a 0.0 as it is. -/
theorem zero_mul_curveFactor {i : Nat} (hi : i < 16) :
    ∀ d ∈ [Const.f18, Const.mode2Div, Const.mode3Div], F32.zero.mul (curveFactor i d) = F32.zero := by
  have hall : ∀ i < 16, ∀ d ∈ [Const.f18, Const.mode2Div, Const.mode3Div],
      (curveFactor i d).isFinite = true ∧ (curveFactor i d).sign = false := by decide +kernel
  intro d hd
  obtain ⟨hfin, hsign⟩ := hall i hi d hd
  rw [F32.zero_mul_of_finite hfin, hsign]
  rfl

/-- R250, R251: below its guard each of the modes 1 to 3 answers 0.0. -/
theorem scaleMode1_zero (p : Params) {i : Nat} (hi : i < 16) : scaleMode1 p F32.zero i = F32.zero := by
  have hguard : Const.f1.lt ((F32.zero.mul Const.mode1Slope).sub Const.f8) = false := by decide +kernel
  simp only [scaleMode1, hguard, Bool.false_eq_true, if_false]
  rw [Const.f0, zero_mul_curveFactor hi _ (by simp)]
  decide +kernel

theorem scaleMode2_zero {i : Nat} (hi : i < 16) : scaleMode2 F32.zero i = F32.zero := by
  have hguard : ((F32.zero.mul Const.mode2Slope).sub Const.f4).lt Const.f1 = true := by decide +kernel
  simp only [scaleMode2, hguard, if_true]
  exact zero_mul_curveFactor hi _ (by simp)

theorem scaleMode3_zero {i : Nat} (hi : i < 16) : scaleMode3 F32.zero i = F32.zero := by
  have hguard : Const.f1.lt ((F32.zero.mul Const.mode3Slope).sub Const.f6) = false := by decide +kernel
  simp only [scaleMode3, hguard, Bool.false_eq_true, if_false]
  rw [Const.f0, zero_mul_curveFactor hi _ (by simp)]
  decide +kernel

theorem scaleCurve_zero (p : Params) {c : ConfigRegs} {i : Nat} (hi : i < 16) (hm : c.scaleMode ≠ 0#2) :
    scaleCurve p c F32.zero i = F32.zero := by
  rw [scaleCurve_eq, if_neg hm, scaleMode1_zero p hi, scaleMode2_zero hi, scaleMode3_zero hi, ite_self, ite_self]

/-- R253: a zero of either sign and a NaN map to byte 0, because the clamp makes them 0.0. -/
theorem byteMap_eq_zero {r : F32} (h : r.isNaN = true ∨ r.isZero = true) : byteMap r = 0#8 := by
  have hfloor : r.fmax F32.zero = F32.zero := by
    rcases h with hnan | hzero
    · exact F32.fmax_of_isNaN hnan (by decide)
    · exact F32.fmax_zero_of_isZero hzero
  rw [byteMap, F32.clamp, Const.f0, hfloor]
  decide +kernel

/-- Settles O42: the curve answers 0.0, and any post-gain makes a zero or a NaN of it. -/
theorem zeroInputGivesByteZero : Obligations.ZeroInputGivesByteZero := by
  intro p c i hi hm
  rw [scale_eq, scaleCurve_zero p hi hm]
  split
  · exact byteMap_eq_zero (.inr (by decide))
  · exact byteMap_eq_zero (F32.zero_mul_cases _)

/-! ### `AGG16` and `SCALE16` -/

theorem exec_agg16 {s : State} (ha : s.flag .abort = false) (hp : s.ctl.phase = 6#4) :
    exec .agg16 s = .next ((performAgg16 Config.params s).setPhase 7#4) :=
  exec_performs (.inl ha) (by rw [hp]; rfl)

theorem exec_scale16 {s : State} (ha : s.flag .abort = false) (hp : s.ctl.phase = 7#4) :
    exec .scale16 s = .next ((performScale16 Config.params s).setPhase 8#4) :=
  exec_performs (.inl ha) (by rw [hp]; rfl)

/-- R240: each channel through the open or the closed gate. -/
theorem nth_channelsNext (p : Params) (s : State) {c : Nat} (hc : c < 16) : (channelsNext p s).nth c =
    if p.aggGate.lt s.env.sampleAvg then channelOpen p s c else channelDecay p (s.chan.fftCalc.nth c) := by
  unfold channelsNext
  split
  · exact Arr.nth_tab _ _ _ hc
  · exact Arr.nth_map _ _ _ hc

/-- R240, R247: what `AGG16` leaves. -/
theorem setPhase_performAgg16 (p : Params) (s : State) (ph : BitVec 4) : (performAgg16 p s).setPhase ph = { s with
    ctl := { s.ctl with
      phase := ph
      status := if p.aggGate.lt s.env.sampleAvg then s.ctl.status ||| 0x40#8 else s.ctl.status &&& 0xBF#8 }
    chan := { s.chan with
      fftCalc := channelsNext p s
      fftAvg := Arr.tab 16 fun c =>
        smoothChannel s.cfg.decayMs ((channelsNext p s).nth c) (s.chan.fftAvg.nth c) } } := rfl

/-- Settles O39: the two gates channel by channel, then the smoothing of what they leave. -/
theorem aggregatorFollowsTheRule : Obligations.AggregatorFollowsTheRule := by
  refine ⟨by decide, fun s ha hp => ?_⟩
  have hexec := exec_agg16 ha hp
  rw [setPhase_performAgg16] at hexec
  intro p gate edges mean damped opened decayed fall
  refine ⟨_, hexec, fun c hc => ?channel, fun c hc => ?smoothed, rfl⟩
  case channel =>
    have hband : channelBand p s.cfg c = edges c := by
      unfold channelBand edges
      split <;> rfl
    have hopen : channelOpen p s c = opened c := by rw [channelOpen, channelMean, hband]; rfl
    rw [← hopen]
    exact nth_channelsNext p s hc
  case smoothed => exact Arr.nth_tab _ _ _ hc

/-- Settles O41: `SCALE16` leaves one scaled byte per channel. -/
theorem scaleCommandScalesTheChannels : Obligations.ScaleCommandScalesTheChannels :=
  ⟨by decide, fun _ ha hp => ⟨_, exec_scale16 ha hp, fun _ hc => Arr.nth_tab _ _ _ hc, rfl⟩⟩

/-! ### `BINNER K` -/

/-- `BINNER K` (R101). -/
def MrbSize.binner (k : MrbSize) : Instr :=
  match k with
  | .k8 => .binner8
  | .k16 => .binner16
  | .k32 => .binner32
  | .k64 => .binner64
  | .k128 => .binner128

theorem exec_binner {s : State} (ha : s.flag .abort = false) (hp : 6 ≤ s.ctl.phase.toNat) (k : MrbSize) :
    exec k.binner s = .next (performBinner Config.params k s) := by
  cases k <;> exact exec_performs_in_place ha (decide_eq_true hp) rfl

/-- Settles O43: every output of the one array is the byte of its band. -/
theorem binnersFollowTheRule : Obligations.BinnersFollowTheRule := by
  refine ⟨by decide, by decide, by decide, by decide, by decide, fun s ha hp => ?_⟩
  intro p lo hi v out
  have hout : ∀ k j, binByte p s k j = out k j := fun _ _ => rfl
  have houtputs : ∀ k, ∀ j < k, (Arr.tab k (binByte p s k)).nth j = out k j := fun k j hj =>
    (Arr.nth_tab _ _ j hj).trans (hout k j)
  exact ⟨⟨_, exec_binner ha hp .k8, houtputs 8, rfl⟩, ⟨_, exec_binner ha hp .k16, houtputs 16, rfl⟩,
    ⟨_, exec_binner ha hp .k32, houtputs 32, rfl⟩, ⟨_, exec_binner ha hp .k64, houtputs 64, rfl⟩,
    ⟨_, exec_binner ha hp .k128, houtputs 128, rfl⟩⟩

end Machine
end Sys2Proof
end

section
/-! ## The peak and beat detectors
All three commands stay in their phase, so that each is said by what its `perform` step leaves: a peak under the
conditions of its rule, and the tracker's registers one by one. -/

namespace Sys2Proof.Machine

/-! ### `PEAK_DETECT` -/

/-- R280, R281: the five conditions. -/
theorem peakFires_iff (s : State) : peakFires s = true ↔
    F32.one.lt s.env.sampleAvg = true ∧ s.cfg.peakThresh ≠ 0#16 ∧ s.cfg.peakBin.toNat < 256 ∧
      (F32.ofNat s.cfg.peakThresh.toNat).lt (s.spec.vreal.nth s.cfg.peakBin.toNat) = true ∧
      100 ≤ (s.ctl.nowMs - s.peak.lastPeakMs).toNat := by
  simp only [peakFires, Bool.and_eq_true, bne_iff_ne, decide_eq_true_eq, and_assoc]
  rfl

theorem ctl_performPeakDetect (s : State) : (performPeakDetect s).ctl = s.ctl := by
  unfold performPeakDetect
  split <;> rfl

theorem exec_peakDetect {s : State} (ha : s.flag .abort = false) (hp : 6 ≤ s.ctl.phase.toNat) :
    exec .peakDetect s = .next (performPeakDetect s) :=
  exec_performs_in_place ha (decide_eq_true hp) (congrArg Control.phase (ctl_performPeakDetect s)).symm

/-- Settles O46: the command performs, and it fires exactly under the five conditions. -/
theorem peakDetectFollowsTheRule : Obligations.PeakDetectFollowsTheRule := by
  refine ⟨by decide, fun s ha hp => ?_⟩
  rw [exec_peakDetect ha hp, performPeakDetect]
  simp only [peakFires_iff]

/-! ### `PEAK_RESET` -/

theorem ctl_performPeakReset (s : State) : (performPeakReset s).ctl = s.ctl := by
  unfold performPeakReset
  split <;> rfl

theorem exec_peakReset {s : State} (ha : s.flag .abort = false) (hp : 1 ≤ s.ctl.phase.toNat) :
    exec .peakReset s = .next (performPeakReset s) :=
  exec_performs_in_place ha (decide_eq_true hp) (congrArg Control.phase (ctl_performPeakReset s)).symm

/-- R282: the external peak outlives the peak exactly with `SYNC_EN` = 1. -/
theorem extPeak_unless_sync (sync : BitVec 1) (ext : Bool) :
    (if sync = 0#1 then false else ext) = (ext && sync == 1#1) := by decide +revert

/-- Settles O47: an active peak ends once the show delay is over. -/
theorem peakResetFollowsTheRule : Obligations.PeakResetFollowsTheRule := by
  refine ⟨by decide, fun s ha hp => ?_⟩
  rw [exec_peakReset ha hp, performPeakReset]
  simp only [Bool.and_eq_true, decide_eq_true_eq, extPeak_unless_sync]
  rfl

/-! ### `BEAT_TRACK` -/

/-- R285, R287: the averages are always replaced, the time only by a candidate's. -/
theorem ite_lastBeatMs (cand : Bool) (b : BeatState) (avg thr : F32) (now : Word) :
    (if cand then { b with beatAvg := avg, thresholdAvg := thr, lastBeatMs := now }
      else { b with beatAvg := avg, thresholdAvg := thr }) =
      { b with beatAvg := avg, thresholdAvg := thr, lastBeatMs := if cand then now else b.lastBeatMs } := by
  cases cand <;> rfl

/-- R288: what an accepted interval changes, register by register. -/
theorem ite_beatAccepted (p : Params) (inputs : List F32) (acc : Bool) (b : BeatState) (el : Nat) :
    (if acc then beatAccepted p inputs b el else b) = { b with
      meanInterval := if acc then settle inputs 0x17C (beatMeanNext b el) else b.meanInterval
      beatValid := b.beatValid || acc
      bpm := if acc then settle inputs 0x180 (Const.f60000.div (beatMeanNext b el)) else b.bpm
      intervalEst := if acc then settle inputs 0x178 ((beatMeanNext b el).mul p.beatEstFrac) else b.intervalEst
      animDurationMs := if acc then BitVec.ofNat 32 (beatMeanNext b el).trunc else b.animDurationMs } := by
  cases acc with
  | false => rw [Bool.or_false]; rfl
  | true => rw [Bool.or_true]; rfl

theorem exec_beatTrack {s : State} (ha : s.flag .abort = false) (hp : s.ctl.phase = 8#4) :
    exec .beatTrack s = .next (performBeatTrack Config.params s) :=
  exec_performs_in_place ha (by rw [hp]; rfl) rfl

/-- Settles O48: the candidate's and the accepted interval's changes, then R285's values in its order. -/
theorem beatTrackFollowsTheRule : Obligations.BeatTrackFollowsTheRule := by
  refine ⟨by decide, fun s ha hp => ?_⟩
  intro p b x avg thr el cand acc mean left
  rw [exec_beatTrack ha hp, performBeatTrack]
  simp only [ite_lastBeatMs, ite_beatAccepted]
  rfl

end Sys2Proof.Machine
end

section
/-! ## Reset
What a word reads after power-on and after `RESET` depends on the location that the map names only; the map itself is
looked at once, in `apply_locOf_eq`. -/

namespace Sys2Proof.Machine

/-! ### The map, word by word -/

/-- A property `f` of the locations, as a function `g` of the aligned address: the single registers all stand below
0x1A8, the rest is arrays and holes (R71). -/
theorem apply_locOf_eq {α : Type} {f : Loc → α} {g : Nat → α} (hsingle : ∀ k < 106, f (locOf (4 * k)) = g (4 * k))
    (harray : ∀ a, 0x1A8 ≤ a → f (locOfArray a) = g a) {a : Nat} (ha : a % 4 = 0) : f (locOf a) = g a := by
  by_cases h : 0x1A8 ≤ a
  · rw [locOf_of_ge h]
    exact harray a h
  · have hk := hsingle (a / 4) (by omega)
    rwa [Nat.mul_div_cancel' (Nat.dvd_of_mod_eq_zero ha)] at hk

/-! ### Words at reset -/

/-- What the word at a location is after power-on reset (R331). -/
def Loc.resetWord (l : Loc) : Word :=
  match l with
  | .cfg .bpfEn => 1#32
  | .ro .peakFrequency | .ro .mult => 0x3F800000#32
  | _ => 0#32

/-- An array filled with the default element reads it everywhere, beyond its end too. -/
theorem nth_fill_default {α : Type} [Inhabited α] (n i : Nat) : (fill n (default : α)).nth i = default := by
  by_cases hi : i < n
  · exact nth_fill n default i hi
  · exact List.getD_eq_default _ _ (by rw [(fill n default).size]; omega)

theorem bits_nth_fill_zero (n i : Nat) : ((fill n resetF0).nth i).bits = 0#32 :=
  congrArg F32.bits (nth_fill_default n i)

theorem packBytes_fill_zero (n j : Nat) : packBytes (fill n 0#8) j = 0#32 := by
  have hbyte (i : Nat) : (fill n 0#8).nth i = 0#8 := nth_fill_default n i
  simp only [packBytes, hbyte]
  decide

/-- R331, location by location. -/
theorem State.readLoc_reset (l : Loc) : State.reset.readLoc l = l.resetWord := by
  cases l with
  | cfg r => cases r <;> rfl
  | ro r => cases r <;> rfl
  | fftCalc i | fftAvg i | vreal i | vimag i => exact bits_nth_fill_zero _ i
  | fftResult j => exact packBytes_fill_zero _ j
  | mrb k j => cases k <;> exact packBytes_fill_zero _ j
  | rawIn i => exact Memory.readWord_nil _
  | _ => rfl

/-- Each of the eleven arrays reads 0, and so does a hole. -/
theorem resetWord_locOfArray (a : Nat) : (locOfArray a).resetWord = 0#32 := by
  unfold locOfArray
  iterate 11 refine iteInduction (motive := (Loc.resetWord · = 0#32)) (fun _ => rfl) fun _ => ?_
  rfl

/-- What the word at an address is after power-on reset (R331). -/
def resetWordAt (a : Nat) : Word :=
  if a = 0x060 then 1#32 else if a = 0x10C ∨ a = 0x140 then 0x3F800000#32 else 0#32

/-- The three words that do not read 0 stand where R331 says. -/
theorem resetWord_locOf {a : Nat} (ha : a % 4 = 0) : (locOf a).resetWord = resetWordAt a := by
  refine apply_locOf_eq (f := Loc.resetWord) (g := resetWordAt) ?_ (fun a h => ?_) ha
  · decide
  · rw [resetWord_locOfArray, resetWordAt, if_neg (by omega), if_neg (by omega)]

/-- Settles O19: the words by their locations; power-on is one access, and takes none of the later ones away. -/
theorem resetValues : Obligations.ResetValues :=
  ⟨fun a _ ha => (State.readLoc_reset (locOf a)).trans (resetWord_locOf ha),
    fun _ _ hbus => ⟨_, step_of_bus hbus, rfl, rfl⟩⟩

/-- Settles O53, by what the two step invariants were started from. -/
theorem resetMeetsTheInvariants : Obligations.ResetMeetsTheInvariants := ⟨inv_reset, beatInv_reset⟩

/-! ### The command `RESET` -/

/-- The locations that R332 calls host-written. -/
def Loc.isHostWritten (l : Loc) : Bool :=
  match l with
  | .nowMs | .blockCount | .chanSel | .cfg _ | .rawIn _ => true
  | _ => false

theorem isHostWritten_locOfArray (a : Nat) :
    (locOfArray a).isHostWritten = decide (0x1000 ≤ a ∧ a < 0x1800) := by
  by_cases hraw : 0x1000 ≤ a ∧ a < 0x1800
  · rw [decide_eq_true hraw]
    simp (disch := omega) only [locOfArray, if_neg, if_pos, Loc.isHostWritten]
  · rw [decide_eq_false hraw]
    unfold locOfArray
    split_ifs <;> rfl

/-- R332's host-written addresses are those of its host-written locations. -/
theorem isHostWritten_locOf {a : Nat} (ha : a % 4 = 0) : (locOf a).isHostWritten = hostWritten a := by
  refine apply_locOf_eq (f := Loc.isHostWritten) (g := hostWritten) ?_ (fun a h => ?_) ha
  · decide
  · rw [isHostWritten_locOfArray, hostWritten, decide_eq_decide]
    omega

/-- R132, location by location. -/
theorem readLoc_performReset (s : State) (l : Loc) :
    (performReset s).readLoc l = if l.isHostWritten then s.readLoc l else State.reset.readLoc l := by
  cases l <;> rfl

theorem readWord_performReset (s : State) {a : Nat} (ha : a % 4 = 0) :
    (performReset s).readWord a = if hostWritten a then s.readWord a else State.reset.readWord a := by
  rw [← isHostWritten_locOf ha]
  exact readLoc_performReset s (locOf a)

/-- R132: `RESET` is performed in every state, and the phase that follows is the one it leaves. -/
theorem exec_reset (s : State) : exec .reset s = .next (performReset s) := exec_performs (.inr rfl) rfl

/-- Settles O22: every word by its location. -/
theorem resetCommandKeepsHostRegisters : Obligations.ResetCommandKeepsHostRegisters :=
  ⟨by decide, fun s => ⟨_, exec_reset s, fun _ ha _ => readWord_performReset s ha, rfl⟩⟩

end Sys2Proof.Machine
end
